-- ==== Sys2Proof/Word.lean ====
section
/-! DEFINITION. The one numeric type of the machine and its narrowing (R7, R92). -/

namespace Sys2Proof

/-- A tape word, a queue item, `RB`, `PC`: 64 bits, read as signed two's complement (R6 `XLEN`, R7 `I64`). -/
abbrev Word := BitVec 64

/-- `wrap64(z)`: the one word congruent to `z` modulo `2^64` (R7). -/
def wrap64 (z : Int) : Word := BitVec.ofInt 64 z

end Sys2Proof
end

