-- ==== Sys2Proof/Machine/Flags.lean ====
section
/-! DEFINITION. The machine has no flags (R13). What other machines keep in flags is here a data word or a test of an
operand: the comparisons and the zero test of the ALU, with its addition and multiplication (R92). -/

namespace Sys2Proof.Machine

/-- Addition: `wrap64(x + y)` (R92). -/
def aluAdd (x y : Word) : Word := wrap64 (x.toInt + y.toInt)

/-- Multiplication: `wrap64(x · y)` (R92). -/
def aluMul (x y : Word) : Word := wrap64 (x.toInt * y.toInt)

/-- Signed less-than: 1 or 0 (R92, R105). -/
def aluLess (x y : Word) : Word := if x.toInt < y.toInt then 1 else 0

/-- Equality: 1 or 0 (R92, R106). -/
def aluEqual (x y : Word) : Word := if x = y then 1 else 0

/-- The test against zero (R92, R100, R101). -/
def isZero (x : Word) : Bool := decide (x = 0)

end Sys2Proof.Machine
end

