-- ==== Sys2Proof/Config.lean ====
section
/-! DEFINITION. The open parameters of the hardware (R6, R24; 92_eei_decisions.md section 1), the agents, the host's
actions, and the one free value of the model: the schedule (R134). -/

namespace Sys2Proof

/-- `TOPOLOGY` of a network (R6, R125). -/
inductive Topology where
  | linear
  | feedback
deriving DecidableEq, Repr

/-- What stands around the cores: the arbiter's network (R125, R126), or nothing but the host at the far ends of one
core's two queues (R138). -/
inductive Wiring where
  /-- `PHASE[i]` in core order, and `STIMULUS` (R6, R126). -/
  | network (topology : Topology) (phase : List Word) (stimulus : Word)
  /-- The host's initial `INQ` and whether it is closed at reset (R138). -/
  | standalone (inq : List Word) (inqClosed : Bool)
deriving DecidableEq, Repr

/-- The parameters the hardware is built and reset with (R6, R24, R180); no step but a reset changes them. `K` is the
number of images. -/
structure Config where
  /-- `MAXLEN`: addresses are `0 … MAXLEN−1` for writes. -/
  maxlen : Nat
  /-- `QDEPTH`: capacity of every queue, `none` for unbounded. -/
  qdepth : Option Nat
  /-- `IMAGE[i]`, one for each core. -/
  images : List (List Word)
  wiring : Wiring
deriving DecidableEq, Repr

namespace Config

/-- `K`, the number of cores (R6). -/
def k (c : Config) : Nat := c.images.length

def isStandalone (c : Config) : Bool :=
  match c.wiring with
  | .standalone _ _ => true
  | .network _ _ _ => false

/-- A FEEDBACK network (R125). -/
def isFeedback (c : Config) : Bool :=
  match c.wiring with
  | .network .feedback _ _ => true
  | .network .linear _ _ => false
  | .standalone _ _ => false

/-- The test vectors' standalone configuration: `MAXLEN = 2^40`, unbounded queues, `INQ` empty and closed
(95_test_vectors.md, conventions), with an empty image (D31). The configuration of `State.reset`. DESIGN CHOICE, log 3. -/
def vectors : Config :=
  { maxlen := 1099511627776, qdepth := none, images := [[]], wiring := .standalone [] true }

end Config

/-- The agents of R134. -/
inductive Agent where
  | core (i : Nat)
  | forwarder
  | host
deriving DecidableEq, Repr, Inhabited

/-- What the host may do to the hardware (R138, R139, R180). Observing is no step. -/
inductive HostAct where
  /-- Reset of everything (R180) with a configuration; `tap` and `failId` are the unspecified values of R181. -/
  | reset (c : Config) (tap : Word) (failId : Nat)
  /-- `RUN_EN <- 1`, once (R131, R184 step 3). -/
  | start
  /-- Standalone: `push` on `INQ`. -/
  | feed (v : Word)
  /-- Standalone: `INQ.PROD_CLOSED <- 1`, once. -/
  | closeInput
  /-- Standalone: `pop` on `OUTQ`. -/
  | drain
  /-- Standalone: `OUTQ.CONS_GONE <- 1`, once. -/
  | abandonOutput
deriving DecidableEq, Repr

/-- FREE VALUE (log 4): which agent the schedule picks at its `n`-th free choice. The spec leaves the schedule
unspecified (R134, U11), so nothing constrains it. -/
opaque Config.freeAgent : Nat → Agent

end Sys2Proof
end

