-- ==== Sys2Proof/Syntax.lean ====
section
/-! DEFINITION. The instructions: one constructor for each row of spec/opcode_table.json (R63), operands as decoded
parameters (R61, R62, R69). -/

namespace Sys2Proof

/-- The three addressing modes (R66, R70): digits 0, 1, 2. -/
inductive Mode where
  | positional
  | immediate
  | relative
deriving DecidableEq, Repr

/-- A parameter: its mode and its raw word (R69). -/
structure Param where
  mode : Mode
  raw  : Word
deriving DecidableEq, Repr

/-- The ten instructions (R63). Parameters stand in index order; `d` is a write target (R62). -/
inductive Instr where
  | add (a b d : Param)
  | mul (a b d : Param)
  | inp (d : Param)
  | out (a : Param)
  | jnz (a t : Param)
  | jz (a t : Param)
  | lt (a b d : Param)
  | eq (a b d : Param)
  | arb (a : Param)
  | hlt
deriving DecidableEq, Repr

namespace Instr

/-- Number of parameters (R62). -/
def nParams : Instr → Nat
  | .add _ _ _ => 3
  | .mul _ _ _ => 3
  | .inp _ => 1
  | .out _ => 1
  | .jnz _ _ => 2
  | .jz _ _ => 2
  | .lt _ _ _ => 3
  | .eq _ _ _ => 3
  | .arb _ => 1
  | .hlt => 0

/-- The write target, where the format has one: parameter 3 of opcodes 1, 2, 7, 8 and parameter 1 of opcode 3
(R62, R71). -/
def writeTarget? : Instr → Option Param
  | .add _ _ d => some d
  | .mul _ _ d => some d
  | .inp d => some d
  | .out _ => none
  | .jnz _ _ => none
  | .jz _ _ => none
  | .lt _ _ d => some d
  | .eq _ _ d => some d
  | .arb _ => none
  | .hlt => none

end Instr

end Sys2Proof
end

