-- ==== Sys2Proof/Decode.lean ====
section
/-! DEFINITION. The decimal encoding (R60 to R68, R77): the decoder, total on any words, and the encoder. -/

namespace Sys2Proof

/-- Why a sequence of words is no instruction. -/
inductive Reject where
  /-- There is no word at all: `PC ≥ LEN` (R60). -/
  | noWord
  /-- A negative word or an opcode outside the table (R64, R65). -/
  | unknownOpcode (w : Word)
  /-- The last parameter word is missing (R68). -/
  | truncatedInstruction (w : Word)
  /-- Used mode digit 3 to 9 of parameter `n` (R66). -/
  | illegalMode (n : Nat) (w : Word)
deriving DecidableEq, Repr

/-- `w mod 100`, for `w ≥ 0` (R61). -/
def opcodeOf (w : Word) : Nat := w.toNat % 100

/-- `digit_k(w)`, for `w ≥ 0` (R7). -/
def digit (k : Nat) (w : Word) : Nat := w.toNat / 10 ^ k % 10

/-- R66: digits 0, 1, 2 are modes. -/
def modeOfDigit : Nat → Option Mode
  | 0 => some .positional
  | 1 => some .immediate
  | 2 => some .relative
  | _ => none

/-- The mode of parameter `n`: the digit of weight `10^(n+1)` (R61, R66). -/
def modeAt (w : Word) (n : Nat) : Except Reject Mode :=
  match modeOfDigit (digit (n + 1) w) with
  | some m => .ok m
  | none => .error (.illegalMode n w)

/-- Formats `W` and `R` (R62): truncation is tested before the mode digit (R75 steps 3, 4). -/
def decode1 (mk : Param → Instr) (w : Word) (rest : List Word) : Except Reject Instr :=
  match rest with
  | r1 :: _ =>
    match modeAt w 1 with
    | .error e => .error e
    | .ok m1 => .ok (mk ⟨m1, r1⟩)
  | [] => .error (.truncatedInstruction w)

/-- Format `RR` (R62). -/
def decode2 (mk : Param → Param → Instr) (w : Word) (rest : List Word) : Except Reject Instr :=
  match rest with
  | r1 :: r2 :: _ =>
    match modeAt w 1 with
    | .error e => .error e
    | .ok m1 =>
      match modeAt w 2 with
      | .error e => .error e
      | .ok m2 => .ok (mk ⟨m1, r1⟩ ⟨m2, r2⟩)
  | _ => .error (.truncatedInstruction w)

/-- Format `RRW` (R62). -/
def decode3 (mk : Param → Param → Param → Instr) (w : Word) (rest : List Word) : Except Reject Instr :=
  match rest with
  | r1 :: r2 :: r3 :: _ =>
    match modeAt w 1 with
    | .error e => .error e
    | .ok m1 =>
      match modeAt w 2 with
      | .error e => .error e
      | .ok m2 =>
        match modeAt w 3 with
        | .error e => .error e
        | .ok m3 => .ok (mk ⟨m1, r1⟩ ⟨m2, r2⟩ ⟨m3, r3⟩)
  | _ => .error (.truncatedInstruction w)

/-- The opcode map (R63) on a non-negative word. -/
def decodeOpcode (op : Nat) (w : Word) (rest : List Word) : Except Reject Instr :=
  match op with
  | 1 => decode3 .add w rest
  | 2 => decode3 .mul w rest
  | 3 => decode1 .inp w rest
  | 4 => decode1 .out w rest
  | 5 => decode2 .jnz w rest
  | 6 => decode2 .jz w rest
  | 7 => decode3 .lt w rest
  | 8 => decode3 .eq w rest
  | 9 => decode1 .arb w rest
  | 99 => .ok .hlt
  | _ => .error (.unknownOpcode w)

/-- The decoder (R75 steps 2 to 4) on the words from the instruction word to the end of the tape. Words after the
instruction's own are not looked at. -/
def decode : List Word → Except Reject Instr
  | [] => .error .noWord
  | w :: rest => if w.toInt < 0 then .error (.unknownOpcode w) else decodeOpcode (opcodeOf w) w rest

/-- The digit of a mode (R66). -/
def modeDigit : Mode → Nat
  | .positional => 0
  | .immediate => 1
  | .relative => 2

/-- The canonical instruction word `o + 100·m1 + 1000·m2 + 10000·m3` (R77). -/
def instrWord (o m1 m2 m3 : Nat) : Word := BitVec.ofNat 64 (o + 100 * m1 + 1000 * m2 + 10000 * m3)

def encode1 (o : Nat) (a : Param) : List Word := [instrWord o (modeDigit a.mode) 0 0, a.raw]

def encode2 (o : Nat) (a b : Param) : List Word :=
  [instrWord o (modeDigit a.mode) (modeDigit b.mode) 0, a.raw, b.raw]

def encode3 (o : Nat) (a b d : Param) : List Word :=
  [instrWord o (modeDigit a.mode) (modeDigit b.mode) (modeDigit d.mode), a.raw, b.raw, d.raw]

/-- The words of an instruction, canonical (R62, R77). -/
def encode : Instr → List Word
  | .add a b d => encode3 1 a b d
  | .mul a b d => encode3 2 a b d
  | .inp d => encode1 3 d
  | .out a => encode1 4 a
  | .jnz a t => encode2 5 a t
  | .jz a t => encode2 6 a t
  | .lt a b d => encode3 7 a b d
  | .eq a b d => encode3 8 a b d
  | .arb a => encode1 9 a
  | .hlt => [instrWord 99 0 0 0]

/-- The four 64-bit words of the longest instruction, cut from a number whose bit 0 is the least significant bit of the
first word; bits from `nbits` up are 0. -/
def tableWords (nbits w : Nat) : List Word :=
  let v := w % 2 ^ nbits
  [BitVec.ofNat 64 v, BitVec.ofNat 64 (v / 2 ^ 64), BitVec.ofNat 64 (v / 2 ^ 128), BitVec.ofNat 64 (v / 2 ^ 192)]

/-- The instruction the decoder reads from a row's bits, numbered as spec/opcode_table.json numbers them. -/
def decodeTableWord (nbits w : Nat) : Option Instr :=
  match decode (tableWords nbits w) with
  | .ok i => some i
  | .error _ => none

end Sys2Proof
end

