-- ==== Sys2Proof/Machine/Errors.lean ====
section
/-! DEFINITION. The errors a core raises and the fault record each leaves (R16, R150, R152 to R160). -/

namespace Sys2Proof.Machine

/-- The errors of R150 that a core can raise, with what they record. `LoadError` (class 1) is the host's (R151). `n` is a
parameter index. -/
inductive CoreError where
  | unknownOpcode (w : Word)
  | truncatedInstruction (w : Word)
  | illegalMode (n : Nat) (w : Word)
  | immediateWriteTarget (n : Nat) (raw : Word)
  | negativeAddress (n : Nat) (a : Word)
  | inputEndOfStream
  | outputConsumerGone (v : Word)
  | runaway (pc : Word)
  | memoryExhausted (n : Nat) (a : Word)
deriving DecidableEq, Repr

/-- The fault record (R16), widths as the rule gives them. -/
structure FaultRecord where
  cause      : BitVec 3
  subcause   : BitVec 2
  faultPc    : Word
  faultIndex : BitVec 2
  faultValue : Word
deriving DecidableEq, Repr

/-- All fields 0: no fault (R16, R26). -/
def FaultRecord.none : FaultRecord :=
  { cause := 0, subcause := 0, faultPc := 0, faultIndex := 0, faultValue := 0 }

namespace CoreError

/-- `CAUSE` (R150). -/
def cause : CoreError → BitVec 3
  | .unknownOpcode _ => 2
  | .truncatedInstruction _ => 2
  | .illegalMode _ _ => 2
  | .immediateWriteTarget _ _ => 3
  | .negativeAddress _ _ => 3
  | .inputEndOfStream => 4
  | .outputConsumerGone _ => 4
  | .runaway _ => 5
  | .memoryExhausted _ _ => 6

/-- `SUBCAUSE` (R150). -/
def subcause : CoreError → BitVec 2
  | .unknownOpcode _ => 1
  | .truncatedInstruction _ => 2
  | .illegalMode _ _ => 3
  | .immediateWriteTarget _ _ => 1
  | .negativeAddress _ _ => 2
  | .inputEndOfStream => 1
  | .outputConsumerGone _ => 2
  | .runaway _ => 0
  | .memoryExhausted _ _ => 1

/-- `FAULT_INDEX` (R150). -/
def index : CoreError → BitVec 2
  | .unknownOpcode _ => 0
  | .truncatedInstruction _ => 0
  | .illegalMode n _ => BitVec.ofNat 2 n
  | .immediateWriteTarget n _ => BitVec.ofNat 2 n
  | .negativeAddress n _ => BitVec.ofNat 2 n
  | .inputEndOfStream => 0
  | .outputConsumerGone _ => 0
  | .runaway _ => 0
  | .memoryExhausted n _ => BitVec.ofNat 2 n

/-- `FAULT_VALUE` (R150). -/
def value : CoreError → Word
  | .unknownOpcode w => w
  | .truncatedInstruction w => w
  | .illegalMode _ w => w
  | .immediateWriteTarget _ raw => raw
  | .negativeAddress _ a => a
  | .inputEndOfStream => 0
  | .outputConsumerGone v => v
  | .runaway pc => pc
  | .memoryExhausted _ a => a

/-- The record a raise writes; `pc` is `PC` at the start of the step (R150, R166). -/
def record (e : CoreError) (pc : Word) : FaultRecord :=
  { cause := e.cause, subcause := e.subcause, faultPc := pc, faultIndex := e.index, faultValue := e.value }

/-- The error of a rejected fetch at `pc` (R60, R64 to R68, R75 steps 1 to 4). -/
def ofReject (pc : Word) : Reject → CoreError
  | .noWord => .runaway pc
  | .unknownOpcode w => .unknownOpcode w
  | .truncatedInstruction w => .truncatedInstruction w
  | .illegalMode n w => .illegalMode n w

end CoreError

end Sys2Proof.Machine
end

