-- ==== Sys2Proof/Machine/Queue.lean ====
section
/-! DEFINITION. The FIFO queue and its operations (R20, R120 to R124). -/

namespace Sys2Proof.Machine

/-- A queue: `ITEMS` head first, `PROD_CLOSED`, `CONS_GONE` (R20). -/
structure Queue where
  items      : List Word
  prodClosed : Bool
  consGone   : Bool
deriving DecidableEq, Repr

/-- The outcome of `pop` (R122). -/
inductive PopResult where
  | got (v : Word) (q : Queue)
  | endOfStream
  | blocked
deriving DecidableEq, Repr

/-- The outcome of `push` (R121). -/
inductive PushResult where
  | pushed (q : Queue)
  | gone
  | blocked
deriving DecidableEq, Repr

namespace Queue

/-- An empty queue with both ends attached. -/
def fresh : Queue := { items := [], prodClosed := false, consGone := false }

/-- `|ITEMS| < QDEPTH`; `none` is an unbounded queue (R96, R120, R121). -/
def hasRoom (qdepth : Option Nat) (q : Queue) : Bool :=
  match qdepth with
  | some d => decide (q.items.length < d)
  | none => true

/-- `|ITEMS| ≤ QDEPTH` (R120). -/
def fits (qdepth : Option Nat) (q : Queue) : Bool :=
  match qdepth with
  | some d => decide (q.items.length ≤ d)
  | none => true

/-- `push(Q, v)` (R121): `CONS_GONE` is tested first. -/
def push (qdepth : Option Nat) (q : Queue) (v : Word) : PushResult :=
  if q.consGone then .gone
  else if q.hasRoom qdepth then .pushed { q with items := q.items ++ [v] }
  else .blocked

/-- `pop(Q)` (R122): items come before end-of-stream. -/
def pop (q : Queue) : PopResult :=
  match q.items with
  | v :: rest => .got v { q with items := rest }
  | [] => if q.prodClosed then .endOfStream else .blocked

/-- `PROD_CLOSED <- 1` (R123). -/
def closeProd (q : Queue) : Queue := { q with prodClosed := true }

/-- `CONS_GONE <- 1` (R123). -/
def abandon (q : Queue) : Queue := { q with consGone := true }

end Queue

end Sys2Proof.Machine
end

