-- ==== Sys2Proof/Machine/Tape.lean ====
section
/-! DEFINITION. The growable tape of one core (R14, R40 to R45) and its two accesses. Sparse: a list of (address, word)
in one canonical form (log 1). -/

namespace Sys2Proof.Machine

/-- One word of memory at an address. The smallest addressable unit is the 64-bit word (R40, R48). -/
abbrev Cell := Nat × Word

/-- `LEN` and the words below it that are not 0; every unlisted address reads as 0 (R14 total view, R41, R45). -/
structure Tape where
  len   : Nat
  cells : List Cell
deriving DecidableEq, Repr

/-- What an unlisted address reads as: 0 (R14, R26 "read as 0", R41). -/
def unlistedWord : Word := 0

/-- The word listed at `a`. -/
def cellsRead : List Cell → Nat → Word
  | [], _ => unlistedWord
  | (b, w) :: rest, a => if b = a then w else cellsRead rest a

/-- List `v` at `a`, keeping addresses rising. -/
def cellsInsert : List Cell → Nat → Word → List Cell
  | [], a, v => [(a, v)]
  | (b, w) :: rest, a, v =>
    if a < b then (a, v) :: (b, w) :: rest
    else if a = b then (a, v) :: rest
    else (b, w) :: cellsInsert rest a v

/-- Set the word at `a`: the value an unlisted address reads as removes the entry. -/
def cellsPut (cells : List Cell) (a : Nat) (v : Word) : List Cell :=
  if v = unlistedWord then cells.filter (fun c => c.1 != a) else cellsInsert cells a v

/-- Addresses strictly rising from `lo`, below `hi`, and no entry equal to what an unlisted address reads as. -/
def cellsCanonical (lo hi : Nat) : List Cell → Bool
  | [] => true
  | (a, v) :: rest => decide (lo ≤ a) && decide (a < hi) && decide (v ≠ unlistedWord) && cellsCanonical (a + 1) hi rest

/-- The listing of an image from address `a` on. -/
def imageCells : Nat → List Word → List Cell
  | _, [] => []
  | a, v :: rest => if v = unlistedWord then imageCells (a + 1) rest else (a, v) :: imageCells (a + 1) rest

namespace Tape

/-- The canonical form: equal tapes are equal data. -/
def wf (t : Tape) : Bool := cellsCanonical 0 t.len t.cells

/-- The tape after reset: "initial contents = the program" (R14, R26). -/
def ofImage (img : List Word) : Tape := { len := img.length, cells := imageCells 0 img }

/-- `MemRead(a, 1)` for `a ≥ 0` (R41): 0 at or beyond `LEN`; nothing changes. -/
def read (t : Tape) (a : Nat) : Word := if a < t.len then cellsRead t.cells a else 0

/-- `MemWrite(a, 1, v)` for `0 ≤ a < MAXLEN` (R42): at or beyond `LEN` the gap is filled with 0 and `LEN` becomes
`a + 1`. -/
def write (t : Tape) (a : Nat) (v : Word) : Tape :=
  if a < t.len then { t with cells := cellsPut t.cells a v }
  else { len := a + 1, cells := cellsPut (t.cells.filter (fun c => decide (c.1 < t.len))) a v }

/-- The existing words at `a, a+1, …`, at most `n` of them (`Fetch`, R60, R69: only below `LEN`). -/
def wordsFrom (t : Tape) (a : Nat) : Nat → List Word
  | 0 => []
  | n + 1 => if a < t.len then t.read a :: t.wordsFrom (a + 1) n else []

end Tape

end Sys2Proof.Machine
end

