-- ==== Sys2Proof/Machine/Boot.lean ====
section
/-! DEFINITION. One core's state (R10 to R16), and what reset builds from a configuration: the cores and the seeded
queues (R26, R126, R127, R138). -/

namespace Sys2Proof.Machine

/-- `STATUS` (R15). -/
inductive Status where
  | run
  | halted
  | faulted
deriving DecidableEq, Repr

/-- The code of a status in its 2-bit register (R15). -/
def Status.code : Status → BitVec 2
  | .run => 0
  | .halted => 1
  | .faulted => 2

/-- One core: `PC`, `RB`, `MEM` with `LEN`, `STATUS`, fault record (R11 to R16). There is no other register (R10, R13,
R19). -/
structure CoreState where
  pc     : Word
  rb     : Word
  tape   : Tape
  status : Status
  fault  : FaultRecord
deriving DecidableEq, Repr

/-- A core after reset (R26). -/
def CoreState.boot (img : List Word) : CoreState :=
  { pc := 0, rb := 0, tape := Tape.ofImage img, status := .run, fault := FaultRecord.none }

namespace Boot

/-- Every core of the configuration after reset (R26). -/
def cores (c : Config) : List CoreState := c.images.map CoreState.boot

/-- The queues `Q[1] … Q[K−1]`, seeded with one phase each (R126). -/
def phaseQueues (phases : List Word) : List Queue := phases.map (fun p => { Queue.fresh with items := [p] })

/-- `Q[0]` of a network: `PHASE[0]`, then `STIMULUS`, in both topologies; closed at reset iff LINEAR (R126, R127). -/
def firstQueue (t : Topology) (phase0 : List Word) (stimulus : Word) : Queue :=
  { items := phase0 ++ [stimulus], prodClosed := decide (t = .linear), consGone := false }

/-- `Q[0] … Q[K]` after reset (R126, R127); standalone `INQ` and `OUTQ` (R138). -/
def queues (c : Config) : List Queue :=
  match c.wiring with
  | .network t phase stimulus =>
    firstQueue t (phase.take 1) stimulus :: (phaseQueues (phase.drop 1) ++ [Queue.fresh])
  | .standalone inq closed => [{ items := inq, prodClosed := closed, consGone := false }, Queue.fresh]

/-- The host, every core in order, the forwarder: the model's schedule for a configuration (log 4). -/
def roundRobin (c : Config) : List Agent := .host :: ((List.range c.k).map .core ++ [.forwarder])

end Boot

end Sys2Proof.Machine
end

