-- ==== Sys2Proof/Machine/State.lean ====
section
/-! DEFINITION. The state of the whole hardware (R10 to R22), the model's own fields beside it, the reasons a step can
stop, and the state after reset (R26, R181). -/

namespace Sys2Proof.Machine

/-- The model's own fields, no state of the hardware: what the outside world will do, and has got (log 4, log 6). -/
structure Env where
  /-- The agents in the order they get their turns, used cyclically; where it is empty the turn is a free value. -/
  sched    : List Agent
  /-- How many free turns have been taken. -/
  tick     : Nat
  /-- The host's pending actions, oldest first. -/
  hostActs : List HostAct
  /-- The values the host has drained from a standalone `OUTQ`, oldest first (R139 "output values in order"). -/
  hostGot  : List Word
deriving DecidableEq, Repr

/-- The hardware. `cores` is in core order, `queues` is `Q[0] … Q[K]`; core `i` has `INQ = Q[i]`, `OUTQ = Q[i+1]`
(R17, R125). -/
structure State where
  /-- The parameters (R6, R24), held here so that a claim about every state is one about every configuration (log 2). -/
  cfg            : Config
  cores          : List CoreState
  queues         : List Queue
  /-- `TAP` (R21): meaningless while `tapValid` is false. -/
  tap            : Word
  tapValid       : Bool
  fwdDone        : Bool
  runEn          : Bool
  firstFailValid : Bool
  /-- `FIRST_FAIL_ID` (R21): meaningless while `firstFailValid` is false. -/
  firstFailId    : Nat
  /-- The model's own: the core whose step is being taken (log 4). -/
  cur            : Nat
  env            : Env
deriving DecidableEq, Repr

/-- Reasons a step stops. An error of the spec is none of them: it is a next state (R166). -/
inductive Fault where
  /-- Raised by `step` when no agent has an enabled step and the host has nothing pending ("stuck", U15, R137, R189); which
  end that is, `State.endOf` says. Safe: the machine has no successor there. -/
  | stuck
deriving DecidableEq, Repr

/-- Reasons a step is outside the model. -/
inductive Refusal where
  /-- Raised by `exec` for an instruction that has no meaning yet. Safe. -/
  | notModelled (mnemonic : String)
  /-- Raised by `step` for a pending host action that the host contract forbids in this state (U17, R139). Safe. -/
  | hostContract
  /-- Raised by `step` for a host reset with a configuration outside the parameter ranges (U16). Safe. -/
  | badConfig
deriving DecidableEq, Repr

namespace State

/-- The state after a reset with configuration `c` (R26, R181); `tap` and `failId` are the two unspecified values. -/
def resetOf (c : Config) (tap : Word) (failId : Nat) (env : Env) : State :=
  { cfg := c, cores := Boot.cores c, queues := Boot.queues c, tap := tap, tapValid := false, fwdDone := false,
    runEn := false, firstFailValid := false, firstFailId := failId, cur := 0, env := env }

/-- The machine right after reset, with the configuration `Config.vectors` (log 3) and the two unspecified values at 0
(log 5); the host is about to start it (log 6). -/
def reset : State :=
  resetOf Config.vectors 0 0
    { sched := Boot.roundRobin Config.vectors, tick := 0, hostActs := [.start], hostGot := [] }

end State

end Sys2Proof.Machine
end

