-- ==== Sys2Proof/WellFormed.lean ====
section
/-! DEFINITION. Which instructions an assembler may write (R80, R83) and which configurations the hardware may be reset
with (R6, 92_eei_decisions.md section 1, U2, U16). -/

namespace Sys2Proof

/-- "`d` must not be `#v`" (R80): a write target is not immediate. The machine still decodes and runs the other form;
it raises `ImmediateWriteTarget` (R71, R155). -/
def Instr.wellFormed (i : Instr) : Bool :=
  match i.writeTarget? with
  | some d => d.mode != .immediate
  | none => true

namespace Config

/-- The parameter ranges of the wiring: one phase for each core in a network; one core, and an initial `INQ` that fits
its queue, standalone (R6, R120, R126, R138). -/
def wiringValid (c : Config) : Bool :=
  match c.wiring with
  | .network _ phase _ => phase.length == c.k
  | .standalone inq _ =>
    c.k == 1 && (match c.qdepth with | some q => decide (inq.length ≤ q) | none => true)

/-- `K ≥ 1`; `1 ≤ MAXLEN ≤ 2^63−1`; `QDEPTH ≥ 2` or unbounded; `N_i ≤ MAXLEN` (R6, U2, U16). -/
def valid (c : Config) : Bool :=
  decide (1 ≤ c.k) && decide (1 ≤ c.maxlen) && decide (c.maxlen ≤ 2 ^ 63 - 1)
    && (match c.qdepth with | some q => decide (2 ≤ q) | none => true)
    && c.images.all (fun img => decide (img.length ≤ c.maxlen))
    && c.wiringValid

end Config

end Sys2Proof
end

