-- ==== Sys2Proof/Machine/Ops.lean ====
section
/-! DEFINITION. The named operations over the state: the current core, its two queues, the tape store, the advance of
`PC`, termination (R130), and raising an error (R166). There is no return from an error (R168), so no operation for
one. -/

namespace Sys2Proof.Machine

/-- What a reference to a core or queue that does not exist yields: a core that takes no step. No step of an existing
agent reaches it. -/
def CoreState.absent : CoreState :=
  { pc := 0, rb := 0, tape := { len := 0, cells := [] }, status := .halted, fault := FaultRecord.none }

namespace State

def coreAt (s : State) (i : Nat) : CoreState := s.cores.getD i CoreState.absent

/-- `Q[j]`. -/
def queueAt (s : State) (j : Nat) : Queue := s.queues.getD j Queue.fresh

def setQueue (s : State) (j : Nat) (q : Queue) : State := { s with queues := s.queues.set j q }

/-- The core whose step is being taken. -/
def core (s : State) : CoreState := s.coreAt s.cur

def setCore (s : State) (c : CoreState) : State := { s with cores := s.cores.set s.cur c }

/-- `INQ = Q[i]` (R125). -/
def inq (s : State) : Queue := s.queueAt s.cur

/-- `OUTQ = Q[i+1]` (R125). -/
def outq (s : State) : Queue := s.queueAt (s.cur + 1)

def setInq (s : State) (q : Queue) : State := s.setQueue s.cur q

def setOutq (s : State) (q : Queue) : State := s.setQueue (s.cur + 1) q

/-- `MemWrite(a, 1, v)` on the current core's tape (R42). -/
def store (s : State) (a : Nat) (v : Word) : State := s.setCore { s.core with tape := s.core.tape.write a v }

/-- `pc <- target` (R8). -/
def jump (s : State) (target : Word) : State := s.setCore { s.core with pc := target }

/-- `pc <- PC + n` (R11, R76). -/
def advance (s : State) (n : Nat) : State := s.jump (s.core.pc + BitVec.ofNat 64 n)

/-- `RB <- v` (R12). -/
def setRb (s : State) (v : Word) : State := s.setCore { s.core with rb := v }

/-- What every termination does to the core's queues: `OUTQ.PROD_CLOSED <- 1`, `INQ.CONS_GONE <- 1` (R130). -/
def closePorts (s : State) : State :=
  let s1 := s.setOutq s.outq.closeProd
  s1.setInq s1.inq.abandon

/-- `FIRST_FAIL` latches the first core to fault (R133). -/
def latchFail (s : State) : State :=
  if s.firstFailValid then s else { s with firstFailValid := true, firstFailId := s.cur }

/-- `raise e`: error entry (R166). The record is written, `STATUS` becomes `FAULTED`, the queue ends are closed, the
first failure is latched; nothing else changes. -/
def raise (s : State) (e : CoreError) : State :=
  ((s.setCore { s.core with status := .faulted, fault := e.record s.core.pc }).closePorts).latchFail

/-- Entering `HALTED` (R111). -/
def halt (s : State) : State := (s.setCore { s.core with status := .halted }).closePorts

end State

end Sys2Proof.Machine
end

