-- ==== Sys2Proof/Machine/Operands.lean ====
section
/-! DEFINITION. The three-mode addressing resolver (R69 to R74): source operands and write targets. -/

namespace Sys2Proof.Machine

/-- The address a parameter names: the raw word, or `wrap64(RB + raw)` (R70, R71, R73). For an immediate parameter it is
not used. -/
def effectiveAddress (rb : Word) (p : Param) : Word :=
  match p.mode with
  | .positional => p.raw
  | .immediate => p.raw
  | .relative => wrap64 (rb.toInt + p.raw.toInt)

/-- The load of a source operand at an address (R70): a negative address fails, the rest goes through `MemRead`. -/
def loadOperand (n : Nat) (a : Word) (t : Tape) : Except CoreError Word :=
  if a.toInt < 0 then .error (.negativeAddress n a) else .ok (t.read a.toNat)

/-- `Resolve_R(n)` (R70). -/
def resolveR (n : Nat) (p : Param) (c : CoreState) : Except CoreError Word :=
  match p.mode with
  | .positional => loadOperand n (effectiveAddress c.rb p) c.tape
  | .immediate => .ok p.raw
  | .relative => loadOperand n (effectiveAddress c.rb p) c.tape

/-- The test of a write target's address (R71, R74): negative, then `≥ MAXLEN`. -/
def checkTarget (n : Nat) (a : Word) (maxlen : Nat) : Except CoreError Nat :=
  if a.toInt < 0 then .error (.negativeAddress n a)
  else if maxlen ≤ a.toNat then .error (.memoryExhausted n a)
  else .ok a.toNat

/-- `Resolve_W(n)` (R71): immediate mode is an error; the word at the target is not read. -/
def resolveW (n : Nat) (p : Param) (maxlen : Nat) (c : CoreState) : Except CoreError Nat :=
  match p.mode with
  | .positional => checkTarget n (effectiveAddress c.rb p) maxlen
  | .immediate => .error (.immediateWriteTarget n p.raw)
  | .relative => checkTarget n (effectiveAddress c.rb p) maxlen

namespace State

/-- Source operand `n` of the current core. -/
def source (s : State) (n : Nat) (p : Param) : Except CoreError Word := resolveR n p s.core

/-- Write target `n` of the current core. -/
def target (s : State) (n : Nat) (p : Param) : Except CoreError Nat := resolveW n p s.cfg.maxlen s.core

end State

end Sys2Proof.Machine
end

