-- ==== Sys2Proof/Machine/Arithmetic.lean ====
section
/-! DEFINITION. Format `RRW` (R62), and ADD and MUL (R90, R91). -/

namespace Sys2Proof.Machine

/-- An instruction of format `RRW`: parameters resolved in index order, the first error ends the step (R72, R75); then
`MemWrite(dst_3, 1, f(op_1, op_2))` and `pc <- PC + 4`. -/
def execRRW (f : Word → Word → Word) (a b d : Param) (s : State) : Host.Outcome State Fault Refusal :=
  match s.source 1 a with
  | .error e => .next (s.raise e)
  | .ok x =>
    match s.source 2 b with
    | .error e => .next (s.raise e)
    | .ok y =>
      match s.target 3 d with
      | .error e => .next (s.raise e)
      | .ok t => .next ((s.store t (f x y)).advance 4)

/-- ADD (R90). -/
def execAdd (a b d : Param) (s : State) : Host.Outcome State Fault Refusal := execRRW aluAdd a b d s

/-- MUL (R91). -/
def execMul (a b d : Param) (s : State) : Host.Outcome State Fault Refusal := execRRW aluMul a b d s

end Sys2Proof.Machine
end

