-- ==== Sys2Proof/Machine/BaseHalt.lean ====
section
/-! DEFINITION. ARB and HLT (R110, R111). -/

namespace Sys2Proof.Machine

/-- ARB (R110): the operand is read with the old `RB`; all three modes are legal. -/
def execArb (a : Param) (s : State) : Host.Outcome State Fault Refusal :=
  match s.source 1 a with
  | .error e => .next (s.raise e)
  | .ok x => .next ((s.setRb (aluAdd s.core.rb x)).advance 2)

/-- HLT (R111): `PC` stays at the HLT word. -/
def execHlt (s : State) : Host.Outcome State Fault Refusal := .next s.halt

end Sys2Proof.Machine
end

