-- ==== Sys2Proof/Machine/Compare.lean ====
section
/-! DEFINITION. LT and EQ (R105, R106). -/

namespace Sys2Proof.Machine

/-- LT (R105). -/
def execLt (a b d : Param) (s : State) : Host.Outcome State Fault Refusal := execRRW aluLess a b d s

/-- EQ (R106). -/
def execEq (a b d : Param) (s : State) : Host.Outcome State Fault Refusal := execRRW aluEqual a b d s

end Sys2Proof.Machine
end

