-- ==== Sys2Proof/Machine/InputOutput.lean ====
section
/-! DEFINITION. IN and OUT (R95, R96). A blocked instruction changes nothing: it is tried again at the core's next
turn (R8 `blocked`, R175). -/

namespace Sys2Proof.Machine

/-- IN (R95): the target is checked before the queue is looked at (R74, D12). -/
def execInp (d : Param) (s : State) : Host.Outcome State Fault Refusal :=
  match s.target 1 d with
  | .error e => .next (s.raise e)
  | .ok t =>
    match s.inq.pop with
    | .got v q => .next (((s.setInq q).store t v).advance 2)
    | .endOfStream => .next (s.raise .inputEndOfStream)
    | .blocked => .next s

/-- OUT (R96). -/
def execOut (a : Param) (s : State) : Host.Outcome State Fault Refusal :=
  match s.source 1 a with
  | .error e => .next (s.raise e)
  | .ok x =>
    match s.outq.push s.cfg.qdepth x with
    | .pushed q => .next ((s.setOutq q).advance 2)
    | .gone => .next (s.raise (.outputConsumerGone x))
    | .blocked => .next s

/-- Whether the instruction waits in this state: IN on an empty open queue, OUT on a full queue with a live consumer;
only after its operand has been found good (R75 step 6, R95, R96, D26). -/
def waits (i : Instr) (s : State) : Bool :=
  match i with
  | .inp d =>
    match s.target 1 d with
    | .error _ => false
    | .ok _ => decide (s.inq.pop = .blocked)
  | .out a =>
    match s.source 1 a with
    | .error _ => false
    | .ok x => decide (s.outq.push s.cfg.qdepth x = .blocked)
  | .add _ _ _ => false
  | .mul _ _ _ => false
  | .jnz _ _ => false
  | .jz _ _ => false
  | .lt _ _ _ => false
  | .eq _ _ _ => false
  | .arb _ => false
  | .hlt => false

end Sys2Proof.Machine
end

