-- ==== Sys2Proof/Machine/Jump.lean ====
section
/-! DEFINITION. JNZ and JZ (R100 to R102). -/

namespace Sys2Proof.Machine

/-- Both operands are resolved, taken or not (R72); a taken jump to a negative target raises at the jump (R102). -/
def execJumpIf (takes : Word → Bool) (a t : Param) (s : State) : Host.Outcome State Fault Refusal :=
  match s.source 1 a with
  | .error e => .next (s.raise e)
  | .ok x =>
    match s.source 2 t with
    | .error e => .next (s.raise e)
    | .ok y =>
      if takes x then
        if y.toInt < 0 then .next (s.raise (.negativeAddress 2 y)) else .next (s.jump y)
      else .next (s.advance 3)

/-- JNZ (R100). -/
def execJnz (a t : Param) (s : State) : Host.Outcome State Fault Refusal := execJumpIf (fun x => !isZero x) a t s

/-- JZ (R101). -/
def execJz (a t : Param) (s : State) : Host.Outcome State Fault Refusal := execJumpIf isZero a t s

end Sys2Proof.Machine
end

