-- ==== Sys2Proof/Machine/Fetch.lean ====
section
/-! DEFINITION. Fetching and decoding the current core's next instruction (R60, R75 steps 1 to 4), and when a core's step
is enabled (R75 step 0). -/

namespace Sys2Proof.Machine

/-- The words from `PC` on that exist, at most the four of the longest instruction (R60, R62, R68). -/
def fetchWords (c : CoreState) : List Word := c.tape.wordsFrom c.pc.toNat 4

/-- Steps 1 to 4 of R75. -/
def fetchDecode (c : CoreState) : Except CoreError Instr :=
  match decode (fetchWords c) with
  | .ok i => .ok i
  | .error r => .error (CoreError.ofReject c.pc r)

/-- The state in which core `i` is the current one. -/
def State.atCore (s : State) (i : Nat) : State := { s with cur := i }

/-- The current core waits at an IN or OUT (R95, R96). -/
def coreWaits (s : State) : Bool :=
  match fetchDecode s.core with
  | .ok i => waits i s
  | .error _ => false

/-- Core `i` has a step: it exists, `RUN_EN = 1`, `STATUS = RUN`, and it does not wait (R75 step 0, R131). -/
def coreEnabled (s : State) (i : Nat) : Bool :=
  decide (i < s.cores.length) && s.runEn && decide ((s.coreAt i).status = .run) && !coreWaits (s.atCore i)

end Sys2Proof.Machine
end

