-- ==== Sys2Proof/Machine/Forwarder.lean ====
section
/-! DEFINITION. The forwarder and the tap (R128, R129). In the standalone configuration there is none (R138). -/

namespace Sys2Proof.Machine

/-- `Q[K]`'s index. -/
def State.lastQueue (s : State) : Nat := s.cfg.k

/-- The forwarder exists, is started, and has not finished. -/
def forwarderLive (s : State) : Bool := !s.cfg.isStandalone && s.runEn && !s.fwdDone

/-- Whether a value may leave `Q[K]`: LINEAR, or core 0 gone, or room in `Q[0]` (R128). -/
def forwarderMayPass (s : State) : Bool :=
  !s.cfg.isFeedback || (s.queueAt 0).consGone || (s.queueAt 0).hasRoom s.cfg.qdepth

/-- Delivery into `Q[0]` of a FEEDBACK network; dropped if core 0 has gone (R128). -/
def deliver (s : State) (v : Word) : State :=
  if s.cfg.isFeedback then
    match (s.queueAt 0).push s.cfg.qdepth v with
    | .pushed q => s.setQueue 0 q
    | .gone => s
    | .blocked => s
  else s

/-- The transfer step (R128). -/
def transfer (s : State) (v : Word) (q : Queue) : State :=
  deliver { s.setQueue s.lastQueue q with tap := v, tapValid := true } v

/-- The finishing step (R129). -/
def forwarderFinish (s : State) : State :=
  let s1 := if s.cfg.isFeedback then s.setQueue 0 (s.queueAt 0).closeProd else s
  { s1.setQueue s1.lastQueue (s1.queueAt s1.lastQueue).abandon with fwdDone := true }

/-- The forwarder's step, `none` where it has none. -/
def forwarderStep (s : State) : Option State :=
  if forwarderLive s then
    match (s.queueAt s.lastQueue).pop with
    | .got v q => if forwarderMayPass s then some (transfer s v q) else none
    | .endOfStream => some (forwarderFinish s)
    | .blocked => none
  else none

end Sys2Proof.Machine
end

