-- ==== Sys2Proof/Machine/HostPort.lean ====
section
/-! DEFINITION. What the host does (R131, R138, R139, R180, R184). A pending action the contract forbids is refused
(U17); an action that has to wait for a queue stays pending. -/

namespace Sys2Proof.Machine

/-- The outcome of the host's oldest pending action. -/
inductive HostResult where
  | done (s : State)
  | waits
  | refused (r : Refusal)
deriving DecidableEq, Repr

/-- The action is taken or refused, it does not wait. -/
def HostResult.acts : HostResult → Bool
  | .done _ => true
  | .waits => false
  | .refused _ => true

/-- A reset of everything with a configuration (R180); the world outside (`env`) goes on as it was. -/
def hostReset (c : Config) (tap : Word) (failId : Nat) (s : State) : HostResult :=
  if c.valid then .done (State.resetOf c tap failId s.env) else .refused .badConfig

/-- Start, once (R131, R139). -/
def hostStart (s : State) : HostResult :=
  if s.runEn then .refused .hostContract else .done { s with runEn := true }

/-- `push` on a standalone `INQ`; never after closing (R138, R139). A push the consumer's going makes fail leaves the queue
as it is (R121). -/
def hostFeed (v : Word) (s : State) : HostResult :=
  if s.cfg.isStandalone && !(s.queueAt 0).prodClosed then
    match (s.queueAt 0).push s.cfg.qdepth v with
    | .pushed q => .done (s.setQueue 0 q)
    | .gone => .done s
    | .blocked => .waits
  else .refused .hostContract

/-- Close a standalone `INQ`, once (R138). -/
def hostCloseInput (s : State) : HostResult :=
  if s.cfg.isStandalone && !(s.queueAt 0).prodClosed then .done (s.setQueue 0 (s.queueAt 0).closeProd)
  else .refused .hostContract

/-- `pop` of a standalone `OUTQ`, never after abandoning it (R20, R138). -/
def hostDrain (s : State) : HostResult :=
  if s.cfg.isStandalone && !(s.queueAt 1).consGone then
    match (s.queueAt 1).pop with
    | .got v q => .done { s.setQueue 1 q with env := { s.env with hostGot := s.env.hostGot ++ [v] } }
    | .endOfStream => .done s
    | .blocked => .waits
  else .refused .hostContract

/-- Abandon a standalone `OUTQ`, once (R138). -/
def hostAbandonOutput (s : State) : HostResult :=
  if s.cfg.isStandalone && !(s.queueAt 1).consGone then .done (s.setQueue 1 (s.queueAt 1).abandon)
  else .refused .hostContract

/-- One host action (R138, R139). -/
def hostDo (h : HostAct) (s : State) : HostResult :=
  match h with
  | .reset c tap failId => hostReset c tap failId s
  | .start => hostStart s
  | .feed v => hostFeed v s
  | .closeInput => hostCloseInput s
  | .drain => hostDrain s
  | .abandonOutput => hostAbandonOutput s

/-- The state with the oldest pending action taken off the list. -/
def State.dropHostAct (s : State) : State := { s with env := { s.env with hostActs := s.env.hostActs.tail } }

/-- The host's step: its oldest pending action, taken off the list once done. -/
def hostStep (s : State) : HostResult :=
  match s.env.hostActs with
  | [] => .waits
  | h :: _ => hostDo h s.dropHostAct

end Sys2Proof.Machine
end

