-- ==== Sys2Proof/Machine/Observe.lean ====
section
/-! DEFINITION. What the host reads (R131, R132, R139), which agents are enabled (R134, R137), and whose turn it is. -/

namespace Sys2Proof.Machine

/-- The four states of a network (R131). -/
inductive NetState where
  | seeded
  | running
  | drained
  | failed
deriving DecidableEq, Repr

namespace State

def anyFaulted (s : State) : Bool := s.cores.any (fun c => decide (c.status = .faulted))

def allHalted (s : State) : Bool := s.cores.all (fun c => decide (c.status = .halted))

def allTerminated (s : State) : Bool := s.cores.all (fun c => decide (c.status ≠ .run))

/-- `NET_STATE`, a function of the stored state (R22, R131). -/
def netState (s : State) : NetState :=
  if !s.runEn then .seeded
  else if s.anyFaulted then .failed
  else if s.allHalted && s.fwdDone then .drained
  else .running

/-- `RESULT`: `TAP`, only of a drained network whose tap has seen a value (R132, D33). -/
def result (s : State) : Option Word :=
  if decide (s.netState = .drained) && s.tapValid then some s.tap else none

/-- The agent has an enabled step (R134). For the host: it has an action pending that need not wait. -/
def enabled (s : State) : Agent → Bool
  | .core i => coreEnabled s i
  | .forwarder => (forwarderStep s).isSome
  | .host => (hostStep s).acts

/-- Some agent has an enabled step. -/
def anyEnabled (s : State) : Bool :=
  s.enabled .host || s.enabled .forwarder || (List.range s.cores.length).any (fun i => s.enabled (.core i))

/-- No core and no forwarder has an enabled step. -/
def quiet (s : State) : Bool :=
  !s.enabled .forwarder && (List.range s.cores.length).all (fun i => !s.enabled (.core i))

/-- The end of a network that failed: every core terminated, the forwarder finished (R137). -/
def failedEnd (s : State) : Bool := decide (s.netState = .failed) && s.allTerminated && s.fwdDone

/-- A deadlocked network (R137). DEDUCED, the model's choice (log 13): the host counts as an agent with an enabled step by
what the contract lets it do, not by what it has pending, and a reset does not count. So a `Seeded` network is not
deadlocked (the host may start it, R139), a started one has no step of the host to wait for, and a deadlock is one also
where a reset is pending (R180 resets a deadlock). A standalone core is never deadlocked: the host may always unblock it
(R138; log 9). -/
def deadlocked (s : State) : Bool :=
  !s.cfg.isStandalone && s.runEn && s.quiet && decide (s.netState ≠ .drained) && !s.failedEnd

/-- Whose turn it is: the head of the schedule; with an empty schedule any agent (R134, `Config.freeAgent`). -/
def nextAgent (s : State) : Agent :=
  match s.env.sched with
  | a :: _ => a
  | [] => Config.freeAgent s.env.tick

/-- The turn passes on: the schedule goes round, or the free choice is counted. -/
def passTurn (s : State) : State :=
  match s.env.sched with
  | a :: rest => { s with env := { s.env with sched := rest ++ [a] } }
  | [] => { s with env := { s.env with tick := s.env.tick + 1 } }

end State

/-- The schedule that gives the next turn to core `i`. -/
def schedFront (i : Nat) (sched : List Agent) : List Agent :=
  if sched.head? = some (.core i) then sched else .core i :: sched

/-- The core that `withFetchWord` prepares: the one whose turn it is, else core 0. -/
def fetchCore (s : State) : Nat :=
  match s.env.sched with
  | .core i :: _ => i
  | .forwarder :: _ => 0
  | .host :: _ => 0
  | [] => 0

/-- The words laid at `a`, `a+1`, …. -/
def Tape.lay (t : Tape) (a : Nat) : List Word → Tape
  | [] => t
  | w :: rest => (t.write a w).lay (a + 1) rest

/-- The host's pending actions without the start, which `placeWords` has done. -/
def withoutStart (acts : List HostAct) : List HostAct := acts.filter (fun h => decide (h ≠ .start))

/-- The state with a program's words laid at the core's `PC`, that core running, the hardware started and that core's turn
next. -/
def placeWords (s : State) (ws : List Word) : State :=
  let s1 := s.atCore (fetchCore s)
  let s2 := s1.setCore { s1.core with tape := s1.core.tape.lay s1.core.pc.toNat ws, status := .run }
  { s2 with
    cur := s.cur
    runEn := true
    env := { s.env with sched := schedFront (fetchCore s) s.env.sched, hostActs := withoutStart s.env.hostActs } }

end Sys2Proof.Machine
end

