-- ==== Sys2Proof/Machine/Turn.lean ====
section
/-! DEFINITION. The step of each agent, and the turn: one step of the agent whose turn it is (R75, R134). -/

namespace Sys2Proof.Machine

/-- One step of the current core (R75). -/
def coreStep (s : State) : Host.Outcome State Fault Refusal :=
  match fetchDecode s.core with
  | .ok i => exec i s
  | .error e => .next (s.raise e)

/-- The step of an enabled agent. -/
def agentStep (a : Agent) (s : State) : Host.Outcome State Fault Refusal :=
  match a with
  | .core i => coreStep (s.atCore i)
  | .forwarder => match forwarderStep s with | some t => .next t | none => .next s
  | .host => match hostStep s with | .done t => .next t | .waits => .next s | .refused r => .refused r

/-- The agent whose turn it is takes its step; an agent without an enabled step lets the turn pass, and nothing changes.
Where no agent has one the machine is stuck (R134, R137, U15; log 8). -/
def takeTurn (s : State) : Host.Outcome State Fault Refusal :=
  if s.enabled s.nextAgent then agentStep s.nextAgent s.passTurn
  else if s.anyEnabled then .next s.passTurn
  else .fault .stuck

end Sys2Proof.Machine
end

