-- ==== Sys2Proof/Machine/Step.lean ====
section
/-! DEFINITION. One step of the hardware, and where a first instruction is laid. -/

namespace Sys2Proof.Machine

/-- One step of the hardware: one turn (R134). -/
def step (s : State) : Host.Outcome State Fault Refusal := takeTurn s

namespace State

/-- `s` with the instruction of `decodeTableWord nbits w` laid where the next step fetches (log 7). -/
def withFetchWord (s : State) (nbits w : Nat) : State := placeWords s (tableWords nbits w)

end State

end Sys2Proof.Machine
end

