-- ==== Sys2Proof/Machine/Run.lean ====
section
/-! DEFINITION. The end of a run, and a run with a step bound (R137, R189). -/

namespace Sys2Proof.Machine

/-- Why a run goes no further. -/
inductive RunEnd where
  /-- A good final state (R189). -/
  | halted
  /-- A fault ended the run (R189). -/
  | faulted
  /-- R137. -/
  | deadlocked
  /-- The model's own (log 13): nothing but the host could go on, and it has nothing pending: a network or core not
  started, or a standalone core blocked at IN or OUT. -/
  | waiting
deriving DecidableEq, Repr

/-- What a run with a step bound answers, with the state it stopped in. -/
inductive RunOutcome where
  | ended (e : RunEnd) (s : State)
  /-- The bound is used up and the run has not ended (R189 "out of fuel"). -/
  | outOfFuel (s : State)
  /-- The host's next pending action is refused (log 10). -/
  | refused (r : Refusal) (s : State)
deriving DecidableEq, Repr

namespace State

/-- A good final state (R189): standalone, `STATUS = HALTED`; network, `NET_STATE = Drained`. -/
def goodFinal (s : State) : Bool :=
  if s.cfg.isStandalone then decide ((s.coreAt 0).status = .halted) else decide (s.netState = .drained)

/-- The run has ended (R189): standalone, `STATUS` is `HALTED` or `FAULTED`; network, `Drained`, or `Failed` with no enabled
step (the host counted as in `deadlocked`, log 13). -/
def runOver (s : State) : Bool :=
  if s.cfg.isStandalone then decide ((s.coreAt 0).status ≠ .run)
  else decide (s.netState = .drained) || (decide (s.netState = .failed) && s.quiet)

/-- A fault ended the run: standalone, `STATUS = FAULTED`; network, as R137 says of `Failed`. -/
def faultedEnd (s : State) : Bool :=
  if s.cfg.isStandalone then decide ((s.coreAt 0).status = .faulted) else s.failedEnd

/-- Why the run stops in this state, `none` where it goes on. A `Failed` network without a step in which some core has not
terminated would be a deadlock (R137) whose run R189 calls ended; no state that meets the invariant is one (log 13). -/
def endOf (s : State) : Option RunEnd :=
  if s.goodFinal then some .halted
  else if s.faultedEnd then some .faulted
  else if s.deadlocked then some .deadlocked
  else if s.anyEnabled then none
  else some .waiting

end State

/-- A run of at most `fuel` steps (R189). The bound counts the model's steps, turns that pass among them (log 13). The
arm of `stuck` is never taken: where `endOf` is `none` some agent has an enabled step. -/
def run (fuel : Nat) (s : State) : RunOutcome :=
  match s.endOf with
  | some e => .ended e s
  | none =>
    match fuel with
    | 0 => .outOfFuel s
    | n + 1 =>
      match step s with
      | .next t => run n t
      | .fault .stuck => .ended .waiting s
      | .refused r => .refused r s

end Sys2Proof.Machine
end

