-- ==== Sys2Proof/Safety.lean ====
section
/-! DEFINITION. The invariant of the hardware's state; what a good end is stands in Machine/Run.lean (R189). -/

namespace Sys2Proof.Machine

/-- A core whose registers hold legal values (R11, R14, R16): `LEN ≤ MAXLEN`, the tape in canonical form, `PC` not
negative, the fault record 0 unless `FAULTED`. -/
def CoreState.legal (maxlen : Nat) (c : CoreState) : Bool :=
  c.tape.wf && decide (c.tape.len ≤ maxlen) && decide (0 ≤ c.pc.toInt)
    && (decide (c.status = .faulted) || decide (c.fault = FaultRecord.none))

/-- A fault record of a faulted core: a class the core can raise (R150, R151), at the `PC` it stopped at (R16, R166). -/
def CoreState.recordLegal (c : CoreState) : Bool :=
  decide (c.status ≠ .faulted)
    || (decide (c.fault.cause ≠ 0) && decide (c.fault.cause ≠ 1) && decide (c.fault.cause ≠ 7)
        && decide (c.fault.faultPc = c.pc))

/-- The invariant of the hardware. -/
structure State.Inv (s : State) : Prop where
  /-- The parameters are in their ranges (R6). -/
  cfgValid : s.cfg.valid = true
  /-- `K` cores (R125). -/
  coreCount : s.cores.length = s.cfg.k
  /-- `K + 1` queues (R125). -/
  queueCount : s.queues.length = s.cfg.k + 1
  /-- Every core's registers are legal. -/
  coresLegal : ∀ i, i < s.cfg.k → (s.coreAt i).legal s.cfg.maxlen = true
  recordsLegal : ∀ i, i < s.cfg.k → (s.coreAt i).recordLegal = true
  /-- `|ITEMS| ≤ QDEPTH` (R120). -/
  queuesFit : ∀ j, j ≤ s.cfg.k → (s.queueAt j).fits s.cfg.qdepth = true
  /-- A core has closed its `OUTQ` exactly if it has terminated (R123, R130). -/
  outClosed : ∀ i, i < s.cfg.k → (s.queueAt (i + 1)).prodClosed = decide ((s.coreAt i).status ≠ .run)
  /-- A core has abandoned its `INQ` exactly if it has terminated (R123, R130). -/
  inGone : ∀ i, i < s.cfg.k → (s.queueAt i).consGone = decide ((s.coreAt i).status ≠ .run)
  /-- In a network `Q[K]` is abandoned exactly if the forwarder has finished (R129). -/
  lastGone : s.cfg.isStandalone = false → (s.queueAt s.cfg.k).consGone = s.fwdDone
  /-- In a FEEDBACK network `Q[0]` is closed exactly if the forwarder has finished (R127, R129). -/
  firstClosedFeedback : s.cfg.isFeedback = true → (s.queueAt 0).prodClosed = s.fwdDone
  /-- In a LINEAR network `Q[0]` is closed from reset on (R127). -/
  firstClosedLinear : s.cfg.isStandalone = false → s.cfg.isFeedback = false → (s.queueAt 0).prodClosed = true
  /-- The forwarder finishes only after the last core, with `Q[K]` empty (R129). -/
  doneAfterLast : s.fwdDone = true → (s.coreAt (s.cfg.k - 1)).status ≠ .run ∧ (s.queueAt s.cfg.k).items = []
  /-- `FIRST_FAIL_VALID` is set exactly if some core has faulted (R133). -/
  failValid : s.firstFailValid = s.anyFaulted
  /-- The latched core is a faulted one (R133). -/
  failIsFaulted : s.firstFailValid = true →
    s.firstFailId < s.cfg.k ∧ (s.coreAt s.firstFailId).status = .faulted
  /-- Before the start nothing has run (R131, R184). -/
  seeded : s.runEn = false →
    (∀ i, i < s.cfg.k → (s.coreAt i).status = .run) ∧ s.tapValid = false ∧ s.fwdDone = false

end Sys2Proof.Machine
end

