-- ==== Sys2Proof/Certificates/Slice0/Obligations.lean ====
section
/-! DEFINITION. The statements for the provers, from the numbered rules of spec/. -/

namespace Sys2Proof.Machine

/-- The current core and its two queues exist (R125). -/
abbrev InPlace (s : State) : Prop := s.cur < s.cores.length ∧ s.cur + 1 < s.queues.length

/-- Everything outside the current core, the queues and the failure latch is as before: the configuration, the tap, the
arbiter's bits, every other core, the model's own fields. -/
def RestKept (s t : State) : Prop :=
  t.cfg = s.cfg ∧ t.tap = s.tap ∧ t.tapValid = s.tapValid ∧ t.fwdDone = s.fwdDone ∧ t.runEn = s.runEn
    ∧ t.cur = s.cur ∧ t.env = s.env ∧ t.cores.length = s.cores.length ∧ t.queues.length = s.queues.length
    ∧ ∀ j, j ≠ s.cur → t.coreAt j = s.coreAt j

/-- The failure latch is as before. -/
def FailKept (s t : State) : Prop := t.firstFailValid = s.firstFailValid ∧ t.firstFailId = s.firstFailId

/-- Every queue is as before. -/
def QueuesKept (s t : State) : Prop := ∀ j, t.queueAt j = s.queueAt j

/-- Every queue but `Q[i]` is as before. -/
def OtherQueuesKept (s t : State) (i : Nat) : Prop := ∀ j, j ≠ i → t.queueAt j = s.queueAt j

/-- `STATUS` and the fault record of the current core are as before. -/
def StatusKept (s t : State) : Prop := t.core.status = s.core.status ∧ t.core.fault = s.core.fault

/-- Every word of the current core's tape, and its length, is as before. -/
def MemoryKept (s t : State) : Prop :=
  t.core.tape.len = s.core.tape.len ∧ ∀ a, t.core.tape.read a = s.core.tape.read a

/-- The current core's tape after `MemWrite(p, 1, v)` (R42): the word, every other address as before, the length. -/
def Stored (s t : State) (p : Nat) (v : Word) : Prop :=
  t.core.tape.read p = v ∧ (∀ a, a ≠ p → t.core.tape.read a = s.core.tape.read a)
    ∧ t.core.tape.len = max s.core.tape.len (p + 1)

/-- `PC` has moved on by `n` words. -/
def Advanced (s t : State) (n : Nat) : Prop := t.core.pc = s.core.pc + BitVec.ofNat 64 n

/-- Mode digit of parameter `n` in word `w` (R61). -/
abbrev HasMode (w : Word) (n : Nat) (m : Mode) : Prop := w.toNat / 10 ^ (n + 1) % 10 = modeDigit m

/-- Every word with opcode `op` and legal mode digits decodes to `mk` of its one parameter (R61, R62, R67). -/
def Decodes1 (op : Nat) (mk : Param → Instr) : Prop :=
  ∀ (w r1 : Word) (rest : List Word) (m1 : Mode), 0 ≤ w.toInt → w.toNat % 100 = op → HasMode w 1 m1 →
    decode (w :: r1 :: rest) = .ok (mk ⟨m1, r1⟩)

/-- The same for two parameters. -/
def Decodes2 (op : Nat) (mk : Param → Param → Instr) : Prop :=
  ∀ (w r1 r2 : Word) (rest : List Word) (m1 m2 : Mode), 0 ≤ w.toInt → w.toNat % 100 = op → HasMode w 1 m1 →
    HasMode w 2 m2 → decode (w :: r1 :: r2 :: rest) = .ok (mk ⟨m1, r1⟩ ⟨m2, r2⟩)

/-- The same for three parameters. -/
def Decodes3 (op : Nat) (mk : Param → Param → Param → Instr) : Prop :=
  ∀ (w r1 r2 r3 : Word) (rest : List Word) (m1 m2 m3 : Mode), 0 ≤ w.toInt → w.toNat % 100 = op → HasMode w 1 m1 →
    HasMode w 2 m2 → HasMode w 3 m3 →
    decode (w :: r1 :: r2 :: r3 :: rest) = .ok (mk ⟨m1, r1⟩ ⟨m2, r2⟩ ⟨m3, r3⟩)

/-- The words of `mk` of one parameter: the canonical word of opcode `op`, the raw word (R62, R77). -/
def Encodes1 (op : Nat) (mk : Param → Instr) : Prop :=
  ∀ a : Param, encode (mk a) = [BitVec.ofNat 64 (op + 100 * modeDigit a.mode), a.raw]

/-- The same for two parameters. -/
def Encodes2 (op : Nat) (mk : Param → Param → Instr) : Prop :=
  ∀ a b : Param, encode (mk a b) =
    [BitVec.ofNat 64 (op + 100 * modeDigit a.mode + 1000 * modeDigit b.mode), a.raw, b.raw]

/-- The same for three parameters. -/
def Encodes3 (op : Nat) (mk : Param → Param → Param → Instr) : Prop :=
  ∀ a b d : Param, encode (mk a b d) =
    [BitVec.ofNat 64 (op + 100 * modeDigit a.mode + 1000 * modeDigit b.mode + 10000 * modeDigit d.mode),
      a.raw, b.raw, d.raw]

/-- An immediate write target never resolves (R71, R155). -/
def ImmediateTargetFails (n : Nat) : Prop :=
  ∀ (s : State) (d : Param), d.mode = .immediate → s.target n d = .error (.immediateWriteTarget n d.raw)

/-- The law of an instruction of format `RRW` with result `f` (R62, R72, R75, R90, R91, R105, R106): its encoding; where
its three parameters resolve, what it does and leaves alone; else the first parameter's error ends the step. -/
def StoringLaw (op : Nat) (mk : Param → Param → Param → Instr) (f : Word → Word → Word) : Prop :=
  Decodes3 op mk ∧ Encodes3 op mk ∧ ImmediateTargetFails 3 ∧
  ∀ (s : State) (a b d : Param), InPlace s →
    (∀ x y p, s.source 1 a = .ok x → s.source 2 b = .ok y → s.target 3 d = .ok p →
      ∃ t, exec (mk a b d) s = .next t ∧ Stored s t p (f x y) ∧ Advanced s t 4 ∧ t.core.rb = s.core.rb
        ∧ StatusKept s t ∧ QueuesKept s t ∧ FailKept s t ∧ RestKept s t)
    ∧ (∀ e, s.source 1 a = .error e → exec (mk a b d) s = .next (s.raise e))
    ∧ (∀ x e, s.source 1 a = .ok x → s.source 2 b = .error e → exec (mk a b d) s = .next (s.raise e))
    ∧ (∀ x y e, s.source 1 a = .ok x → s.source 2 b = .ok y → s.target 3 d = .error e →
        exec (mk a b d) s = .next (s.raise e))

/-- The law of a conditional jump (R72, R100, R101, R102): encoding, taken, taken to a negative target, not taken, operand
errors. -/
def JumpLaw (op : Nat) (mk : Param → Param → Instr) (takes : Word → Prop) : Prop :=
  Decodes2 op mk ∧ Encodes2 op mk ∧
  ∀ (s : State) (a b : Param), InPlace s →
    (∀ x y, s.source 1 a = .ok x → s.source 2 b = .ok y → takes x → 0 ≤ y.toInt →
      ∃ t, exec (mk a b) s = .next t ∧ t.core.pc = y ∧ MemoryKept s t ∧ t.core.rb = s.core.rb
        ∧ StatusKept s t ∧ QueuesKept s t ∧ FailKept s t ∧ RestKept s t)
    ∧ (∀ x y, s.source 1 a = .ok x → s.source 2 b = .ok y → takes x → y.toInt < 0 →
        exec (mk a b) s = .next (s.raise (.negativeAddress 2 y)))
    ∧ (∀ x y, s.source 1 a = .ok x → s.source 2 b = .ok y → ¬ takes x →
      ∃ t, exec (mk a b) s = .next t ∧ Advanced s t 3 ∧ MemoryKept s t ∧ t.core.rb = s.core.rb
        ∧ StatusKept s t ∧ QueuesKept s t ∧ FailKept s t ∧ RestKept s t)
    ∧ (∀ e, s.source 1 a = .error e → exec (mk a b) s = .next (s.raise e))
    ∧ (∀ x e, s.source 1 a = .ok x → s.source 2 b = .error e → exec (mk a b) s = .next (s.raise e))

/-- The next step is not a reset by the host. -/
def NotReset (s : State) : Prop :=
  ∀ c tap n rest, s.nextAgent = .host → s.env.hostActs ≠ .reset c tap n :: rest

/-- `t` is `n` steps of the hardware after `s`. -/
def StepsTo : Nat → State → State → Prop
  | 0, s, t => s = t
  | n + 1, s, t => ∃ u, step s = .next u ∧ StepsTo n u t

/-- A queue with room, in the rule's words: unbounded, or fewer items than `QDEPTH`. -/
def Room (s : State) (q : Queue) : Prop := ∀ n, s.cfg.qdepth = some n → q.items.length < n

end Sys2Proof.Machine

open Sys2Proof Sys2Proof.Machine

/-! ### Numbers and encoding -/

/-- R7: `wrap64(z)` is the word of the signed 64-bit range congruent to `z` modulo `2^64`, and `z` itself if in range. -/
def Obligations.WrapIsCongruentAndInRange : Prop :=
  ∀ z : Int, (wrap64 z).toInt % 2 ^ 64 = z % 2 ^ 64 ∧ -(2 ^ 63) ≤ (wrap64 z).toInt ∧ (wrap64 z).toInt ≤ 2 ^ 63 - 1
    ∧ (-(2 ^ 63) ≤ z → z ≤ 2 ^ 63 - 1 → (wrap64 z).toInt = z)

/-- R77: decoding the canonical words of any instruction gives it back with every operand, whatever follows; a canonical
word is at most 22208; extra high digits decode to the same instruction (R67). -/
def Obligations.DecodeEncodeRoundTrip : Prop :=
  (∀ (i : Instr) (rest : List Word), decode (encode i ++ rest) = .ok i)
    ∧ (∀ (i : Instr) (w : Word) (raws : List Word), encode i = w :: raws → w.toNat ≤ 22208)
    ∧ (∀ (i : Instr) (w v : Word) (raws rest : List Word), encode i = w :: raws → 0 ≤ v.toInt →
        v.toNat % 10 ^ (i.nParams + 2) = w.toNat → decode (v :: (raws ++ rest)) = .ok i)

/-- The other direction: the words of a decoded instruction are its canonical words, but for digits no parameter uses
(R61, R62, R67, R69, R76). -/
def Obligations.DecodedWordsAreCanonicalButHighDigits : Prop :=
  ∀ (w : Word) (rest : List Word) (i : Instr), decode (w :: rest) = .ok i →
    0 ≤ w.toInt ∧ i.nParams ≤ rest.length
      ∧ ∃ c, encode i = c :: rest.take i.nParams ∧ c.toNat = w.toNat % 10 ^ (i.nParams + 2)

/-- R64, R65: a word is rejected as an unknown opcode exactly if it is negative or its opcode is outside the table, whatever
follows it; and what that error records. -/
def Obligations.UnknownOpcodeExactly : Prop :=
  ∀ (w : Word) (rest : List Word),
    (decode (w :: rest) = .error (.unknownOpcode w) ↔
      (w.toInt < 0 ∨ w.toNat % 100 ∉ [1, 2, 3, 4, 5, 6, 7, 8, 9, 99]))
    ∧ ∀ pc, (CoreError.ofReject pc (.unknownOpcode w)).record pc = ⟨2, 1, pc, 0, w⟩

/-- R68: with the opcode known and its last parameter word at or beyond `LEN`, and only then, the instruction is truncated,
whatever its mode digits are; R62 gives the numbers; and what that error records. -/
def Obligations.TruncatedBeforeModes : Prop :=
  ∀ (c : CoreState) (w : Word) (n : Nat), c.pc.toNat < c.tape.len → w = c.tape.read c.pc.toNat → 0 ≤ w.toInt →
    (w.toNat % 100, n) ∈ [(1, 3), (2, 3), (3, 1), (4, 1), (5, 2), (6, 2), (7, 3), (8, 3), (9, 1)] →
    (fetchDecode c = .error (.truncatedInstruction w) ↔ c.tape.len ≤ c.pc.toNat + n)
      ∧ (CoreError.truncatedInstruction w).record c.pc = ⟨2, 2, c.pc, 0, w⟩

/-- R66: with all parameter words there, a used mode digit of 3 to 9 is rejected, for the lowest such parameter; and
what that error records. -/
def Obligations.LowestIllegalModeReported : Prop :=
  ∀ (w : Word) (rest : List Word) (n k : Nat), 0 ≤ w.toInt →
    (w.toNat % 100, n) ∈ [(1, 3), (2, 3), (3, 1), (4, 1), (5, 2), (6, 2), (7, 3), (8, 3), (9, 1)] →
    n ≤ rest.length → 1 ≤ k →
    (decode (w :: rest) = .error (.illegalMode k w) ↔
      (k ≤ n ∧ 3 ≤ w.toNat / 10 ^ (k + 1) % 10 ∧ ∀ j, 1 ≤ j → j < k → w.toNat / 10 ^ (j + 1) % 10 < 3))
    ∧ ∀ pc, (CoreError.ofReject pc (.illegalMode k w)).record pc = ⟨2, 3, pc, BitVec.ofNat 2 k, w⟩

/-- Words written out from the encodings of 95_test_vectors.md ("Encoding function") decode to their instructions. -/
def Obligations.SampleWordsDecode : Prop :=
  decode [21001, 4, 3, 2] = .ok (.add ⟨.positional, 4⟩ ⟨.immediate, 3⟩ ⟨.relative, 2⟩)
    ∧ decode [203, 1] = .ok (.inp ⟨.relative, 1⟩)
    ∧ decode [1005, 14, 0] = .ok (.jnz ⟨.positional, 14⟩ ⟨.immediate, 0⟩)
    ∧ decode [109, 19] = .ok (.arb ⟨.immediate, 19⟩)
    ∧ decode [12399] = .ok .hlt

/-! ### The tape, the resolver, the ALU -/

/-- R42: after a write the address holds the value, the gap above the old length reads 0, every other address reads as
before, and the length is the larger of the old one and `a + 1`. -/
def Obligations.TapeWriteThenRead : Prop :=
  ∀ (t : Tape) (a : Nat) (v : Word),
    (t.write a v).read a = v
      ∧ (∀ b, t.len ≤ b → b < a → (t.write a v).read b = 0)
      ∧ (∀ b, b ≠ a → (t.write a v).read b = t.read b)
      ∧ (t.len ≤ a → (t.write a v).len = a + 1) ∧ (a < t.len → (t.write a v).len = t.len)

/-- The canonical form of a tape is kept by every write, and equal reads with equal lengths are equal tapes. -/
def Obligations.TapeFormIsCanonical : Prop :=
  (∀ (t : Tape) (a : Nat) (v : Word), t.wf = true → (t.write a v).wf = true)
    ∧ (∀ img : List Word, (Tape.ofImage img).wf = true)
    ∧ (∀ t u : Tape, t.wf = true → u.wf = true → t.len = u.len → (∀ a, t.read a = u.read a) → t = u)

/-- R70 with R73: the value of a source operand in each mode, and when it is an error. -/
def Obligations.SourceOperandByMode : Prop :=
  ∀ (n : Nat) (raw : Word) (c : CoreState),
    (raw.toInt < 0 → resolveR n ⟨.positional, raw⟩ c = .error (.negativeAddress n raw))
      ∧ (0 ≤ raw.toInt → resolveR n ⟨.positional, raw⟩ c = .ok (c.tape.read raw.toNat))
      ∧ resolveR n ⟨.immediate, raw⟩ c = .ok raw
      ∧ (∀ a, a = wrap64 (c.rb.toInt + raw.toInt) →
          (a.toInt < 0 → resolveR n ⟨.relative, raw⟩ c = .error (.negativeAddress n a))
          ∧ (0 ≤ a.toInt → resolveR n ⟨.relative, raw⟩ c = .ok (c.tape.read a.toNat)))

/-- R71: a write target in each mode: immediate is an error; then negative; then at or above `MAXLEN`; else the address. -/
def Obligations.WriteTargetByMode : Prop :=
  ∀ (n maxlen : Nat) (raw : Word) (c : CoreState),
    resolveW n ⟨.immediate, raw⟩ maxlen c = .error (.immediateWriteTarget n raw)
      ∧ (∀ (m : Mode) (a : Word),
          ((m = .positional ∧ a = raw) ∨ (m = .relative ∧ a = wrap64 (c.rb.toInt + raw.toInt))) →
          (a.toInt < 0 → resolveW n ⟨m, raw⟩ maxlen c = .error (.negativeAddress n a))
          ∧ (0 ≤ a.toInt → maxlen ≤ a.toNat → resolveW n ⟨m, raw⟩ maxlen c = .error (.memoryExhausted n a))
          ∧ (0 ≤ a.toInt → a.toNat < maxlen → resolveW n ⟨m, raw⟩ maxlen c = .ok a.toNat))

/-- The ALU's results as integers (R92): the exact sum, or that minus or plus `2^64`; the exact product where it is in
range. -/
def Obligations.AluResultsAsIntegers : Prop :=
  ∀ x y : Word,
    (-(2 ^ 63) ≤ x.toInt + y.toInt → x.toInt + y.toInt ≤ 2 ^ 63 - 1 → (aluAdd x y).toInt = x.toInt + y.toInt)
      ∧ (2 ^ 63 ≤ x.toInt + y.toInt → (aluAdd x y).toInt = x.toInt + y.toInt - 2 ^ 64)
      ∧ (x.toInt + y.toInt < -(2 ^ 63) → (aluAdd x y).toInt = x.toInt + y.toInt + 2 ^ 64)
      ∧ (-(2 ^ 63) ≤ x.toInt * y.toInt → x.toInt * y.toInt ≤ 2 ^ 63 - 1 → (aluMul x y).toInt = x.toInt * y.toInt)
      ∧ (aluMul x y).toInt % 2 ^ 64 = (x.toInt * y.toInt) % 2 ^ 64

/-! ### The ten instructions -/

/-- R90: ADD. -/
def Obligations.AddStoresWrappedSum : Prop :=
  StoringLaw 1 .add (fun x y => wrap64 (x.toInt + y.toInt))

/-- R91: MUL. -/
def Obligations.MulStoresWrappedProduct : Prop :=
  StoringLaw 2 .mul (fun x y => wrap64 (x.toInt * y.toInt))

/-- R105: LT. -/
def Obligations.LtStoresSignedComparison : Prop :=
  StoringLaw 7 .lt (fun x y => if x.toInt < y.toInt then 1 else 0)

/-- R106: EQ. -/
def Obligations.EqStoresEquality : Prop :=
  StoringLaw 8 .eq (fun x y => if x.toInt = y.toInt then 1 else 0)

/-- R95: IN. A bad target is an error before the queue is looked at; an item is taken and stored; an empty closed queue is
an error; on an empty open queue the core at this instruction has no step. -/
def Obligations.InTakesTheOldestItem : Prop :=
  Decodes1 3 .inp ∧ Encodes1 3 .inp ∧ ImmediateTargetFails 1 ∧
  ∀ (s : State) (d : Param), InPlace s →
    (∀ e, s.target 1 d = .error e → exec (.inp d) s = .next (s.raise e))
    ∧ (∀ p v rest, s.target 1 d = .ok p → s.inq.items = v :: rest →
      ∃ t, exec (.inp d) s = .next t ∧ t.inq = { s.inq with items := rest } ∧ Stored s t p v ∧ Advanced s t 2
        ∧ t.core.rb = s.core.rb ∧ StatusKept s t ∧ OtherQueuesKept s t s.cur ∧ FailKept s t ∧ RestKept s t)
    ∧ (∀ p, s.target 1 d = .ok p → s.inq.items = [] → s.inq.prodClosed = true →
        exec (.inp d) s = .next (s.raise .inputEndOfStream))
    ∧ (∀ p, s.target 1 d = .ok p → s.inq.items = [] → s.inq.prodClosed = false →
        fetchDecode s.core = .ok (.inp d) → s.enabled (.core s.cur) = false)

/-- R96: OUT. An operand error comes first; a gone consumer is an error whatever the fill; with room the value is appended;
on a full queue the core at this instruction has no step. -/
def Obligations.OutAppendsTheOperand : Prop :=
  Decodes1 4 .out ∧ Encodes1 4 .out ∧
  ∀ (s : State) (a : Param), InPlace s →
    (∀ e, s.source 1 a = .error e → exec (.out a) s = .next (s.raise e))
    ∧ (∀ x, s.source 1 a = .ok x → s.outq.consGone = true →
        exec (.out a) s = .next (s.raise (.outputConsumerGone x)))
    ∧ (∀ x, s.source 1 a = .ok x → s.outq.consGone = false → Room s s.outq →
      ∃ t, exec (.out a) s = .next t ∧ t.outq = { s.outq with items := s.outq.items ++ [x] } ∧ MemoryKept s t
        ∧ Advanced s t 2 ∧ t.core.rb = s.core.rb ∧ StatusKept s t ∧ OtherQueuesKept s t (s.cur + 1)
        ∧ FailKept s t ∧ RestKept s t)
    ∧ (∀ x n, s.source 1 a = .ok x → s.outq.consGone = false → s.cfg.qdepth = some n → n ≤ s.outq.items.length →
        fetchDecode s.core = .ok (.out a) → s.enabled (.core s.cur) = false)

/-- The model's choice, DEDUCED (log 8): the spec gives a blocked IN or OUT no step (R95, R96, U15), and `exec` of one answers
the same state, for `exec` has to answer something; `step` never runs it. -/
def Obligations.BlockedAnswersTheSameState : Prop :=
  (∀ (s : State) (d : Param) (p : Nat), s.target 1 d = .ok p → s.inq.items = [] → s.inq.prodClosed = false →
      exec (.inp d) s = .next s)
    ∧ (∀ (s : State) (a : Param) (x : Word) (n : Nat), s.source 1 a = .ok x → s.outq.consGone = false →
        s.cfg.qdepth = some n → n ≤ s.outq.items.length → exec (.out a) s = .next s)

/-- R100: JNZ. -/
def Obligations.JnzJumpsOnNonzero : Prop := JumpLaw 5 .jnz (fun x => x.toInt ≠ 0)

/-- R101: JZ. -/
def Obligations.JzJumpsOnZero : Prop := JumpLaw 6 .jz (fun x => x.toInt = 0)

/-- R110: ARB. All three modes of the operand are legal. -/
def Obligations.ArbAddsToRelativeBase : Prop :=
  Decodes1 9 .arb ∧ Encodes1 9 .arb ∧
  ∀ (s : State) (a : Param), InPlace s →
    (∀ x, s.source 1 a = .ok x →
      ∃ t, exec (.arb a) s = .next t ∧ t.core.rb = wrap64 (s.core.rb.toInt + x.toInt) ∧ Advanced s t 2
        ∧ MemoryKept s t ∧ StatusKept s t ∧ QueuesKept s t ∧ FailKept s t ∧ RestKept s t)
    ∧ (∀ e, s.source 1 a = .error e → exec (.arb a) s = .next (s.raise e))

/-- R111: HLT, of any word with opcode 99. `STATUS` becomes `HALTED`, the two queue ends are closed, items stay, `PC`, `RB`
and the tape are kept, and the core has no further step. -/
def Obligations.HltHaltsAndClosesPorts : Prop :=
  (∀ (w : Word) (rest : List Word), 0 ≤ w.toInt → w.toNat % 100 = 99 → decode (w :: rest) = .ok .hlt)
    ∧ encode .hlt = [99] ∧
  ∀ s : State, InPlace s →
    ∃ t, exec .hlt s = .next t ∧ t.core.status = .halted ∧ t.core.fault = s.core.fault ∧ t.core.pc = s.core.pc
      ∧ t.core.rb = s.core.rb ∧ MemoryKept s t
      ∧ t.outq = { s.outq with prodClosed := true } ∧ t.inq = { s.inq with consGone := true }
      ∧ (∀ j, j ≠ s.cur → j ≠ s.cur + 1 → t.queueAt j = s.queueAt j) ∧ FailKept s t ∧ RestKept s t
      ∧ t.enabled (.core s.cur) = false

/-- Every instruction answers a next state in every state: an error of the spec is an effect, not a stop (R15, R166). That a
blocked IN or OUT answers one too (the same state) is the model's choice, DEDUCED (log 8): the spec gives it no step. -/
def Obligations.EveryInstructionAnswersNext : Prop :=
  ∀ (i : Instr) (s : State), ∃ t, exec i s = .next t

/-- Which instruction may change what of its core (R12, R14, R15): `RB` only ARB; the tape only ADD, MUL, IN, LT, EQ;
`STATUS` becomes `HALTED` only by HLT. -/
def Obligations.OnlyTheNamedInstructionsWrite : Prop :=
  ∀ (i : Instr) (s t : State), InPlace s → exec i s = .next t →
    ((∀ a, i ≠ .arb a) → t.core.rb = s.core.rb)
      ∧ ((∀ p, i.writeTarget? ≠ some p) → t.core.tape = s.core.tape)
      ∧ (i ≠ .hlt → s.core.status = .run → t.core.status ≠ .halted)

/-- What an instruction does to its core and its two queues depends on nothing but these, `MAXLEN` and `QDEPTH`: not on
other cores, not on the core's index (R57, R136, R140). -/
def Obligations.CoreSeesOnlyItsOwnStateAndPorts : Prop :=
  ∀ (i : Instr) (s s' t t' : State), InPlace s → InPlace s' → s.cfg.maxlen = s'.cfg.maxlen →
    s.cfg.qdepth = s'.cfg.qdepth → s.core = s'.core → s.inq = s'.inq → s.outq = s'.outq →
    exec i s = .next t → exec i s' = .next t' →
    t.core = t'.core ∧ t.inq = t'.inq ∧ t.outq = t'.outq

/-! ### Errors -/

/-- The table of R150: `CAUSE`, `SUBCAUSE`, `FAULT_INDEX`, `FAULT_VALUE` of each error; and no error has the host's class 1
or the class 0 of no fault (R151). -/
def Obligations.FaultRecordCodes : Prop :=
  (∀ (pc w : Word), (CoreError.unknownOpcode w).record pc = ⟨2, 1, pc, 0, w⟩)
    ∧ (∀ (pc w : Word), (CoreError.truncatedInstruction w).record pc = ⟨2, 2, pc, 0, w⟩)
    ∧ (∀ (pc w : Word) (n : Nat), (CoreError.illegalMode n w).record pc = ⟨2, 3, pc, BitVec.ofNat 2 n, w⟩)
    ∧ (∀ (pc w : Word) (n : Nat), (CoreError.immediateWriteTarget n w).record pc = ⟨3, 1, pc, BitVec.ofNat 2 n, w⟩)
    ∧ (∀ (pc w : Word) (n : Nat), (CoreError.negativeAddress n w).record pc = ⟨3, 2, pc, BitVec.ofNat 2 n, w⟩)
    ∧ (∀ pc : Word, CoreError.inputEndOfStream.record pc = ⟨4, 1, pc, 0, 0⟩)
    ∧ (∀ (pc w : Word), (CoreError.outputConsumerGone w).record pc = ⟨4, 2, pc, 0, w⟩)
    ∧ (∀ (pc w : Word), (CoreError.runaway w).record pc = ⟨5, 0, pc, 0, w⟩)
    ∧ (∀ (pc w : Word) (n : Nat), (CoreError.memoryExhausted n w).record pc = ⟨6, 1, pc, BitVec.ofNat 2 n, w⟩)
    ∧ (∀ e : CoreError, e.cause ≠ 0 ∧ e.cause ≠ 1)

/-- R166: error entry writes the record, `STATUS`, the two queue ends and the failure latch, and nothing else; the core has
no further step. -/
def Obligations.ErrorEntryWritesExactly : Prop :=
  ∀ (s : State) (e : CoreError), InPlace s →
    (s.raise e).core.fault = ⟨e.cause, e.subcause, s.core.pc, e.index, e.value⟩
      ∧ (s.raise e).core.status = .faulted
      ∧ (s.raise e).core.pc = s.core.pc ∧ (s.raise e).core.rb = s.core.rb ∧ (s.raise e).core.tape = s.core.tape
      ∧ (s.raise e).outq = { s.outq with prodClosed := true } ∧ (s.raise e).inq = { s.inq with consGone := true }
      ∧ (∀ j, j ≠ s.cur → j ≠ s.cur + 1 → (s.raise e).queueAt j = s.queueAt j)
      ∧ (s.firstFailValid = false → (s.raise e).firstFailValid = true ∧ (s.raise e).firstFailId = s.cur)
      ∧ (s.firstFailValid = true → FailKept s (s.raise e))
      ∧ RestKept s (s.raise e) ∧ (s.raise e).enabled (.core s.cur) = false

/-- R165: a step that makes a core `FAULTED` leaves its `PC`, `RB` and tape, every other core, and the items of every
queue. -/
def Obligations.ErrorsArePrecise : Prop :=
  ∀ (s t : State) (k : Nat), s.Inv → s.nextAgent = .core k → (s.coreAt k).status = .run → step s = .next t →
    (t.coreAt k).status = .faulted →
    (t.coreAt k).pc = (s.coreAt k).pc ∧ (t.coreAt k).rb = (s.coreAt k).rb ∧ (t.coreAt k).tape = (s.coreAt k).tape
      ∧ (∀ j, j ≠ k → t.coreAt j = s.coreAt j) ∧ (∀ j, (t.queueAt j).items = (s.queueAt j).items)

/-- R60, R159: at `PC ≥ LEN` nothing is fetched and the step is RunawayError with the value of `PC`; below `LEN` the words
that decoding sees are the tape's own from `PC` on. -/
def Obligations.FetchBoundBeforeDecode : Prop :=
  ∀ c : CoreState,
    (c.tape.len ≤ c.pc.toNat → fetchDecode c = .error (.runaway c.pc))
      ∧ (c.pc.toNat < c.tape.len → ∃ rest, fetchWords c = c.tape.read c.pc.toNat :: rest
          ∧ ∀ e, fetchDecode c = .error e → e ≠ .runaway c.pc)
      ∧ (∀ n, n < 4 → (fetchWords c)[n]? =
          if c.pc.toNat + n < c.tape.len then some (c.tape.read (c.pc.toNat + n)) else none)

/-! ### Queues, forwarder, arbiter -/

/-- R121: `push`. -/
def Obligations.PushOutcomes : Prop :=
  ∀ (q : Queue) (v : Word) (d : Option Nat),
    (q.consGone = true → q.push d v = .gone)
      ∧ (q.consGone = false → (∀ n, d = some n → q.items.length < n) →
          q.push d v = .pushed { q with items := q.items ++ [v] })
      ∧ (∀ n, q.consGone = false → d = some n → n ≤ q.items.length → q.push d v = .blocked)

/-- R122: `pop`. -/
def Obligations.PopOutcomes : Prop :=
  ∀ q : Queue,
    (∀ v rest, q.items = v :: rest → q.pop = .got v { q with items := rest })
      ∧ (q.items = [] → q.prodClosed = true → q.pop = .endOfStream)
      ∧ (q.items = [] → q.prodClosed = false → q.pop = .blocked)

/-- R128: the forwarder's transfer, when enabled, and where the value goes. -/
def Obligations.ForwarderTransfers : Prop :=
  ∀ (s : State) (v : Word) (rest : List Word), s.Inv → s.cfg.isStandalone = false →
    (s.queueAt s.cfg.k).items = v :: rest →
    ((s.runEn = true ∧ s.fwdDone = false
        ∧ (s.cfg.isFeedback = false ∨ (s.queueAt 0).consGone = true ∨ Room s (s.queueAt 0))) →
      ∃ t, forwarderStep s = some t ∧ t.tap = v ∧ t.tapValid = true
        ∧ t.queueAt s.cfg.k = { s.queueAt s.cfg.k with items := rest }
        ∧ (s.cfg.isFeedback = true → (s.queueAt 0).consGone = false →
            t.queueAt 0 = { s.queueAt 0 with items := (s.queueAt 0).items ++ [v] })
        ∧ (s.cfg.isFeedback = false ∨ (s.queueAt 0).consGone = true → t.queueAt 0 = s.queueAt 0)
        ∧ (∀ j, j ≠ 0 → j ≠ s.cfg.k → t.queueAt j = s.queueAt j)
        ∧ t.cores = s.cores ∧ t.cfg = s.cfg ∧ t.fwdDone = s.fwdDone ∧ t.runEn = s.runEn ∧ FailKept s t)
    ∧ (¬ (s.runEn = true ∧ s.fwdDone = false
        ∧ (s.cfg.isFeedback = false ∨ (s.queueAt 0).consGone = true ∨ Room s (s.queueAt 0))) →
      forwarderStep s = none)

/-- R129: the forwarder's finishing step, when enabled, and what it sets. -/
def Obligations.ForwarderFinishes : Prop :=
  ∀ s : State, s.Inv → s.cfg.isStandalone = false → (s.queueAt s.cfg.k).items = [] →
    ((s.runEn = true ∧ s.fwdDone = false ∧ (s.queueAt s.cfg.k).prodClosed = true) →
      ∃ t, forwarderStep s = some t ∧ t.fwdDone = true
        ∧ t.queueAt s.cfg.k = { s.queueAt s.cfg.k with consGone := true }
        ∧ (s.cfg.isFeedback = true → t.queueAt 0 = { s.queueAt 0 with prodClosed := true })
        ∧ (s.cfg.isFeedback = false → t.queueAt 0 = s.queueAt 0)
        ∧ (∀ j, j ≠ 0 → j ≠ s.cfg.k → t.queueAt j = s.queueAt j)
        ∧ t.cores = s.cores ∧ t.cfg = s.cfg ∧ t.tap = s.tap ∧ t.tapValid = s.tapValid ∧ t.runEn = s.runEn
        ∧ FailKept s t ∧ forwarderStep t = none)
    ∧ (¬ (s.runEn = true ∧ s.fwdDone = false ∧ (s.queueAt s.cfg.k).prodClosed = true) → forwarderStep s = none)

/-- R131: the network state is the stated function of the stored state; before the start no core and no forwarder step is
enabled (the host has steps then: the start, a reset, the standalone queue actions of log 10); the host may start only once.
That this holds of a standalone core too, which the spec gives no `RUN_EN` of its own, is the model's choice, DEDUCED
(log 9). -/
def Obligations.NetStateAndStart : Prop :=
  ∀ s : State,
    (s.netState = .seeded ↔ s.runEn = false)
      ∧ (s.netState = .failed ↔ s.runEn = true ∧ ∃ c, c ∈ s.cores ∧ c.status = .faulted)
      ∧ (s.netState = .drained ↔ s.runEn = true ∧ (∀ c, c ∈ s.cores → c.status = .halted)
          ∧ s.fwdDone = true)
      ∧ (s.netState = .running ↔ s.runEn = true ∧ (∀ c, c ∈ s.cores → c.status ≠ .faulted)
          ∧ ¬ ((∀ c, c ∈ s.cores → c.status = .halted) ∧ s.fwdDone = true))
      ∧ (s.runEn = false → s.enabled .forwarder = false ∧ ∀ i, s.enabled (.core i) = false)
      ∧ (s.runEn = false → hostDo .start s = .done { s with runEn := true })
      ∧ (s.runEn = true → hostDo .start s = .refused .hostContract)

/-- `Failed` and `Drained` are absorbing but for a reset (R131). -/
def Obligations.FailedAndDrainedAreAbsorbing : Prop :=
  ∀ s t : State, s.Inv → NotReset s → step s = .next t →
    (s.netState = .failed → t.netState = .failed) ∧ (s.netState = .drained → t.netState = .drained)

/-- R132: the result is the tap of a drained network whose tap has latched a value, and there is none otherwise. -/
def Obligations.ResultIsTheTap : Prop :=
  ∀ (s : State) (v : Word),
    s.result = some v ↔ (s.netState = .drained ∧ s.tapValid = true ∧ s.tap = v)

/-- R133: the failure latch changes only in the step in which a core enters `FAULTED` while it is empty, and then names
that core. -/
def Obligations.FirstFailureIsLatched : Prop :=
  ∀ s t : State, s.Inv → NotReset s → step s = .next t →
    (s.firstFailValid = true → FailKept s t)
      ∧ (s.firstFailValid = false → ∀ k, k < s.cfg.k → (s.coreAt k).status ≠ .faulted →
          (t.coreAt k).status = .faulted → t.firstFailValid = true ∧ t.firstFailId = k)
      ∧ (s.firstFailValid = false → (∀ k, k < s.cfg.k → (t.coreAt k).status ≠ .faulted) → t.firstFailValid = false)

/-! ### Reset -/

/-- The state of every core and of the arbiter after a reset with any configuration and any values of the two unspecified
fields (R26, R181). -/
def Obligations.ResetStateOfEveryCore : Prop :=
  ∀ (c : Config) (tap : Word) (n : Nat) (env : Env) (i : Nat) (img : List Word), c.images[i]? = some img →
    let s := State.resetOf c tap n env
    (s.coreAt i).pc = 0 ∧ (s.coreAt i).rb = 0 ∧ (s.coreAt i).tape.len = img.length
      ∧ (∀ a v, img[a]? = some v → (s.coreAt i).tape.read a = v)
      ∧ (∀ a, img.length ≤ a → (s.coreAt i).tape.read a = 0)
      ∧ (s.coreAt i).status = .run ∧ (s.coreAt i).fault = ⟨0, 0, 0, 0, 0⟩
      ∧ s.tapValid = false ∧ s.fwdDone = false ∧ s.runEn = false ∧ s.firstFailValid = false

/-- R126, R127 with R26: the queues of a network after reset; R138 with R26: the two queues of a standalone core, `INQ` as
the host chose it, `OUTQ` empty and open. -/
def Obligations.ResetSeedsTheQueues : Prop :=
  (∀ (c : Config) (tap : Word) (n : Nat) (env : Env) (topo : Topology) (phase : List Word) (stim : Word),
    c.valid = true → c.wiring = .network topo phase stim →
    let s := State.resetOf c tap n env
    (∀ p, phase[0]? = some p → (s.queueAt 0).items = [p, stim])
      ∧ (∀ i p, 1 ≤ i → i < c.k → phase[i]? = some p → (s.queueAt i).items = [p])
      ∧ (s.queueAt c.k).items = []
      ∧ ((s.queueAt 0).prodClosed = true ↔ topo = .linear)
      ∧ (∀ j, 1 ≤ j → j ≤ c.k → (s.queueAt j).prodClosed = false)
      ∧ (∀ j, j ≤ c.k → (s.queueAt j).consGone = false))
  ∧ (∀ (c : Config) (tap : Word) (n : Nat) (env : Env) (inq : List Word) (closed : Bool),
    c.wiring = .standalone inq closed →
    let s := State.resetOf c tap n env
    s.queues.length = 2 ∧ (s.queueAt 0).items = inq ∧ (s.queueAt 0).prodClosed = closed
      ∧ (s.queueAt 0).consGone = false ∧ (s.queueAt 1).items = [] ∧ (s.queueAt 1).prodClosed = false
      ∧ (s.queueAt 1).consGone = false)

/-- R182: with an empty image the first step of a core raises RunawayError with `FAULT_PC = 0`. -/
def Obligations.EmptyImageRunsAway : Prop :=
  ∀ (c : Config) (tap : Word) (n : Nat) (env : Env) (i : Nat), c.images[i]? = some [] →
    let s := { State.resetOf c tap n env with runEn := true, cur := i }
    coreStep s = .next (s.raise (.runaway 0))
      ∧ (s.raise (.runaway 0)).core.fault = ⟨5, 0, 0, 0, 0⟩

/-- The invariant holds at `State.reset`, whose configuration is the model's choice (log 3). -/
def Obligations.ResetMeetsTheInvariant : Prop := State.reset.Inv

/-- The invariant holds after a reset with any valid configuration, whatever the two unspecified fields hold (R26, R181). -/
def Obligations.EveryValidResetMeetsTheInvariant : Prop :=
  ∀ (c : Config) (tap : Word) (n : Nat) (env : Env), c.valid = true → (State.resetOf c tap n env).Inv

/-! ### The step of the whole hardware -/

/-- A step is a step of the agent whose turn it is (R75, R134), in the state in which the turn has passed on, which differs
in the model's own `env` only and there not in what the host has to do and has got (log 4, log 6). Core `k`, its step
enabled: `exec` of the instruction at its `PC`, or the error of the fetch. The forwarder: `forwarderStep`. The host: its
oldest pending action, taken off the list, or refused where that is (log 10). The forwarder with no step, and the host with
nothing to do or an action that waits, are not enabled. -/
def Obligations.StepRunsTheDecodedInstruction : Prop :=
  (∀ (s : State) (k : Nat), s.nextAgent = .core k → s.enabled (.core k) = true →
    (∀ i, decode (fetchWords (s.coreAt k)) = .ok i → step s = exec i (s.passTurn.atCore k))
      ∧ (∀ r, decode (fetchWords (s.coreAt k)) = .error r →
          step s = .next ((s.passTurn.atCore k).raise (CoreError.ofReject (s.coreAt k).pc r)))
      ∧ s.passTurn.atCore k = { s with cur := k, env := s.passTurn.env })
  ∧ (∀ s t : State, s.nextAgent = .forwarder → forwarderStep s.passTurn = some t → step s = .next t)
  ∧ (∀ s : State, s.enabled .forwarder = false ↔ forwarderStep s.passTurn = none)
  ∧ (∀ (s : State) (h : HostAct) (rest : List HostAct), s.nextAgent = .host → s.env.hostActs = h :: rest →
      let u := { s.passTurn with env := { s.passTurn.env with hostActs := rest } }
      (∀ t, hostDo h u = .done t → step s = .next t)
        ∧ (∀ r, step s = .refused r ↔ hostDo h u = .refused r)
        ∧ (s.enabled .host = false ↔ hostDo h u = .waits))
  ∧ (∀ s : State, s.env.hostActs = [] → s.enabled .host = false)
  ∧ (∀ s : State, s.passTurn = { s with env := s.passTurn.env } ∧ s.passTurn.env.hostActs = s.env.hostActs
      ∧ s.passTurn.env.hostGot = s.env.hostGot)

/-- When a core's step is enabled (R75 step 0, R95, R96): it exists, the network is started, `STATUS = RUN`, and it does
not stand at an IN or OUT that blocks. -/
def Obligations.CoreStepEnabledExactly : Prop :=
  ∀ (s : State) (k : Nat),
    s.enabled (.core k) = true ↔
      (k < s.cores.length ∧ s.runEn = true ∧ (s.coreAt k).status = .run
        ∧ ∀ i, fetchDecode (s.coreAt k) = .ok i →
            (∀ d p, i = .inp d → (s.atCore k).target 1 d = .ok p →
              (s.queueAt k).items ≠ [] ∨ (s.queueAt k).prodClosed = true)
            ∧ (∀ a x, i = .out a → (s.atCore k).source 1 a = .ok x →
              (s.queueAt (k + 1)).consGone = true ∨ Room s (s.queueAt (k + 1))))

/-- An agent without an enabled step changes nothing: its turn passes (R134); the machine is stuck exactly where no agent
has an enabled step (U15, R137; log 8); only the host's own actions are refused. The turns are the model's (log 4). -/
def Obligations.TurnsPassAndStuckExactly : Prop :=
  ∀ s : State,
    (s.enabled s.nextAgent = false → s.anyEnabled = true → step s = .next s.passTurn)
      ∧ (step s = .fault .stuck ↔ ∀ a, s.enabled a = false)
      ∧ (∀ r, step s = .refused r → s.nextAgent = .host)

/-- A network is deadlocked exactly where it is started, no core and no forwarder has an enabled step, and it is neither
drained nor failed with every core terminated and the forwarder finished (R137); a deadlock with nothing for the host to do
is stuck, and only a reset ends one (R180). The model's choices: when the host counts as having a step (log 13), that a
standalone core is never deadlocked (log 9), that a state without an enabled agent is the fault `stuck` (log 8). -/
def Obligations.DeadlockExactly : Prop :=
  (∀ s : State,
    s.deadlocked = true ↔
      (s.cfg.isStandalone = false ∧ s.runEn = true ∧ s.enabled .forwarder = false
        ∧ (∀ i, s.enabled (.core i) = false) ∧ s.netState ≠ .drained
        ∧ ¬ (s.netState = .failed ∧ (∀ c, c ∈ s.cores → c.status ≠ .run) ∧ s.fwdDone = true)))
  ∧ (∀ s : State, s.deadlocked = true → s.env.hostActs = [] → step s = .fault .stuck)
  ∧ (∀ s t : State, s.deadlocked = true → NotReset s → step s = .next t → t.deadlocked = true)

/-- A network in which some core has terminated never deadlocks (R137, by R121, R122, R128 to R130): what it closed and
abandoned ends every wait in turn, the forwarder's too. The host counts as in log 13. -/
def Obligations.DeadlockedNetworksHaveEveryCoreRunning : Prop :=
  ∀ s : State, s.Inv → s.deadlocked = true →
    (∀ i, i < s.cfg.k → (s.coreAt i).status = .run) ∧ s.fwdDone = false ∧ s.netState = .running

/-- When a run has ended and how (R189): a good final state has no faulted core; a run is over exactly where it stops as
halted or faulted, a deadlock being no final state (R137). The host counts as in log 13. -/
def Obligations.RunEndsExactly : Prop :=
  ∀ s : State, s.Inv →
    (s.goodFinal = true ↔
      ((s.cfg.isStandalone = true ∧ (s.coreAt 0).status = .halted)
        ∨ (s.cfg.isStandalone = false ∧ s.netState = .drained)))
    ∧ (s.goodFinal = true → ∀ i, i < s.cfg.k → (s.coreAt i).status ≠ .faulted)
    ∧ (s.runOver = true ↔
      ((s.cfg.isStandalone = true ∧ (s.coreAt 0).status ≠ .run)
        ∨ (s.cfg.isStandalone = false ∧ (s.netState = .drained
          ∨ (s.netState = .failed ∧ s.enabled .forwarder = false ∧ ∀ i, s.enabled (.core i) = false)))))
    ∧ (s.runOver = true ↔ (s.endOf = some .halted ∨ s.endOf = some .faulted))
    ∧ (s.endOf = some .halted ↔ s.goodFinal = true)
    ∧ (s.endOf = some .deadlocked ↔ s.deadlocked = true)

/-- A run with a bound (R189) is a run: it ends in a state so many steps on in which a run ends; it is out of fuel after
exactly the bound's steps in a state in which no run ends; it is refused where the next step is; and a larger bound changes
no answer but out of fuel. What a step of the bound is, is the model's choice (log 13). -/
def Obligations.BoundedRunIsARun : Prop :=
  (∀ (n : Nat) (s t : State) (e : RunEnd), run n s = .ended e t → t.endOf = some e ∧ ∃ m, m ≤ n ∧ StepsTo m s t)
    ∧ (∀ (n : Nat) (s t : State), run n s = .outOfFuel t → t.endOf = none ∧ StepsTo n s t)
    ∧ (∀ (n : Nat) (s t : State) (r : Refusal), run n s = .refused r t →
        step t = .refused r ∧ ∃ m, m < n ∧ StepsTo m s t)
    ∧ (∀ (m n : Nat) (s : State), m ≤ n → (∀ t, run m s ≠ .outOfFuel t) → run n s = run m s)

/-- Two cores' enabled steps may be taken in either order: each stays enabled and the same state results, but for which core
was stepped last (R134). Left out, as the rules have it: an OUT of core `i` that pushes, against the step in which its
consumer `i + 1` terminates (R136 b), and two first faults (R133). -/
def Obligations.StepsOfTwoCoresCommute : Prop :=
  ∀ (s a b : State) (i j : Nat), s.Inv → i < j → coreEnabled s i = true → coreEnabled s j = true →
    coreStep (s.atCore i) = .next a → coreStep (s.atCore j) = .next b →
    (j = i + 1 → (b.coreAt j).status ≠ .run → (a.queueAt j).items = (s.queueAt j).items) →
    ((a.coreAt i).status ≠ .faulted ∨ (b.coreAt j).status ≠ .faulted ∨ s.firstFailValid = true) →
    coreEnabled a j = true ∧ coreEnabled b i = true
      ∧ ∃ c d, coreStep (a.atCore j) = .next c ∧ coreStep (b.atCore i) = .next d ∧ c = { d with cur := j }

/-- The invariant is kept by every step. -/
def Obligations.EveryStepKeepsTheInvariant : Prop :=
  ∀ s t : State, s.Inv → step s = .next t → t.Inv

/-- `HALTED` and `FAULTED` are absorbing and a terminated core's state is kept, but for a reset (R15, R27, R168). -/
def Obligations.TerminatedCoresNeverChange : Prop :=
  ∀ (s t : State) (k : Nat), s.Inv → NotReset s → step s = .next t → k < s.cfg.k → (s.coreAt k).status ≠ .run →
    t.coreAt k = s.coreAt k

/-- R43: no step but a reset shortens a tape, and one that lengthens it loses no word. -/
def Obligations.TapesOnlyGrow : Prop :=
  ∀ (s t : State) (k : Nat), s.Inv → NotReset s → step s = .next t → k < s.cfg.k →
    (s.coreAt k).tape.len ≤ (t.coreAt k).tape.len
      ∧ ((s.coreAt k).tape.len < (t.coreAt k).tape.len →
          ∀ a, a < (s.coreAt k).tape.len → (t.coreAt k).tape.read a = (s.coreAt k).tape.read a)

/-- R25, R123: a step that is no reset changes only what its agent owns. A core: itself, the items of its two queues with
its own flag of each, the failure latch. The forwarder: the tap, `FWD_DONE`, `Q[K]` and `Q[0]` with its own flag of each. The
host: `RUN_EN`, and standalone `INQ` and `OUTQ` with its own flag of each. -/
def Obligations.AgentsTouchOnlyTheirOwn : Prop :=
  ∀ s t : State, s.Inv → NotReset s → step s = .next t →
    (∀ k, s.nextAgent = .core k →
      (∀ j, j ≠ k → t.coreAt j = s.coreAt j) ∧ (∀ j, j ≠ k → j ≠ k + 1 → t.queueAt j = s.queueAt j)
        ∧ (t.queueAt k).prodClosed = (s.queueAt k).prodClosed
        ∧ (t.queueAt (k + 1)).consGone = (s.queueAt (k + 1)).consGone
        ∧ t.tap = s.tap ∧ t.tapValid = s.tapValid ∧ t.fwdDone = s.fwdDone ∧ t.runEn = s.runEn ∧ t.cfg = s.cfg)
      ∧ (s.nextAgent = .forwarder →
        t.cores = s.cores ∧ (∀ j, j ≠ 0 → j ≠ s.cfg.k → t.queueAt j = s.queueAt j)
          ∧ (t.queueAt 0).consGone = (s.queueAt 0).consGone
          ∧ (t.queueAt s.cfg.k).prodClosed = (s.queueAt s.cfg.k).prodClosed
          ∧ (s.cfg.isFeedback = false → t.queueAt 0 = s.queueAt 0)
          ∧ t.runEn = s.runEn ∧ FailKept s t ∧ t.cfg = s.cfg)
      ∧ (s.nextAgent = .host →
        t.cores = s.cores ∧ (s.cfg.isStandalone = false → ∀ j, t.queueAt j = s.queueAt j)
          ∧ (s.cfg.isStandalone = true → (t.queueAt 0).consGone = (s.queueAt 0).consGone
            ∧ (t.queueAt 1).prodClosed = (s.queueAt 1).prodClosed ∧ ∀ j, j ≠ 0 → j ≠ 1 → t.queueAt j = s.queueAt j)
          ∧ t.tap = s.tap ∧ t.tapValid = s.tapValid ∧ t.fwdDone = s.fwdDone ∧ FailKept s t ∧ t.cfg = s.cfg)

/-- R124: one step takes the head of a queue, or appends one item at its tail, or leaves its items. -/
def Obligations.QueuesAreFirstInFirstOut : Prop :=
  ∀ (s t : State) (j : Nat), s.Inv → NotReset s → step s = .next t →
    (t.queueAt j).items = (s.queueAt j).items
      ∨ (∃ v, (t.queueAt j).items = (s.queueAt j).items ++ [v])
      ∨ (∃ v, (s.queueAt j).items = v :: (t.queueAt j).items)

/-- R123: neither flag of a queue is ever cleared but by a reset. -/
def Obligations.QueueFlagsAreNeverCleared : Prop :=
  ∀ (s t : State) (j : Nat), s.Inv → NotReset s → step s = .next t →
    ((s.queueAt j).prodClosed = true → (t.queueAt j).prodClosed = true)
      ∧ ((s.queueAt j).consGone = true → (t.queueAt j).consGone = true)

/-- The parameters change by no step but a reset, and a reset takes a valid configuration or is refused (R24, R180, U16). -/
def Obligations.OnlyResetChangesTheConfiguration : Prop :=
  (∀ s t : State, NotReset s → step s = .next t → t.cfg = s.cfg)
    ∧ (∀ (s : State) (c : Config) (tap : Word) (n : Nat),
        (c.valid = true → hostDo (.reset c tap n) s = .done (State.resetOf c tap n s.env))
        ∧ (c.valid = false → hostDo (.reset c tap n) s = .refused .badConfig))

/-- The host's contract (R138, R139, U17): in a network it may not touch a queue; standalone it feeds and closes `INQ` and
drains and abandons `OUTQ`, and closes and abandons once. A feed into a full `INQ` of a live core waits (R121), and so does
a drain of an empty open `OUTQ` (R122). The model's choices, DEDUCED (log 10): a feed to a gone core and a drain at
end-of-stream change nothing, the queue actions are allowed before the start too, a drain or a second abandon of an
abandoned `OUTQ` is refused; that drained values are kept in `env.hostGot` is log 6. -/
def Obligations.HostKeepsToItsContract : Prop :=
  ∀ (s : State) (v : Word),
    (s.cfg.isStandalone = false →
      hostDo (.feed v) s = .refused .hostContract ∧ hostDo .closeInput s = .refused .hostContract
        ∧ hostDo .drain s = .refused .hostContract ∧ hostDo .abandonOutput s = .refused .hostContract)
    ∧ (s.cfg.isStandalone = true →
        ((s.queueAt 0).prodClosed = true →
          hostDo (.feed v) s = .refused .hostContract ∧ hostDo .closeInput s = .refused .hostContract)
        ∧ ((s.queueAt 0).prodClosed = false →
          hostDo .closeInput s = .done (s.setQueue 0 { s.queueAt 0 with prodClosed := true })
          ∧ ((s.queueAt 0).consGone = true → hostDo (.feed v) s = .done s)
          ∧ ((s.queueAt 0).consGone = false → Room s (s.queueAt 0) →
              hostDo (.feed v) s = .done (s.setQueue 0 { s.queueAt 0 with items := (s.queueAt 0).items ++ [v] }))
          ∧ (∀ n, (s.queueAt 0).consGone = false → s.cfg.qdepth = some n → n ≤ (s.queueAt 0).items.length →
              hostDo (.feed v) s = .waits))
        ∧ ((s.queueAt 1).consGone = true →
          hostDo .drain s = .refused .hostContract ∧ hostDo .abandonOutput s = .refused .hostContract)
        ∧ ((s.queueAt 1).consGone = false →
          hostDo .abandonOutput s = .done (s.setQueue 1 { s.queueAt 1 with consGone := true })
          ∧ (∀ x rest, (s.queueAt 1).items = x :: rest →
              hostDo .drain s = .done { s.setQueue 1 { s.queueAt 1 with items := rest } with
                env := { s.env with hostGot := s.env.hostGot ++ [x] } })
          ∧ ((s.queueAt 1).items = [] → (s.queueAt 1).prodClosed = false → hostDo .drain s = .waits)
          ∧ ((s.queueAt 1).items = [] → (s.queueAt 1).prodClosed = true → hostDo .drain s = .done s)))

/-- The model's convention for running a first instruction (log 7): laid by `withFetchWord` on `State.reset`, whatever
decodes is what the next step runs. -/
def Obligations.FetchWordIsRunFirst : Prop :=
  ∀ (nbits w : Nat) (i : Instr), decodeTableWord nbits w = some i →
    let s := State.reset.withFetchWord nbits w
    step s = exec i (s.passTurn.atCore 0)
end

