-- ==== Sys2Proof/Laws/Decode.lean ====
section
/-! SUPPORT. Laws of the encoding's parts (R61, R66, R77) and what a decoded instruction says of the words. -/

namespace Sys2Proof

@[simp] theorem modeOfDigit_modeDigit (m : Mode) : modeOfDigit (modeDigit m) = some m := by cases m <;> rfl

theorem modeDigit_le (m : Mode) : modeDigit m ≤ 2 := by cases m <;> decide

theorem modeOfDigit_eq_some {n : Nat} {m : Mode} (h : modeOfDigit n = some m) : n = modeDigit m := by
  unfold modeOfDigit at h
  split at h <;> simp_all <;> subst h <;> rfl

theorem modeAt_ok {w : Word} {n : Nat} {m : Mode} (h : modeAt w n = .ok m) : digit (n + 1) w = modeDigit m := by
  unfold modeAt at h
  split at h
  · rename_i x hx
    cases h
    exact modeOfDigit_eq_some hx
  · cases h

theorem modeAt_of_digit {w : Word} {n : Nat} {m : Mode} (h : digit (n + 1) w = modeDigit m) : modeAt w n = .ok m := by
  simp [modeAt, h]

theorem decode1_ok {mk : Param → Instr} {w : Word} {rest : List Word} {i : Instr}
    (h : decode1 mk w rest = .ok i) :
    ∃ m1 r1 tail, rest = r1 :: tail ∧ digit 2 w = modeDigit m1 ∧ i = mk ⟨m1, r1⟩ := by
  unfold decode1 at h
  split at h
  · split at h
    · cases h
    · rename_i r1 tail _ m1 h1
      cases h
      exact ⟨m1, r1, tail, rfl, modeAt_ok h1, rfl⟩
  · cases h

theorem decode2_ok {mk : Param → Param → Instr} {w : Word} {rest : List Word} {i : Instr}
    (h : decode2 mk w rest = .ok i) :
    ∃ m1 m2 r1 r2 tail, rest = r1 :: r2 :: tail ∧ digit 2 w = modeDigit m1 ∧ digit 3 w = modeDigit m2
      ∧ i = mk ⟨m1, r1⟩ ⟨m2, r2⟩ := by
  unfold decode2 at h
  split at h
  · split at h
    · cases h
    · split at h
      · cases h
      · rename_i r1 r2 tail _ m1 h1 _ m2 h2
        cases h
        exact ⟨m1, m2, r1, r2, tail, rfl, modeAt_ok h1, modeAt_ok h2, rfl⟩
  · cases h

theorem decode3_ok {mk : Param → Param → Param → Instr} {w : Word} {rest : List Word} {i : Instr}
    (h : decode3 mk w rest = .ok i) :
    ∃ m1 m2 m3 r1 r2 r3 tail, rest = r1 :: r2 :: r3 :: tail ∧ digit 2 w = modeDigit m1
      ∧ digit 3 w = modeDigit m2 ∧ digit 4 w = modeDigit m3 ∧ i = mk ⟨m1, r1⟩ ⟨m2, r2⟩ ⟨m3, r3⟩ := by
  unfold decode3 at h
  split at h
  · split at h
    · cases h
    · split at h
      · cases h
      · split at h
        · cases h
        · rename_i r1 r2 r3 tail _ m1 h1 _ m2 h2 _ m3 h3
          cases h
          exact ⟨m1, m2, m3, r1, r2, r3, tail, rfl, modeAt_ok h1, modeAt_ok h2, modeAt_ok h3, rfl⟩
  · cases h

/-- A decoded instruction has all its parameter words (R68). -/
theorem decodeOpcode_nParams {op : Nat} {w : Word} {rest : List Word} {i : Instr}
    (h : decodeOpcode op w rest = .ok i) : i.nParams ≤ rest.length := by
  unfold decodeOpcode at h
  split at h
  case h_3 | h_4 | h_9 =>
    obtain ⟨m1, r1, tail, rfl, -, rfl⟩ := decode1_ok h
    simp [Instr.nParams]
  case h_5 | h_6 =>
    obtain ⟨m1, m2, r1, r2, tail, rfl, -, -, rfl⟩ := decode2_ok h
    simp [Instr.nParams]
  case h_10 => cases h; simp [Instr.nParams]
  case h_11 => cases h
  all_goals
    obtain ⟨m1, m2, m3, r1, r2, r3, tail, rfl, -, -, -, rfl⟩ := decode3_ok h
    simp [Instr.nParams]

theorem decode_nParams {ws : List Word} {i : Instr} (h : decode ws = .ok i) : i.nParams < ws.length := by
  cases ws with
  | nil => cases h
  | cons w rest =>
    simp only [decode] at h
    split at h
    · cases h
    · have := decodeOpcode_nParams h
      simp; omega

theorem instrWord_toNat {o m1 m2 m3 : Nat} (ho : o ≤ 99) (h1 : m1 ≤ 2) (h2 : m2 ≤ 2) (h3 : m3 ≤ 2) :
    (instrWord o m1 m2 m3).toNat = o + 100 * m1 + 1000 * m2 + 10000 * m3 := by
  simp only [instrWord, BitVec.toNat_ofNat]
  omega

/-- A word below `2^63` is not negative. -/
theorem toInt_nonneg_of_toNat_lt {w : Word} (h : w.toNat < 2 ^ 63) : 0 ≤ w.toInt := by
  rw [BitVec.toInt_eq_toNat_cond]
  split <;> omega

theorem toNat_lt_of_toInt_nonneg {w : Word} (h : 0 ≤ w.toInt) : w.toNat < 2 ^ 63 := by
  rw [BitVec.toInt_eq_toNat_cond] at h
  have := w.isLt
  split at h <;> omega

end Sys2Proof
end

