-- ==== Sys2Proof/Laws/Queue.lean ====
section
/-! SUPPORT. Laws of the queue: what each operation can do (R121 to R124). -/

namespace Sys2Proof.Machine.Queue

@[simp] theorem closeProd_items (q : Queue) : q.closeProd.items = q.items := rfl
@[simp] theorem closeProd_prodClosed (q : Queue) : q.closeProd.prodClosed = true := rfl
@[simp] theorem closeProd_consGone (q : Queue) : q.closeProd.consGone = q.consGone := rfl
@[simp] theorem abandon_items (q : Queue) : q.abandon.items = q.items := rfl
@[simp] theorem abandon_prodClosed (q : Queue) : q.abandon.prodClosed = q.prodClosed := rfl
@[simp] theorem abandon_consGone (q : Queue) : q.abandon.consGone = true := rfl

/-- A successful `pop` takes the head and nothing else (R122). -/
theorem pop_got_iff {q q' : Queue} {v : Word} :
    q.pop = .got v q' ↔ q.items = v :: q'.items ∧ q'.prodClosed = q.prodClosed ∧ q'.consGone = q.consGone := by
  obtain ⟨items, pc, cg⟩ := q
  obtain ⟨items', pc', cg'⟩ := q'
  cases items with
  | nil => by_cases h : pc <;> simp [pop, h]
  | cons w rest => simp [pop]; grind

theorem pop_endOfStream_iff {q : Queue} : q.pop = .endOfStream ↔ q.items = [] ∧ q.prodClosed = true := by
  obtain ⟨items, pc, cg⟩ := q
  cases items <;> cases pc <;> simp [pop]

theorem pop_blocked_iff {q : Queue} : q.pop = .blocked ↔ q.items = [] ∧ q.prodClosed = false := by
  obtain ⟨items, pc, cg⟩ := q
  cases items <;> cases pc <;> simp [pop]

/-- A successful `push` appends at the tail and nothing else (R121). -/
theorem push_pushed_iff {d : Option Nat} {q q' : Queue} {v : Word} :
    q.push d v = .pushed q' ↔
      q.consGone = false ∧ q.hasRoom d = true ∧ q' = { q with items := q.items ++ [v] } := by
  unfold push
  cases hg : q.consGone <;> cases hr : q.hasRoom d <;> simp [eq_comm]

theorem push_gone_iff {d : Option Nat} {q : Queue} {v : Word} : q.push d v = .gone ↔ q.consGone = true := by
  unfold push
  cases hg : q.consGone <;> cases hr : q.hasRoom d <;> simp

theorem push_blocked_iff {d : Option Nat} {q : Queue} {v : Word} :
    q.push d v = .blocked ↔ q.consGone = false ∧ q.hasRoom d = false := by
  unfold push
  cases hg : q.consGone <;> cases hr : q.hasRoom d <;> simp

theorem fits_of_pop {d : Option Nat} {q q' : Queue} {v : Word} (h : q.pop = .got v q') (hf : q.fits d = true) :
    q'.fits d = true := by
  have := (pop_got_iff.mp h).1
  cases d with
  | none => rfl
  | some n => simp [fits, this] at hf ⊢; omega

theorem fits_of_push {d : Option Nat} {q q' : Queue} {v : Word} (h : q.push d v = .pushed q') :
    q'.fits d = true := by
  obtain ⟨-, hr, rfl⟩ := push_pushed_iff.mp h
  cases d with
  | none => rfl
  | some n => simpa [fits, hasRoom, Nat.succ_le_iff] using hr

@[simp] theorem fits_closeProd (d : Option Nat) (q : Queue) : q.closeProd.fits d = q.fits d := rfl
@[simp] theorem fits_abandon (d : Option Nat) (q : Queue) : q.abandon.fits d = q.fits d := rfl

end Sys2Proof.Machine.Queue
end

