-- ==== Sys2Proof/Laws/State.lean ====
section
/-! SUPPORT. The small lemmas of State: one for each field and each operation, and reading a core or a queue after an
operation. -/

namespace Sys2Proof.Machine.State

@[simp] theorem setQueue_cfg (s : State) (j : Nat) (q : Queue) : (s.setQueue j q).cfg = s.cfg := rfl
@[simp] theorem setQueue_cores (s : State) (j : Nat) (q : Queue) : (s.setQueue j q).cores = s.cores := rfl
@[simp] theorem setQueue_tap (s : State) (j : Nat) (q : Queue) : (s.setQueue j q).tap = s.tap := rfl
@[simp] theorem setQueue_tapValid (s : State) (j : Nat) (q : Queue) : (s.setQueue j q).tapValid = s.tapValid := rfl
@[simp] theorem setQueue_fwdDone (s : State) (j : Nat) (q : Queue) : (s.setQueue j q).fwdDone = s.fwdDone := rfl
@[simp] theorem setQueue_runEn (s : State) (j : Nat) (q : Queue) : (s.setQueue j q).runEn = s.runEn := rfl
@[simp] theorem setQueue_firstFailValid (s : State) (j : Nat) (q : Queue) : (s.setQueue j q).firstFailValid = s.firstFailValid := rfl
@[simp] theorem setQueue_firstFailId (s : State) (j : Nat) (q : Queue) : (s.setQueue j q).firstFailId = s.firstFailId := rfl
@[simp] theorem setQueue_cur (s : State) (j : Nat) (q : Queue) : (s.setQueue j q).cur = s.cur := rfl
@[simp] theorem setQueue_env (s : State) (j : Nat) (q : Queue) : (s.setQueue j q).env = s.env := rfl

@[simp] theorem setCore_cfg (s : State) (c : CoreState) : (s.setCore c).cfg = s.cfg := rfl
@[simp] theorem setCore_queues (s : State) (c : CoreState) : (s.setCore c).queues = s.queues := rfl
@[simp] theorem setCore_tap (s : State) (c : CoreState) : (s.setCore c).tap = s.tap := rfl
@[simp] theorem setCore_tapValid (s : State) (c : CoreState) : (s.setCore c).tapValid = s.tapValid := rfl
@[simp] theorem setCore_fwdDone (s : State) (c : CoreState) : (s.setCore c).fwdDone = s.fwdDone := rfl
@[simp] theorem setCore_runEn (s : State) (c : CoreState) : (s.setCore c).runEn = s.runEn := rfl
@[simp] theorem setCore_firstFailValid (s : State) (c : CoreState) : (s.setCore c).firstFailValid = s.firstFailValid := rfl
@[simp] theorem setCore_firstFailId (s : State) (c : CoreState) : (s.setCore c).firstFailId = s.firstFailId := rfl
@[simp] theorem setCore_cur (s : State) (c : CoreState) : (s.setCore c).cur = s.cur := rfl
@[simp] theorem setCore_env (s : State) (c : CoreState) : (s.setCore c).env = s.env := rfl

@[simp] theorem setInq_cfg (s : State) (q : Queue) : (s.setInq q).cfg = s.cfg := rfl
@[simp] theorem setInq_cores (s : State) (q : Queue) : (s.setInq q).cores = s.cores := rfl
@[simp] theorem setInq_tap (s : State) (q : Queue) : (s.setInq q).tap = s.tap := rfl
@[simp] theorem setInq_tapValid (s : State) (q : Queue) : (s.setInq q).tapValid = s.tapValid := rfl
@[simp] theorem setInq_fwdDone (s : State) (q : Queue) : (s.setInq q).fwdDone = s.fwdDone := rfl
@[simp] theorem setInq_runEn (s : State) (q : Queue) : (s.setInq q).runEn = s.runEn := rfl
@[simp] theorem setInq_firstFailValid (s : State) (q : Queue) : (s.setInq q).firstFailValid = s.firstFailValid := rfl
@[simp] theorem setInq_firstFailId (s : State) (q : Queue) : (s.setInq q).firstFailId = s.firstFailId := rfl
@[simp] theorem setInq_cur (s : State) (q : Queue) : (s.setInq q).cur = s.cur := rfl
@[simp] theorem setInq_env (s : State) (q : Queue) : (s.setInq q).env = s.env := rfl

@[simp] theorem setOutq_cfg (s : State) (q : Queue) : (s.setOutq q).cfg = s.cfg := rfl
@[simp] theorem setOutq_cores (s : State) (q : Queue) : (s.setOutq q).cores = s.cores := rfl
@[simp] theorem setOutq_tap (s : State) (q : Queue) : (s.setOutq q).tap = s.tap := rfl
@[simp] theorem setOutq_tapValid (s : State) (q : Queue) : (s.setOutq q).tapValid = s.tapValid := rfl
@[simp] theorem setOutq_fwdDone (s : State) (q : Queue) : (s.setOutq q).fwdDone = s.fwdDone := rfl
@[simp] theorem setOutq_runEn (s : State) (q : Queue) : (s.setOutq q).runEn = s.runEn := rfl
@[simp] theorem setOutq_firstFailValid (s : State) (q : Queue) : (s.setOutq q).firstFailValid = s.firstFailValid := rfl
@[simp] theorem setOutq_firstFailId (s : State) (q : Queue) : (s.setOutq q).firstFailId = s.firstFailId := rfl
@[simp] theorem setOutq_cur (s : State) (q : Queue) : (s.setOutq q).cur = s.cur := rfl
@[simp] theorem setOutq_env (s : State) (q : Queue) : (s.setOutq q).env = s.env := rfl

@[simp] theorem store_cfg (s : State) (a : Nat) (v : Word) : (s.store a v).cfg = s.cfg := rfl
@[simp] theorem store_queues (s : State) (a : Nat) (v : Word) : (s.store a v).queues = s.queues := rfl
@[simp] theorem store_tap (s : State) (a : Nat) (v : Word) : (s.store a v).tap = s.tap := rfl
@[simp] theorem store_tapValid (s : State) (a : Nat) (v : Word) : (s.store a v).tapValid = s.tapValid := rfl
@[simp] theorem store_fwdDone (s : State) (a : Nat) (v : Word) : (s.store a v).fwdDone = s.fwdDone := rfl
@[simp] theorem store_runEn (s : State) (a : Nat) (v : Word) : (s.store a v).runEn = s.runEn := rfl
@[simp] theorem store_firstFailValid (s : State) (a : Nat) (v : Word) : (s.store a v).firstFailValid = s.firstFailValid := rfl
@[simp] theorem store_firstFailId (s : State) (a : Nat) (v : Word) : (s.store a v).firstFailId = s.firstFailId := rfl
@[simp] theorem store_cur (s : State) (a : Nat) (v : Word) : (s.store a v).cur = s.cur := rfl
@[simp] theorem store_env (s : State) (a : Nat) (v : Word) : (s.store a v).env = s.env := rfl

@[simp] theorem jump_cfg (s : State) (p : Word) : (s.jump p).cfg = s.cfg := rfl
@[simp] theorem jump_queues (s : State) (p : Word) : (s.jump p).queues = s.queues := rfl
@[simp] theorem jump_tap (s : State) (p : Word) : (s.jump p).tap = s.tap := rfl
@[simp] theorem jump_tapValid (s : State) (p : Word) : (s.jump p).tapValid = s.tapValid := rfl
@[simp] theorem jump_fwdDone (s : State) (p : Word) : (s.jump p).fwdDone = s.fwdDone := rfl
@[simp] theorem jump_runEn (s : State) (p : Word) : (s.jump p).runEn = s.runEn := rfl
@[simp] theorem jump_firstFailValid (s : State) (p : Word) : (s.jump p).firstFailValid = s.firstFailValid := rfl
@[simp] theorem jump_firstFailId (s : State) (p : Word) : (s.jump p).firstFailId = s.firstFailId := rfl
@[simp] theorem jump_cur (s : State) (p : Word) : (s.jump p).cur = s.cur := rfl
@[simp] theorem jump_env (s : State) (p : Word) : (s.jump p).env = s.env := rfl

@[simp] theorem advance_cfg (s : State) (n : Nat) : (s.advance n).cfg = s.cfg := rfl
@[simp] theorem advance_queues (s : State) (n : Nat) : (s.advance n).queues = s.queues := rfl
@[simp] theorem advance_tap (s : State) (n : Nat) : (s.advance n).tap = s.tap := rfl
@[simp] theorem advance_tapValid (s : State) (n : Nat) : (s.advance n).tapValid = s.tapValid := rfl
@[simp] theorem advance_fwdDone (s : State) (n : Nat) : (s.advance n).fwdDone = s.fwdDone := rfl
@[simp] theorem advance_runEn (s : State) (n : Nat) : (s.advance n).runEn = s.runEn := rfl
@[simp] theorem advance_firstFailValid (s : State) (n : Nat) : (s.advance n).firstFailValid = s.firstFailValid := rfl
@[simp] theorem advance_firstFailId (s : State) (n : Nat) : (s.advance n).firstFailId = s.firstFailId := rfl
@[simp] theorem advance_cur (s : State) (n : Nat) : (s.advance n).cur = s.cur := rfl
@[simp] theorem advance_env (s : State) (n : Nat) : (s.advance n).env = s.env := rfl

@[simp] theorem setRb_cfg (s : State) (v : Word) : (s.setRb v).cfg = s.cfg := rfl
@[simp] theorem setRb_queues (s : State) (v : Word) : (s.setRb v).queues = s.queues := rfl
@[simp] theorem setRb_tap (s : State) (v : Word) : (s.setRb v).tap = s.tap := rfl
@[simp] theorem setRb_tapValid (s : State) (v : Word) : (s.setRb v).tapValid = s.tapValid := rfl
@[simp] theorem setRb_fwdDone (s : State) (v : Word) : (s.setRb v).fwdDone = s.fwdDone := rfl
@[simp] theorem setRb_runEn (s : State) (v : Word) : (s.setRb v).runEn = s.runEn := rfl
@[simp] theorem setRb_firstFailValid (s : State) (v : Word) : (s.setRb v).firstFailValid = s.firstFailValid := rfl
@[simp] theorem setRb_firstFailId (s : State) (v : Word) : (s.setRb v).firstFailId = s.firstFailId := rfl
@[simp] theorem setRb_cur (s : State) (v : Word) : (s.setRb v).cur = s.cur := rfl
@[simp] theorem setRb_env (s : State) (v : Word) : (s.setRb v).env = s.env := rfl

@[simp] theorem closePorts_cfg (s : State) : s.closePorts.cfg = s.cfg := rfl
@[simp] theorem closePorts_cores (s : State) : s.closePorts.cores = s.cores := rfl
@[simp] theorem closePorts_tap (s : State) : s.closePorts.tap = s.tap := rfl
@[simp] theorem closePorts_tapValid (s : State) : s.closePorts.tapValid = s.tapValid := rfl
@[simp] theorem closePorts_fwdDone (s : State) : s.closePorts.fwdDone = s.fwdDone := rfl
@[simp] theorem closePorts_runEn (s : State) : s.closePorts.runEn = s.runEn := rfl
@[simp] theorem closePorts_firstFailValid (s : State) : s.closePorts.firstFailValid = s.firstFailValid := rfl
@[simp] theorem closePorts_firstFailId (s : State) : s.closePorts.firstFailId = s.firstFailId := rfl
@[simp] theorem closePorts_cur (s : State) : s.closePorts.cur = s.cur := rfl
@[simp] theorem closePorts_env (s : State) : s.closePorts.env = s.env := rfl

@[simp] theorem halt_cfg (s : State) : s.halt.cfg = s.cfg := rfl
@[simp] theorem halt_tap (s : State) : s.halt.tap = s.tap := rfl
@[simp] theorem halt_tapValid (s : State) : s.halt.tapValid = s.tapValid := rfl
@[simp] theorem halt_fwdDone (s : State) : s.halt.fwdDone = s.fwdDone := rfl
@[simp] theorem halt_runEn (s : State) : s.halt.runEn = s.runEn := rfl
@[simp] theorem halt_firstFailValid (s : State) : s.halt.firstFailValid = s.firstFailValid := rfl
@[simp] theorem halt_firstFailId (s : State) : s.halt.firstFailId = s.firstFailId := rfl
@[simp] theorem halt_cur (s : State) : s.halt.cur = s.cur := rfl
@[simp] theorem halt_env (s : State) : s.halt.env = s.env := rfl

@[simp] theorem atCore_cfg (s : State) (i : Nat) : (s.atCore i).cfg = s.cfg := rfl
@[simp] theorem atCore_cores (s : State) (i : Nat) : (s.atCore i).cores = s.cores := rfl
@[simp] theorem atCore_queues (s : State) (i : Nat) : (s.atCore i).queues = s.queues := rfl
@[simp] theorem atCore_tap (s : State) (i : Nat) : (s.atCore i).tap = s.tap := rfl
@[simp] theorem atCore_tapValid (s : State) (i : Nat) : (s.atCore i).tapValid = s.tapValid := rfl
@[simp] theorem atCore_fwdDone (s : State) (i : Nat) : (s.atCore i).fwdDone = s.fwdDone := rfl
@[simp] theorem atCore_runEn (s : State) (i : Nat) : (s.atCore i).runEn = s.runEn := rfl
@[simp] theorem atCore_firstFailValid (s : State) (i : Nat) : (s.atCore i).firstFailValid = s.firstFailValid := rfl
@[simp] theorem atCore_firstFailId (s : State) (i : Nat) : (s.atCore i).firstFailId = s.firstFailId := rfl
@[simp] theorem atCore_env (s : State) (i : Nat) : (s.atCore i).env = s.env := rfl
@[simp] theorem atCore_cur (s : State) (i : Nat) : (s.atCore i).cur = i := rfl
@[simp] theorem inq_atCore (s : State) (i : Nat) : (s.atCore i).inq = s.queueAt i := rfl
@[simp] theorem outq_atCore (s : State) (i : Nat) : (s.atCore i).outq = s.queueAt (i + 1) := rfl

@[simp] theorem dropHostAct_cfg (s : State) : s.dropHostAct.cfg = s.cfg := rfl
@[simp] theorem dropHostAct_cores (s : State) : s.dropHostAct.cores = s.cores := rfl
@[simp] theorem dropHostAct_queues (s : State) : s.dropHostAct.queues = s.queues := rfl
@[simp] theorem dropHostAct_tap (s : State) : s.dropHostAct.tap = s.tap := rfl
@[simp] theorem dropHostAct_tapValid (s : State) : s.dropHostAct.tapValid = s.tapValid := rfl
@[simp] theorem dropHostAct_fwdDone (s : State) : s.dropHostAct.fwdDone = s.fwdDone := rfl
@[simp] theorem dropHostAct_runEn (s : State) : s.dropHostAct.runEn = s.runEn := rfl
@[simp] theorem dropHostAct_firstFailValid (s : State) : s.dropHostAct.firstFailValid = s.firstFailValid := rfl
@[simp] theorem dropHostAct_firstFailId (s : State) : s.dropHostAct.firstFailId = s.firstFailId := rfl
@[simp] theorem dropHostAct_cur (s : State) : s.dropHostAct.cur = s.cur := rfl

@[simp] theorem latchFail_cfg (s : State) : s.latchFail.cfg = s.cfg := by
  unfold latchFail; split <;> rfl
@[simp] theorem latchFail_cores (s : State) : s.latchFail.cores = s.cores := by
  unfold latchFail; split <;> rfl
@[simp] theorem latchFail_queues (s : State) : s.latchFail.queues = s.queues := by
  unfold latchFail; split <;> rfl
@[simp] theorem latchFail_tap (s : State) : s.latchFail.tap = s.tap := by
  unfold latchFail; split <;> rfl
@[simp] theorem latchFail_tapValid (s : State) : s.latchFail.tapValid = s.tapValid := by
  unfold latchFail; split <;> rfl
@[simp] theorem latchFail_fwdDone (s : State) : s.latchFail.fwdDone = s.fwdDone := by
  unfold latchFail; split <;> rfl
@[simp] theorem latchFail_runEn (s : State) : s.latchFail.runEn = s.runEn := by
  unfold latchFail; split <;> rfl
@[simp] theorem latchFail_cur (s : State) : s.latchFail.cur = s.cur := by
  unfold latchFail; split <;> rfl
@[simp] theorem latchFail_env (s : State) : s.latchFail.env = s.env := by
  unfold latchFail; split <;> rfl
@[simp] theorem raise_cfg (s : State) (e : CoreError) : (s.raise e).cfg = s.cfg := by simp [raise]
@[simp] theorem raise_tap (s : State) (e : CoreError) : (s.raise e).tap = s.tap := by simp [raise]
@[simp] theorem raise_tapValid (s : State) (e : CoreError) : (s.raise e).tapValid = s.tapValid := by simp [raise]
@[simp] theorem raise_fwdDone (s : State) (e : CoreError) : (s.raise e).fwdDone = s.fwdDone := by simp [raise]
@[simp] theorem raise_runEn (s : State) (e : CoreError) : (s.raise e).runEn = s.runEn := by simp [raise]
@[simp] theorem raise_cur (s : State) (e : CoreError) : (s.raise e).cur = s.cur := by simp [raise]
@[simp] theorem raise_env (s : State) (e : CoreError) : (s.raise e).env = s.env := by simp [raise]
@[simp] theorem passTurn_cfg (s : State) : s.passTurn.cfg = s.cfg := by
  unfold passTurn; split <;> rfl
@[simp] theorem passTurn_cores (s : State) : s.passTurn.cores = s.cores := by
  unfold passTurn; split <;> rfl
@[simp] theorem passTurn_queues (s : State) : s.passTurn.queues = s.queues := by
  unfold passTurn; split <;> rfl
@[simp] theorem passTurn_tap (s : State) : s.passTurn.tap = s.tap := by
  unfold passTurn; split <;> rfl
@[simp] theorem passTurn_tapValid (s : State) : s.passTurn.tapValid = s.tapValid := by
  unfold passTurn; split <;> rfl
@[simp] theorem passTurn_fwdDone (s : State) : s.passTurn.fwdDone = s.fwdDone := by
  unfold passTurn; split <;> rfl
@[simp] theorem passTurn_runEn (s : State) : s.passTurn.runEn = s.runEn := by
  unfold passTurn; split <;> rfl
@[simp] theorem passTurn_firstFailValid (s : State) : s.passTurn.firstFailValid = s.firstFailValid := by
  unfold passTurn; split <;> rfl
@[simp] theorem passTurn_firstFailId (s : State) : s.passTurn.firstFailId = s.firstFailId := by
  unfold passTurn; split <;> rfl
@[simp] theorem passTurn_cur (s : State) : s.passTurn.cur = s.cur := by
  unfold passTurn; split <;> rfl

@[simp] theorem passTurn_hostActs (s : State) : s.passTurn.env.hostActs = s.env.hostActs := by
  unfold passTurn; split <;> rfl
@[simp] theorem passTurn_hostGot (s : State) : s.passTurn.env.hostGot = s.env.hostGot := by
  unfold passTurn; split <;> rfl

@[simp] theorem latchFail_firstFailValid (s : State) : s.latchFail.firstFailValid = true := by
  unfold latchFail; split
  · assumption
  · rfl
theorem latchFail_firstFailId (s : State) :
    s.latchFail.firstFailId = if s.firstFailValid then s.firstFailId else s.cur := by
  unfold latchFail; split <;> simp_all
@[simp] theorem raise_firstFailValid (s : State) (e : CoreError) : (s.raise e).firstFailValid = true := by
  simp [raise]
theorem raise_firstFailId (s : State) (e : CoreError) :
    (s.raise e).firstFailId = if s.firstFailValid then s.firstFailId else s.cur := by
  rw [raise, latchFail_firstFailId]; rfl

/-! Reading cores and queues through the lists. -/

theorem coreAt_congr {s t : State} (h : s.cores = t.cores) (i : Nat) : s.coreAt i = t.coreAt i := by
  simp [coreAt, h]
theorem queueAt_congr {s t : State} (h : s.queues = t.queues) (j : Nat) : s.queueAt j = t.queueAt j := by
  simp [queueAt, h]

theorem getD_set {α : Type} (l : List α) (i j : Nat) (x d : α) :
    (l.set i x).getD j d = if j = i ∧ i < l.length then x else l.getD j d := by
  by_cases h : j = i
  · subst h
    by_cases hl : j < l.length
    · simp [hl]
    · rw [List.set_eq_of_length_le (by omega)]; simp [hl]
  · simp [h, Ne.symm h]

theorem coreAt_setCore (s : State) (c : CoreState) (i : Nat) :
    (s.setCore c).coreAt i = if i = s.cur ∧ s.cur < s.cores.length then c else s.coreAt i :=
  getD_set _ _ _ _ _

theorem queueAt_setQueue (s : State) (j k : Nat) (q : Queue) :
    (s.setQueue j q).queueAt k = if k = j ∧ j < s.queues.length then q else s.queueAt k :=
  getD_set _ _ _ _ _

@[simp] theorem core_setCore {s : State} (h : s.cur < s.cores.length) (c : CoreState) : (s.setCore c).core = c := by
  simp [core, coreAt_setCore, h]

theorem coreAt_setCore_other {s : State} {i : Nat} (h : i ≠ s.cur) (c : CoreState) :
    (s.setCore c).coreAt i = s.coreAt i := by simp [coreAt_setCore, h]

theorem queueAt_setQueue_same {s : State} {j : Nat} (h : j < s.queues.length) (q : Queue) :
    (s.setQueue j q).queueAt j = q := by simp [queueAt_setQueue, h]

theorem queueAt_setQueue_other {s : State} {j k : Nat} (h : k ≠ j) (q : Queue) :
    (s.setQueue j q).queueAt k = s.queueAt k := by simp [queueAt_setQueue, h]

@[simp] theorem coreAt_setQueue (s : State) (j i : Nat) (q : Queue) : (s.setQueue j q).coreAt i = s.coreAt i := rfl
@[simp] theorem coreAt_setInq (s : State) (i : Nat) (q : Queue) : (s.setInq q).coreAt i = s.coreAt i := rfl
@[simp] theorem coreAt_setOutq (s : State) (i : Nat) (q : Queue) : (s.setOutq q).coreAt i = s.coreAt i := rfl
@[simp] theorem coreAt_closePorts (s : State) (i : Nat) : s.closePorts.coreAt i = s.coreAt i := rfl
@[simp] theorem coreAt_latchFail (s : State) (i : Nat) : s.latchFail.coreAt i = s.coreAt i :=
  coreAt_congr (by simp) i
@[simp] theorem coreAt_atCore (s : State) (i j : Nat) : (s.atCore j).coreAt i = s.coreAt i := rfl
@[simp] theorem coreAt_passTurn (s : State) (i : Nat) : s.passTurn.coreAt i = s.coreAt i := coreAt_congr (by simp) i
@[simp] theorem coreAt_dropHostAct (s : State) (i : Nat) : s.dropHostAct.coreAt i = s.coreAt i := rfl
@[simp] theorem core_setQueue (s : State) (j : Nat) (q : Queue) : (s.setQueue j q).core = s.core := rfl
@[simp] theorem core_setInq (s : State) (q : Queue) : (s.setInq q).core = s.core := rfl
@[simp] theorem core_setOutq (s : State) (q : Queue) : (s.setOutq q).core = s.core := rfl
@[simp] theorem core_closePorts (s : State) : s.closePorts.core = s.core := rfl
@[simp] theorem core_latchFail (s : State) : s.latchFail.core = s.core := by simp [core]
@[simp] theorem core_atCore (s : State) (i : Nat) : (s.atCore i).core = s.coreAt i := rfl

@[simp] theorem queueAt_setCore (s : State) (j : Nat) (c : CoreState) : (s.setCore c).queueAt j = s.queueAt j := rfl
@[simp] theorem queueAt_store (s : State) (j a : Nat) (v : Word) : (s.store a v).queueAt j = s.queueAt j := rfl
@[simp] theorem queueAt_jump (s : State) (j : Nat) (p : Word) : (s.jump p).queueAt j = s.queueAt j := rfl
@[simp] theorem queueAt_advance (s : State) (j n : Nat) : (s.advance n).queueAt j = s.queueAt j := rfl
@[simp] theorem queueAt_setRb (s : State) (j : Nat) (v : Word) : (s.setRb v).queueAt j = s.queueAt j := rfl
@[simp] theorem queueAt_latchFail (s : State) (j : Nat) : s.latchFail.queueAt j = s.queueAt j :=
  queueAt_congr (by simp) j
@[simp] theorem queueAt_atCore (s : State) (i j : Nat) : (s.atCore i).queueAt j = s.queueAt j := rfl
@[simp] theorem queueAt_passTurn (s : State) (j : Nat) : s.passTurn.queueAt j = s.queueAt j :=
  queueAt_congr (by simp) j
@[simp] theorem queueAt_dropHostAct (s : State) (j : Nat) : s.dropHostAct.queueAt j = s.queueAt j := rfl

@[simp] theorem setCore_length (s : State) (c : CoreState) : (s.setCore c).cores.length = s.cores.length := by
  simp [setCore]
@[simp] theorem setQueue_length (s : State) (j : Nat) (q : Queue) :
    (s.setQueue j q).queues.length = s.queues.length := by simp [setQueue]
@[simp] theorem setInq_length (s : State) (q : Queue) : (s.setInq q).queues.length = s.queues.length := by
  simp [setInq]
@[simp] theorem setOutq_length (s : State) (q : Queue) : (s.setOutq q).queues.length = s.queues.length := by
  simp [setOutq]
@[simp] theorem closePorts_length (s : State) : s.closePorts.queues.length = s.queues.length := by
  simp [closePorts]
@[simp] theorem store_length (s : State) (a : Nat) (v : Word) : (s.store a v).cores.length = s.cores.length := by
  simp [store]
@[simp] theorem jump_length (s : State) (p : Word) : (s.jump p).cores.length = s.cores.length := by simp [jump]
@[simp] theorem advance_length (s : State) (n : Nat) : (s.advance n).cores.length = s.cores.length := by
  simp [advance]
@[simp] theorem setRb_length (s : State) (v : Word) : (s.setRb v).cores.length = s.cores.length := by simp [setRb]

/-! The current core after each operation. -/

theorem core_store {s : State} (h : s.cur < s.cores.length) (a : Nat) (v : Word) :
    (s.store a v).core = { s.core with tape := s.core.tape.write a v } := core_setCore h _
theorem core_jump {s : State} (h : s.cur < s.cores.length) (p : Word) :
    (s.jump p).core = { s.core with pc := p } := core_setCore h _
theorem core_advance {s : State} (h : s.cur < s.cores.length) (n : Nat) :
    (s.advance n).core = { s.core with pc := s.core.pc + BitVec.ofNat 64 n } := core_setCore h _
theorem core_setRb {s : State} (h : s.cur < s.cores.length) (v : Word) :
    (s.setRb v).core = { s.core with rb := v } := core_setCore h _
theorem core_halt {s : State} (h : s.cur < s.cores.length) :
    s.halt.core = { s.core with status := .halted } := by
  rw [halt, core_closePorts, core_setCore h]
theorem core_raise {s : State} (h : s.cur < s.cores.length) (e : CoreError) :
    (s.raise e).core = { s.core with status := .faulted, fault := e.record s.core.pc } := by
  rw [raise, core_latchFail, core_closePorts, core_setCore h]

/-- No operation on the current core touches another core (R25). -/
theorem coreAt_store_other {s : State} {i : Nat} (h : i ≠ s.cur) (a : Nat) (v : Word) :
    (s.store a v).coreAt i = s.coreAt i := coreAt_setCore_other h _
theorem coreAt_jump_other {s : State} {i : Nat} (h : i ≠ s.cur) (p : Word) :
    (s.jump p).coreAt i = s.coreAt i := coreAt_setCore_other h _
theorem coreAt_advance_other {s : State} {i : Nat} (h : i ≠ s.cur) (n : Nat) :
    (s.advance n).coreAt i = s.coreAt i := coreAt_setCore_other h _
theorem coreAt_setRb_other {s : State} {i : Nat} (h : i ≠ s.cur) (v : Word) :
    (s.setRb v).coreAt i = s.coreAt i := coreAt_setCore_other h _
theorem coreAt_halt_other {s : State} {i : Nat} (h : i ≠ s.cur) : s.halt.coreAt i = s.coreAt i := by
  rw [halt, coreAt_closePorts, coreAt_setCore_other h]
theorem coreAt_raise_other {s : State} {i : Nat} (h : i ≠ s.cur) (e : CoreError) :
    (s.raise e).coreAt i = s.coreAt i := by
  rw [raise, coreAt_latchFail, coreAt_closePorts, coreAt_setCore_other h]

/-- What a termination leaves in each queue (R130). -/
theorem queueAt_closePorts (s : State) (j : Nat) :
    s.closePorts.queueAt j =
      if j = s.cur ∧ s.cur < s.queues.length then (s.queueAt j).abandon
      else if j = s.cur + 1 ∧ s.cur + 1 < s.queues.length then (s.queueAt j).closeProd
      else s.queueAt j := by
  simp only [closePorts, setInq, inq, setOutq, outq, queueAt_setQueue, setQueue_cur, setQueue_length]
  grind

theorem queueAt_raise (s : State) (e : CoreError) (j : Nat) :
    (s.raise e).queueAt j = s.closePorts.queueAt j := by
  rw [raise, queueAt_latchFail, queueAt_closePorts, queueAt_closePorts]; rfl
theorem queueAt_halt (s : State) (j : Nat) : s.halt.queueAt j = s.closePorts.queueAt j := by
  rw [halt, queueAt_closePorts, queueAt_closePorts]; rfl

@[simp] theorem raise_coresLength (s : State) (e : CoreError) : (s.raise e).cores.length = s.cores.length := by
  simp [raise]
@[simp] theorem raise_queuesLength (s : State) (e : CoreError) : (s.raise e).queues.length = s.queues.length := by
  simp [raise]
@[simp] theorem halt_coresLength (s : State) : s.halt.cores.length = s.cores.length := by simp [halt]
@[simp] theorem halt_queuesLength (s : State) : s.halt.queues.length = s.queues.length := by simp [halt]

end Sys2Proof.Machine.State
end

