-- ==== Sys2Proof/Laws/Tape.lean ====
section
/-! SUPPORT. Laws of the tape: read after write, length, canonical form (R41, R42). -/

namespace Sys2Proof.Machine

theorem cellsRead_insert (cells : List Cell) (a b : Nat) (v : Word) :
    cellsRead (cellsInsert cells a v) b = if b = a then v else cellsRead cells b := by
  induction cells with
  | nil =>
    by_cases h : b = a
    · simp [cellsInsert, cellsRead, h]
    · simp [cellsInsert, cellsRead, h, Ne.symm h]
  | cons c rest ih =>
    obtain ⟨x, w⟩ := c
    simp only [cellsInsert]
    split
    · by_cases h : b = a
      · simp [cellsRead, h]
      · simp [cellsRead, h]; omega
    · split
      · subst x
        by_cases h : b = a
        · simp [cellsRead, h]
        · simp [cellsRead, h, Ne.symm h]
      · simp only [cellsRead, ih]
        by_cases h : b = a
        · subst h; simp; omega
        · simp [h]

theorem cellsRead_filter (p : Nat → Bool) (cells : List Cell) (b : Nat) :
    cellsRead (cells.filter (fun c => p c.1)) b = if p b then cellsRead cells b else unlistedWord := by
  induction cells with
  | nil => simp [cellsRead]
  | cons c rest ih =>
    obtain ⟨x, w⟩ := c
    by_cases hx : x = b
    · subst hx
      by_cases hp : p x <;> simp [List.filter, hp, cellsRead, ih]
    · by_cases hp : p x <;> simp [List.filter, hp, cellsRead, ih, hx]

theorem cellsRead_put (cells : List Cell) (a b : Nat) (v : Word) :
    cellsRead (cellsPut cells a v) b = if b = a then v else cellsRead cells b := by
  unfold cellsPut
  split
  · rename_i hv
    rw [cellsRead_filter (fun x => x != a)]
    by_cases h : b = a <;> simp [h, hv]
  · exact cellsRead_insert cells a b v

namespace Tape

@[simp] theorem read_ofLen (t : Tape) (a : Nat) (h : t.len ≤ a) : t.read a = 0 := by
  simp [read, Nat.not_lt.mpr h]

/-- What a write leaves in every address (R42): the word written, and everything else as it read before. -/
theorem read_write (t : Tape) (a b : Nat) (v : Word) :
    (t.write a v).read b = if b = a then v else t.read b := by
  unfold write
  split
  · rename_i h
    by_cases hb : b = a
    · subst hb; simp [read, cellsRead_put, h]
    · simp [read, cellsRead_put, hb]
  · rename_i h
    by_cases hb : b = a
    · subst hb; simp [read, cellsRead_put]
    · simp only [read, cellsRead_put, hb, if_false, cellsRead_filter (fun x => decide (x < t.len)), unlistedWord]
      by_cases h1 : b < t.len
      · have : b < a + 1 := by omega
        simp [h1, this]
      · simp [h1]

@[simp] theorem read_write_same (t : Tape) (a : Nat) (v : Word) : (t.write a v).read a = v := by
  simp [read_write]

theorem read_write_other (t : Tape) {a b : Nat} (v : Word) (h : b ≠ a) : (t.write a v).read b = t.read b := by
  simp [read_write, h]

/-- `LEN` after a write (R42, R43). -/
@[simp] theorem len_write (t : Tape) (a : Nat) (v : Word) : (t.write a v).len = max t.len (a + 1) := by
  unfold write
  split <;> simp <;> omega

end Tape

theorem cellsCanonical_mono {lo lo' hi hi' : Nat} {cells : List Cell} (h : cellsCanonical lo hi cells = true)
    (hlo : lo' ≤ lo) (hhi : hi ≤ hi') : cellsCanonical lo' hi' cells = true := by
  induction cells generalizing lo lo' with
  | nil => rfl
  | cons c rest ih =>
    obtain ⟨x, w⟩ := c
    simp only [cellsCanonical, Bool.and_eq_true, decide_eq_true_eq] at h ⊢
    exact ⟨⟨⟨by omega, by omega⟩, h.1.2⟩, ih h.2 (Nat.le_refl _)⟩

theorem cellsCanonical_filter {lo hi : Nat} {cells : List Cell} (p : Cell → Bool)
    (h : cellsCanonical lo hi cells = true) : cellsCanonical lo hi (cells.filter p) = true := by
  induction cells generalizing lo with
  | nil => rfl
  | cons c rest ih =>
    obtain ⟨x, w⟩ := c
    simp only [cellsCanonical, Bool.and_eq_true, decide_eq_true_eq] at h
    by_cases hp : p (x, w)
    · simp only [List.filter, hp, cellsCanonical, Bool.and_eq_true, decide_eq_true_eq]
      exact ⟨h.1, ih h.2⟩
    · simp only [List.filter, hp]
      exact cellsCanonical_mono (ih h.2) (by omega) (Nat.le_refl _)

theorem cellsCanonical_insert {lo hi a : Nat} {v : Word} {cells : List Cell}
    (h : cellsCanonical lo hi cells = true) (hlo : lo ≤ a) (hhi : a < hi) (hv : v ≠ unlistedWord) :
    cellsCanonical lo hi (cellsInsert cells a v) = true := by
  induction cells generalizing lo with
  | nil => simp [cellsInsert, cellsCanonical, hlo, hhi, hv]
  | cons c rest ih =>
    obtain ⟨x, w⟩ := c
    simp only [cellsCanonical, Bool.and_eq_true, decide_eq_true_eq] at h
    simp only [cellsInsert]
    split
    · simp only [cellsCanonical, Bool.and_eq_true, decide_eq_true_eq]
      exact ⟨⟨⟨hlo, hhi⟩, hv⟩, ⟨⟨by omega, h.1.1.2⟩, h.1.2⟩, h.2⟩
    · split
      · subst x
        simp only [cellsCanonical, Bool.and_eq_true, decide_eq_true_eq]
        exact ⟨⟨⟨hlo, hhi⟩, hv⟩, h.2⟩
      · simp only [cellsCanonical, Bool.and_eq_true, decide_eq_true_eq]
        exact ⟨h.1, ih h.2 (by omega)⟩

theorem cellsCanonical_put {lo hi a : Nat} (v : Word) {cells : List Cell}
    (h : cellsCanonical lo hi cells = true) (hlo : lo ≤ a) (hhi : a < hi) :
    cellsCanonical lo hi (cellsPut cells a v) = true := by
  unfold cellsPut
  split
  · exact cellsCanonical_filter _ h
  · rename_i hv
    exact cellsCanonical_insert h hlo hhi hv

theorem cellsCanonical_imageCells (img : List Word) (a hi : Nat) (h : a + img.length ≤ hi) :
    cellsCanonical a hi (imageCells a img) = true := by
  induction img generalizing a with
  | nil => rfl
  | cons v rest ih =>
    simp only [List.length_cons] at h
    have := ih (a + 1) (by omega)
    simp only [imageCells]
    split
    · exact cellsCanonical_mono this (by omega) (Nat.le_refl _)
    · rename_i hv
      simp only [cellsCanonical, Bool.and_eq_true, decide_eq_true_eq]
      exact ⟨⟨⟨Nat.le_refl _, by omega⟩, hv⟩, this⟩

namespace Tape

/-- A write keeps the canonical form. -/
theorem wf_write {t : Tape} (h : t.wf = true) (a : Nat) (v : Word) : (t.write a v).wf = true := by
  unfold wf at h ⊢
  unfold write
  split
  · rename_i ha
    exact cellsCanonical_put v h (Nat.zero_le _) ha
  · rename_i ha
    have hm := cellsCanonical_mono (cellsCanonical_filter (fun c => decide (c.1 < t.len)) h) (Nat.le_refl 0)
      (show t.len ≤ a + 1 by omega)
    exact cellsCanonical_put v hm (Nat.zero_le _) (Nat.lt_succ_self _)

theorem wf_ofImage (img : List Word) : (ofImage img).wf = true :=
  cellsCanonical_imageCells img 0 _ (by simp [ofImage])

/-- The image is what the tape reads as after reset (R14, R26). -/
theorem read_imageCells (img : List Word) (a b : Nat) :
    cellsRead (imageCells a img) (a + b) = img.getD b 0 := by
  induction img generalizing a b with
  | nil => simp [imageCells, cellsRead, unlistedWord]
  | cons v rest ih =>
    have hnil : ∀ (l : List Word) (c d : Nat), d < c → cellsRead (imageCells c l) d = unlistedWord := by
      intro l
      induction l with
      | nil => intros; rfl
      | cons x l ihl =>
        intro c d hcd
        simp only [imageCells]
        split
        · exact ihl _ _ (by omega)
        · simp only [cellsRead]
          rw [if_neg (by omega), ihl _ _ (by omega)]
    cases b with
    | zero =>
      simp only [imageCells, Nat.add_zero]
      split
      · rename_i hv
        rw [hnil _ _ _ (Nat.lt_succ_self a)]
        simp [hv]
      · simp [cellsRead]
    | succ b =>
      have := ih (a + 1) b
      simp only [imageCells]
      rw [show a + (b + 1) = a + 1 + b by omega]
      split
      · rw [this]; simp
      · simp only [cellsRead]
        rw [if_neg (by omega), this]
        simp

theorem read_ofImage (img : List Word) (a : Nat) : (ofImage img).read a = img.getD a 0 := by
  have := read_imageCells img 0 a
  rw [Nat.zero_add] at this
  unfold read ofImage
  split
  · exact this
  · rename_i h
    simp at h
    simp [List.getElem?_eq_none h]

theorem wordsFrom_length_le (t : Tape) (a n : Nat) : (t.wordsFrom a n).length ≤ n := by
  induction n generalizing a with
  | zero => simp [wordsFrom]
  | succ n ih =>
    unfold wordsFrom
    split
    · simpa using ih (a + 1)
    · simp

/-- A word that is there lies below `LEN` (R60, R68). -/
theorem lt_len_of_wordsFrom {t : Tape} {a n k : Nat} (h : k < (t.wordsFrom a n).length) : a + k < t.len := by
  induction n generalizing a k with
  | zero => simp [wordsFrom] at h
  | succ n ih =>
    unfold wordsFrom at h
    split at h
    · cases k with
      | zero => simpa
      | succ k =>
        have := ih (a := a + 1) (k := k) (by simpa using h)
        omega
    · simp at h

end Tape

end Sys2Proof.Machine
end

