-- ==== Sys2Proof/Laws/Exec.lean ====
section
/-! SUPPORT. Once and for all: what the resolver answers, and everything one instruction can do (R70, R71, R75). -/

namespace Sys2Proof.Machine

/-! Word arithmetic. -/

theorem aluAdd_eq (x y : Word) : aluAdd x y = x + y := by
  simp [aluAdd, wrap64, BitVec.ofInt_add]

theorem aluMul_eq (x y : Word) : aluMul x y = x * y := by
  simp [aluMul, wrap64, BitVec.ofInt_mul]

/-! The resolver. -/

theorem checkTarget_ok {n maxlen t : Nat} {a : Word} (h : checkTarget n a maxlen = .ok t) :
    0 ≤ a.toInt ∧ t = a.toNat ∧ t < maxlen := by
  unfold checkTarget at h
  split at h
  · cases h
  · split at h
    · cases h
    · cases h
      exact ⟨by omega, rfl, by omega⟩

/-- A resolved write target is a legal address below `MAXLEN` (R71, R74). -/
theorem resolveW_ok {n maxlen t : Nat} {p : Param} {c : CoreState} (h : resolveW n p maxlen c = .ok t) :
    p.mode ≠ .immediate ∧ 0 ≤ (effectiveAddress c.rb p).toInt ∧ t = (effectiveAddress c.rb p).toNat ∧ t < maxlen := by
  unfold resolveW at h
  split at h
  · rename_i hm; exact ⟨by simp [hm], checkTarget_ok h⟩
  · cases h
  · rename_i hm; exact ⟨by simp [hm], checkTarget_ok h⟩

theorem target_lt {s : State} {n t : Nat} {p : Param} (h : s.target n p = .ok t) : t < s.cfg.maxlen :=
  (resolveW_ok h).2.2.2

/-- Everything one instruction can do to the state (R75 step 6, R166). -/
inductive Effect (s : State) : Instr → State → Prop where
  /-- IN or OUT waits: nothing changes. -/
  | waits {i : Instr} (h : waits i s = true) : Effect s i s
  | raises {i : Instr} (e : CoreError) : Effect s i (s.raise e)
  | stores {i : Instr} (hi : i.nParams = 3) (a : Nat) (v : Word) (ha : a < s.cfg.maxlen) :
      Effect s i ((s.store a v).advance 4)
  | takes {d : Param} (v : Word) (q : Queue) (a : Nat) (hq : s.inq.pop = .got v q) (ha : a < s.cfg.maxlen) :
      Effect s (.inp d) (((s.setInq q).store a v).advance 2)
  | sends {a : Param} (v : Word) (q : Queue) (hq : s.outq.push s.cfg.qdepth v = .pushed q) :
      Effect s (.out a) ((s.setOutq q).advance 2)
  | jumps {i : Instr} (hi : i.nParams = 2) (y : Word) (hy : 0 ≤ y.toInt) : Effect s i (s.jump y)
  | falls {i : Instr} (hi : i.nParams = 2) : Effect s i (s.advance 3)
  | adjusts {a : Param} (v : Word) : Effect s (.arb a) ((s.setRb v).advance 2)
  | halts : Effect s .hlt s.halt

theorem execRRW_effect {i : Instr} (hi : i.nParams = 3) (f : Word → Word → Word) (a b d : Param) (s : State) :
    ∃ t, execRRW f a b d s = .next t ∧ Effect s i t := by
  unfold execRRW
  split
  · exact ⟨_, rfl, .raises _⟩
  · split
    · exact ⟨_, rfl, .raises _⟩
    · split
      · exact ⟨_, rfl, .raises _⟩
      · rename_i h
        exact ⟨_, rfl, .stores hi _ _ (target_lt h)⟩

theorem execJumpIf_effect {i : Instr} (hi : i.nParams = 2) (p : Word → Bool) (a t : Param) (s : State) :
    ∃ s', execJumpIf p a t s = .next s' ∧ Effect s i s' := by
  unfold execJumpIf
  split
  · exact ⟨_, rfl, .raises _⟩
  · split
    · exact ⟨_, rfl, .raises _⟩
    · split
      · split
        · exact ⟨_, rfl, .raises _⟩
        · exact ⟨_, rfl, .jumps hi _ (by omega)⟩
      · exact ⟨_, rfl, .falls hi⟩

theorem execInp_effect (d : Param) (s : State) : ∃ t, execInp d s = .next t ∧ Effect s (.inp d) t := by
  unfold execInp
  split
  · exact ⟨_, rfl, .raises _⟩
  · rename_i t h
    split
    · rename_i v q hq
      exact ⟨_, rfl, .takes v q t hq (target_lt h)⟩
    · exact ⟨_, rfl, .raises _⟩
    · rename_i hq
      exact ⟨_, rfl, .waits (by simp [waits, h, hq])⟩

theorem execOut_effect (a : Param) (s : State) : ∃ t, execOut a s = .next t ∧ Effect s (.out a) t := by
  unfold execOut
  split
  · exact ⟨_, rfl, .raises _⟩
  · rename_i x h
    split
    · rename_i q hq
      exact ⟨_, rfl, .sends x q hq⟩
    · exact ⟨_, rfl, .raises _⟩
    · rename_i hq
      exact ⟨_, rfl, .waits (by simp [waits, h, hq])⟩

theorem execArb_effect (a : Param) (s : State) : ∃ t, execArb a s = .next t ∧ Effect s (.arb a) t := by
  unfold execArb
  split
  · exact ⟨_, rfl, .raises _⟩
  · exact ⟨_, rfl, .adjusts _⟩

/-- One case analysis for all later proofs: an instruction answers a next state, and it is one of the effects. -/
theorem exec_effect (i : Instr) (s : State) : ∃ t, exec i s = .next t ∧ Effect s i t := by
  cases i with
  | add a b d => exact execRRW_effect rfl _ a b d s
  | mul a b d => exact execRRW_effect rfl _ a b d s
  | inp d => exact execInp_effect d s
  | out a => exact execOut_effect a s
  | jnz a t => exact execJumpIf_effect rfl _ a t s
  | jz a t => exact execJumpIf_effect rfl _ a t s
  | lt a b d => exact execRRW_effect rfl _ a b d s
  | eq a b d => exact execRRW_effect rfl _ a b d s
  | arb a => exact execArb_effect a s
  | hlt => exact ⟨_, rfl, .halts⟩

theorem effect_of_exec {i : Instr} {s t : State} (h : exec i s = .next t) : Effect s i t := by
  obtain ⟨t', h', he⟩ := exec_effect i s
  rw [h] at h'
  cases h'
  exact he

/-! What every effect keeps. -/

namespace Effect

variable {s t : State} {i : Instr}

theorem keeps_arbiter (h : Effect s i t) :
    t.cfg = s.cfg ∧ t.tap = s.tap ∧ t.tapValid = s.tapValid ∧ t.fwdDone = s.fwdDone ∧ t.runEn = s.runEn
      ∧ t.cur = s.cur ∧ t.env = s.env := by
  cases h <;> simp

theorem coresLength (h : Effect s i t) : t.cores.length = s.cores.length := by
  cases h <;> simp

theorem queuesLength (h : Effect s i t) : t.queues.length = s.queues.length := by
  cases h <;> simp

/-- R25: no other core changes. -/
theorem coreAt_other (h : Effect s i t) {j : Nat} (hj : j ≠ s.cur) : t.coreAt j = s.coreAt j := by
  cases h with
  | waits h => rfl
  | raises e => exact State.coreAt_raise_other hj e
  | stores hi a v ha => rw [State.coreAt_advance_other (by simpa using hj), State.coreAt_store_other hj]
  | takes v q a hq ha =>
    rw [State.coreAt_advance_other (by simpa using hj), State.coreAt_store_other (by simpa using hj),
      State.coreAt_setInq]
  | sends v q hq => rw [State.coreAt_advance_other (by simpa using hj), State.coreAt_setOutq]
  | jumps hi y hy => exact State.coreAt_jump_other hj y
  | falls hi => exact State.coreAt_advance_other hj 3
  | adjusts v => rw [State.coreAt_advance_other (by simpa using hj), State.coreAt_setRb_other hj]
  | halts => exact State.coreAt_halt_other hj

/-- R25: no queue but the core's own two changes. -/
theorem queueAt_other (h : Effect s i t) {j : Nat} (h0 : j ≠ s.cur) (h1 : j ≠ s.cur + 1) :
    t.queueAt j = s.queueAt j := by
  cases h with
  | waits h => rfl
  | raises e => simp [State.queueAt_raise, State.queueAt_closePorts, h0, h1]
  | stores hi a v ha => simp
  | takes v q a hq ha => simp [State.setInq, State.queueAt_setQueue_other h0]
  | sends v q hq => simp [State.setOutq, State.queueAt_setQueue_other h1]
  | jumps hi y hy => simp
  | falls hi => simp
  | adjusts v => simp
  | halts => simp [State.queueAt_halt, State.queueAt_closePorts, h0, h1]

/-- The current core after an effect: an error leaves everything but `STATUS` and the fault record (R165); otherwise the
record and, but for HLT, the status are kept. -/
theorem core_cases (h : Effect s i t) (hc : s.cur < s.cores.length) :
    (t.core = s.core)
    ∨ (∃ e : CoreError, t.core = { s.core with status := .faulted, fault := e.record s.core.pc })
    ∨ (t.core = { s.core with status := .halted })
    ∨ (∃ pc rb tape, t.core = { s.core with pc := pc, rb := rb, tape := tape }
        ∧ (tape = s.core.tape ∨ ∃ a v, a < s.cfg.maxlen ∧ tape = s.core.tape.write a v)
        ∧ (pc = s.core.pc + BitVec.ofNat 64 (i.nParams + 1) ∨ 0 ≤ pc.toInt)) := by
  cases h with
  | waits h => exact .inl rfl
  | raises e => exact .inr (.inl ⟨e, State.core_raise hc e⟩)
  | stores hi a v ha =>
    refine .inr (.inr (.inr ⟨s.core.pc + BitVec.ofNat 64 4, s.core.rb, s.core.tape.write a v, ?_, ?_, ?_⟩))
    · rw [State.core_advance (by simpa using hc), State.core_store hc]
    · exact .inr ⟨a, v, ha, rfl⟩
    · left; rw [hi]
  | takes v q a hq ha =>
    refine .inr (.inr (.inr ⟨s.core.pc + BitVec.ofNat 64 2, s.core.rb, s.core.tape.write a v, ?_, ?_, ?_⟩))
    · rw [State.core_advance (by simpa using hc), State.core_store (by simpa using hc)]; rfl
    · exact .inr ⟨a, v, ha, rfl⟩
    · left; rfl
  | sends v q hq =>
    refine .inr (.inr (.inr ⟨s.core.pc + BitVec.ofNat 64 2, s.core.rb, s.core.tape, ?_, ?_, ?_⟩))
    · rw [State.core_advance (by simpa using hc)]; rfl
    · exact .inl rfl
    · left; rfl
  | jumps hi y hy =>
    refine .inr (.inr (.inr ⟨y, s.core.rb, s.core.tape, State.core_jump hc y, .inl rfl, .inr hy⟩))
  | falls hi =>
    refine .inr (.inr (.inr ⟨s.core.pc + BitVec.ofNat 64 3, s.core.rb, s.core.tape, State.core_advance hc 3, .inl rfl, ?_⟩))
    left; rw [hi]
  | adjusts v =>
    refine .inr (.inr (.inr ⟨s.core.pc + BitVec.ofNat 64 2, v, s.core.tape, ?_, .inl rfl, ?_⟩))
    · rw [State.core_advance (by simpa using hc), State.core_setRb hc]
    · left; rfl
  | halts => exact .inr (.inr (.inl (State.core_halt hc)))

end Effect

/-! Fetch. -/

/-- An instruction that was fetched lies below `LEN` with all its words (R68, R76). -/
theorem fetchDecode_lt {c : CoreState} {i : Instr} (h : fetchDecode c = .ok i) :
    c.pc.toNat + i.nParams < c.tape.len := by
  unfold fetchDecode at h
  split at h
  · rename_i j hj
    cases h
    have := decode_nParams hj
    exact Tape.lt_len_of_wordsFrom this
  · cases h

end Sys2Proof.Machine
end

