-- ==== Sys2Proof/Laws/PerInstr.lean ====
section
/-! SUPPORT. A law of the encoding, one lemma for each instruction (R62, R77). -/

namespace Sys2Proof.Laws.EncodeWidth

/-- An instruction's words are its instruction word and one raw word for each parameter (R62), and the instruction word's
opcode is that of the table row, whatever the modes (R61, R63, R77). -/
def Statement (i : Instr) : Prop :=
  (encode i).length = 1 + i.nParams
    ∧ ∀ w, (encode i).head? = some w →
        opcodeOf w = match i with
          | .add _ _ _ => 1
          | .mul _ _ _ => 2
          | .inp _ => 3
          | .out _ => 4
          | .jnz _ _ => 5
          | .jz _ _ => 6
          | .lt _ _ _ => 7
          | .eq _ _ _ => 8
          | .arb _ => 9
          | .hlt => 99

/-- The opcode of a canonical word, whatever its mode digits. -/
theorem opcode_instrWord (o : Nat) (ho : o < 100) (m1 m2 m3 : Mode) :
    opcodeOf (instrWord o (modeDigit m1) (modeDigit m2) (modeDigit m3)) = o := by
  have h1 : modeDigit m1 ≤ 2 := by cases m1 <;> decide
  have h2 : modeDigit m2 ≤ 2 := by cases m2 <;> decide
  have h3 : modeDigit m3 ≤ 2 := by cases m3 <;> decide
  have hb : o + 100 * modeDigit m1 + 1000 * modeDigit m2 + 10000 * modeDigit m3 < 2 ^ 64 := by
    have : o + 100 * modeDigit m1 + 1000 * modeDigit m2 + 10000 * modeDigit m3 ≤ 22299 := by omega
    exact Nat.lt_of_le_of_lt this (by decide)
  rw [opcodeOf, instrWord, BitVec.toNat_ofNat, Nat.mod_eq_of_lt hb]
  omega

theorem three (o : Nat) (ho : o < 100) (a b d : Param) :
    (encode3 o a b d).length = 1 + 3 ∧ ∀ w, (encode3 o a b d).head? = some w → opcodeOf w = o := by
  refine ⟨rfl, fun w h => ?_⟩
  cases h
  exact opcode_instrWord o ho a.mode b.mode d.mode

theorem two (o : Nat) (ho : o < 100) (a b : Param) :
    (encode2 o a b).length = 1 + 2 ∧ ∀ w, (encode2 o a b).head? = some w → opcodeOf w = o := by
  refine ⟨rfl, fun w h => ?_⟩
  cases h
  exact opcode_instrWord o ho a.mode b.mode .positional

theorem one (o : Nat) (ho : o < 100) (a : Param) :
    (encode1 o a).length = 1 + 1 ∧ ∀ w, (encode1 o a).head? = some w → opcodeOf w = o := by
  refine ⟨rfl, fun w h => ?_⟩
  cases h
  exact opcode_instrWord o ho a.mode .positional .positional

theorem add (a b d : Param) : Statement (.add a b d) := three 1 (by decide) a b d
theorem mul (a b d : Param) : Statement (.mul a b d) := three 2 (by decide) a b d
theorem inp (d : Param) : Statement (.inp d) := one 3 (by decide) d
theorem out (a : Param) : Statement (.out a) := one 4 (by decide) a
theorem jnz (a t : Param) : Statement (.jnz a t) := two 5 (by decide) a t
theorem jz (a t : Param) : Statement (.jz a t) := two 6 (by decide) a t
theorem lt (a b d : Param) : Statement (.lt a b d) := three 7 (by decide) a b d
theorem eq (a b d : Param) : Statement (.eq a b d) := three 8 (by decide) a b d
theorem arb (a : Param) : Statement (.arb a) := one 9 (by decide) a

theorem hlt : Statement .hlt := by
  refine ⟨rfl, fun w h => ?_⟩
  cases h
  decide

end Sys2Proof.Laws.EncodeWidth
end

