-- ==== Sys2Proof/Laws/Step.lean ====
section
/-! SUPPORT. Everything one step of the hardware can do, once: a core's step, the forwarder's two, the host's actions, or a
turn that passes (R75, R128, R129, R134, R138). -/

namespace Sys2Proof.Machine

/-- A core's step: an error of the fetch, or an effect of the fetched instruction. -/
theorem coreStep_next {s t : State} (h : coreStep s = .next t) :
    (∃ e, fetchDecode s.core = .error e ∧ t = s.raise e) ∨ (∃ i, fetchDecode s.core = .ok i ∧ Effect s i t) := by
  unfold coreStep at h
  split at h
  · rename_i i hi
    exact .inr ⟨i, hi, effect_of_exec h⟩
  · rename_i e he
    cases h
    exact .inl ⟨e, he, rfl⟩

theorem coreStep_answers (s : State) : ∃ t, coreStep s = .next t := by
  unfold coreStep
  split
  · rename_i i _
    obtain ⟨t, ht, -⟩ := exec_effect i s
    exact ⟨t, ht⟩
  · exact ⟨_, rfl⟩

/-- Any step of a core is an effect of some instruction: an error of the fetch is the raise of any. -/
theorem coreStep_effect {s t : State} (h : coreStep s = .next t) : ∃ i, Effect s i t := by
  rcases coreStep_next h with ⟨e, -, rfl⟩ | ⟨i, -, hi⟩
  · exact ⟨.hlt, .raises e⟩
  · exact ⟨i, hi⟩

/-- Delivery into `Q[0]` (R128): pushed, or nothing. -/
theorem deliver_cases (s : State) (v : Word) :
    deliver s v = s ∨ (s.cfg.isFeedback = true ∧ (s.queueAt 0).consGone = false ∧
      (s.queueAt 0).hasRoom s.cfg.qdepth = true ∧
      deliver s v = s.setQueue 0 { s.queueAt 0 with items := (s.queueAt 0).items ++ [v] }) := by
  unfold deliver
  split
  · rename_i hf
    split
    · rename_i q hq
      obtain ⟨h1, h2, rfl⟩ := Queue.push_pushed_iff.mp hq
      exact .inr ⟨hf, h1, h2, rfl⟩
    · exact .inl rfl
    · exact .inl rfl
  · exact .inl rfl

/-- The forwarder's two steps (R128, R129). -/
theorem forwarderStep_some {s t : State} (h : forwarderStep s = some t) :
    forwarderLive s = true ∧
      ((∃ v q, (s.queueAt s.lastQueue).pop = .got v q ∧ forwarderMayPass s = true ∧ t = transfer s v q)
        ∨ ((s.queueAt s.lastQueue).pop = .endOfStream ∧ t = forwarderFinish s)) := by
  unfold forwarderStep at h
  split at h
  · rename_i hl
    refine ⟨hl, ?_⟩
    split at h
    · rename_i v q hq
      split at h
      · rename_i hp
        cases h
        exact .inl ⟨v, q, hq, hp, rfl⟩
      · cases h
    · rename_i hq
      cases h
      exact .inr ⟨hq, rfl⟩
    · cases h
  · cases h

/-- The host's actions that take place (R131, R138, R180). -/
theorem hostDo_done {h : HostAct} {s t : State} (hd : hostDo h s = .done t) :
    (∃ c tap n, h = .reset c tap n ∧ c.valid = true ∧ t = State.resetOf c tap n s.env)
    ∨ (h = .start ∧ s.runEn = false ∧ t = { s with runEn := true })
    ∨ (s.cfg.isStandalone = true ∧
        (t = s
        ∨ (∃ v q, h = .feed v ∧ (s.queueAt 0).prodClosed = false ∧ (s.queueAt 0).push s.cfg.qdepth v = .pushed q
            ∧ t = s.setQueue 0 q)
        ∨ (h = .closeInput ∧ (s.queueAt 0).prodClosed = false ∧ t = s.setQueue 0 (s.queueAt 0).closeProd)
        ∨ (∃ v q, h = .drain ∧ (s.queueAt 1).pop = .got v q
            ∧ t = { s.setQueue 1 q with env := { s.env with hostGot := s.env.hostGot ++ [v] } })
        ∨ (h = .abandonOutput ∧ (s.queueAt 1).consGone = false ∧ t = s.setQueue 1 (s.queueAt 1).abandon))) := by
  cases h with
  | reset c tap n =>
    simp only [hostDo, hostReset] at hd
    split at hd
    · rename_i hc
      cases hd
      exact .inl ⟨c, tap, n, rfl, hc, rfl⟩
    · cases hd
  | start =>
    simp only [hostDo, hostStart] at hd
    split at hd
    · cases hd
    · rename_i hr
      cases hd
      exact .inr (.inl ⟨rfl, by simpa using hr, rfl⟩)
  | feed v =>
    simp only [hostDo, hostFeed] at hd
    split at hd
    · rename_i hc
      simp only [Bool.and_eq_true, Bool.not_eq_true'] at hc
      refine .inr (.inr ⟨hc.1, ?_⟩)
      split at hd
      · rename_i q hq
        cases hd
        exact .inr (.inl ⟨v, q, rfl, hc.2, hq, rfl⟩)
      · cases hd; exact .inl rfl
      · cases hd
    · cases hd
  | closeInput =>
    simp only [hostDo, hostCloseInput] at hd
    split at hd
    · rename_i hc
      simp only [Bool.and_eq_true, Bool.not_eq_true'] at hc
      cases hd
      exact .inr (.inr ⟨hc.1, .inr (.inr (.inl ⟨rfl, hc.2, rfl⟩))⟩)
    · cases hd
  | drain =>
    simp only [hostDo, hostDrain] at hd
    split at hd
    · rename_i hc
      simp only [Bool.and_eq_true, Bool.not_eq_true'] at hc
      refine .inr (.inr ⟨hc.1, ?_⟩)
      split at hd
      · rename_i v q hq
        cases hd
        exact .inr (.inr (.inr (.inl ⟨v, q, rfl, hq, rfl⟩)))
      · cases hd; exact .inl rfl
      · cases hd
    · cases hd
  | abandonOutput =>
    simp only [hostDo, hostAbandonOutput] at hd
    split at hd
    · rename_i hc
      simp only [Bool.and_eq_true, Bool.not_eq_true'] at hc
      cases hd
      exact .inr (.inr ⟨hc.1, .inr (.inr (.inr (.inr ⟨rfl, hc.2, rfl⟩)))⟩)
    · cases hd

/-- One step that answers a next state. -/
theorem step_next {s t : State} (h : step s = .next t) :
    (t = s.passTurn)
    ∨ (∃ i, s.nextAgent = .core i ∧ coreEnabled s i = true ∧ coreStep (s.passTurn.atCore i) = .next t)
    ∨ (s.nextAgent = .forwarder ∧ forwarderStep s.passTurn = some t)
    ∨ (∃ a rest, s.nextAgent = .host ∧ s.env.hostActs = a :: rest
        ∧ hostDo a s.passTurn.dropHostAct = .done t) := by
  unfold step takeTurn at h
  split at h
  · rename_i he
    cases ha : s.nextAgent with
    | core i =>
      rw [ha] at h he
      exact .inr (.inl ⟨i, rfl, he, h⟩)
    | forwarder =>
      rw [ha] at h
      simp only [agentStep] at h
      split at h
      · rename_i t' ht
        cases h
        exact .inr (.inr (.inl ⟨rfl, ht⟩))
      · cases h; exact .inl rfl
    | host =>
      rw [ha] at h
      simp only [agentStep] at h
      split at h
      · rename_i t' ht
        cases h
        unfold hostStep at ht
        split at ht
        · cases ht
        · rename_i a rest hacts
          exact .inr (.inr (.inr ⟨a, rest, rfl, by simpa using hacts, ht⟩))
      · cases h; exact .inl rfl
      · cases h
  · split at h
    · cases h; exact .inl rfl
    · cases h

end Sys2Proof.Machine
end

