-- ==== Sys2Proof/Laws/Run.lean ====
section
/-! SUPPORT. What the end-of-run tests say, that a turn that passes changes none of them, and the run's equations (R131,
R137, R189). -/

namespace Sys2Proof.Machine

namespace State

/-! A turn that passes. -/

theorem passTurn_eq (s : State) : s.passTurn = { s with env := s.passTurn.env } := by
  unfold passTurn; split <;> rfl

/-- What a core or the forwarder can do does not depend on the model's own fields. -/
theorem coreEnabled_env (s : State) (e : Env) (i : Nat) : coreEnabled { s with env := e } i = coreEnabled s i := by
  have h : coreWaits (State.atCore { s with env := e } i) = coreWaits (s.atCore i) := by
    unfold coreWaits
    show (match fetchDecode (s.coreAt i) with | .ok j => _ | .error _ => _)
      = match fetchDecode (s.coreAt i) with | .ok j => _ | .error _ => _
    cases fetchDecode (s.coreAt i) with
    | error r => rfl
    | ok j => cases j <;> rfl
  unfold coreEnabled
  rw [h]
  rfl

/-- When the forwarder has a step (R128, R129). -/
theorem forwarderEnabled_eq (s : State) :
    s.enabled .forwarder = (forwarderLive s && match (s.queueAt s.lastQueue).pop with
      | .got _ _ => forwarderMayPass s
      | .endOfStream => true
      | .blocked => false) := by
  simp only [enabled, forwarderStep]
  cases forwarderLive s <;> cases (s.queueAt s.lastQueue).pop <;> cases forwarderMayPass s <;> rfl

@[simp] theorem coreEnabled_passTurn (s : State) (i : Nat) : coreEnabled s.passTurn i = coreEnabled s i := by
  rw [passTurn_eq, coreEnabled_env]

@[simp] theorem forwarderEnabled_passTurn (s : State) :
    s.passTurn.enabled .forwarder = s.enabled .forwarder := by
  rw [passTurn_eq, forwarderEnabled_eq, forwarderEnabled_eq]
  rfl

/-- Whether a host action is done, refused or waits does not depend on the model's own fields. -/
theorem hostDo_acts_env (h : HostAct) (s : State) (e : Env) :
    (hostDo h { s with env := e }).acts = (hostDo h s).acts := by
  have hq : ∀ j, queueAt { s with env := e } j = s.queueAt j := fun _ => rfl
  cases h with
  | reset c tap n => simp only [hostDo, hostReset]; cases c.valid <;> rfl
  | start => simp only [hostDo, hostStart]; cases s.runEn <;> rfl
  | feed v =>
    simp only [hostDo, hostFeed, hq]
    cases (s.cfg.isStandalone && !(s.queueAt 0).prodClosed) <;> cases (s.queueAt 0).push s.cfg.qdepth v <;> rfl
  | closeInput =>
    simp only [hostDo, hostCloseInput, hq]
    cases (s.cfg.isStandalone && !(s.queueAt 0).prodClosed) <;> rfl
  | drain =>
    simp only [hostDo, hostDrain, hq]
    cases (s.cfg.isStandalone && !(s.queueAt 1).consGone) <;> cases (s.queueAt 1).pop <;> rfl
  | abandonOutput =>
    simp only [hostDo, hostAbandonOutput, hq]
    cases (s.cfg.isStandalone && !(s.queueAt 1).consGone) <;> rfl

/-- When the host has a step (R134, log 6). -/
theorem hostEnabled_cons {s : State} {h : HostAct} {rest : List HostAct} (ha : s.env.hostActs = h :: rest) :
    s.enabled .host = (hostDo h s).acts := by
  simp only [enabled, hostStep, ha]
  exact hostDo_acts_env h s _

@[simp] theorem netState_passTurn (s : State) : s.passTurn.netState = s.netState := by
  simp [netState, anyFaulted, allHalted]

@[simp] theorem quiet_passTurn (s : State) : s.passTurn.quiet = s.quiet := by
  simp [quiet, show ∀ (u : State) (i : Nat), u.enabled (.core i) = coreEnabled u i from fun _ _ => rfl]

@[simp] theorem failedEnd_passTurn (s : State) : s.passTurn.failedEnd = s.failedEnd := by
  simp [failedEnd, allTerminated]

@[simp] theorem deadlocked_passTurn (s : State) : s.passTurn.deadlocked = s.deadlocked := by
  simp [deadlocked]

/-! What the tests say. -/

/-- No core and no forwarder has a step, whatever the index. -/
theorem quiet_iff (s : State) :
    s.quiet = true ↔ s.enabled .forwarder = false ∧ ∀ i, s.enabled (.core i) = false := by
  simp only [quiet, Bool.and_eq_true, Bool.not_eq_true', List.all_eq_true, List.mem_range]
  refine and_congr_right fun _ => ⟨fun h i => ?_, fun h i _ => h i⟩
  by_cases hi : i < s.cores.length
  · exact h i hi
  · simp [enabled, coreEnabled, hi]

theorem failedEnd_iff (s : State) :
    s.failedEnd = true ↔ s.netState = .failed ∧ (∀ c, c ∈ s.cores → c.status ≠ .run) ∧ s.fwdDone = true := by
  simp [failedEnd, allTerminated, and_assoc]

/-- No agent has a step exactly if no core and no forwarder has one and the host has nothing to do. -/
theorem anyEnabled_false_iff (s : State) : s.anyEnabled = false ↔ s.quiet = true ∧ s.enabled .host = false := by
  simp only [anyEnabled, quiet, Bool.or_eq_false_iff, Bool.and_eq_true, Bool.not_eq_true', List.any_eq_false,
    List.all_eq_true]
  grind

end State

/-- Where some agent has a step the machine is not stuck (R134, U15). -/
theorem step_ne_stuck {s : State} (h : s.anyEnabled = true) : step s ≠ .fault .stuck := by
  unfold step takeTurn
  split
  · cases s.nextAgent with
    | core i =>
      obtain ⟨t, ht⟩ := coreStep_answers (s.passTurn.atCore i)
      simp [agentStep, ht]
    | forwarder => simp only [agentStep]; split <;> simp
    | host => simp only [agentStep]; split <;> simp
  · simp

/-- A run that goes on has an agent with a step. -/
theorem anyEnabled_of_endOf_none {s : State} (h : s.endOf = none) : s.anyEnabled = true := by
  simp only [State.endOf] at h
  grind

/-! The equations of a bounded run. -/

theorem run_ended {s : State} {e : RunEnd} (h : s.endOf = some e) (n : Nat) : run n s = .ended e s := by
  cases n <;> simp [run, h]

theorem run_zero {s : State} (h : s.endOf = none) : run 0 s = .outOfFuel s := by
  simp [run, h]

theorem run_succ_next {s t : State} (h : s.endOf = none) (hs : step s = .next t) (n : Nat) :
    run (n + 1) s = run n t := by
  simp [run, h, hs]

theorem run_succ_refused {s : State} {r : Refusal} (h : s.endOf = none) (hs : step s = .refused r) (n : Nat) :
    run (n + 1) s = .refused r s := by
  simp [run, h, hs]

/-- One case analysis for a run that goes on: out of fuel, a step, or a refusal. -/
theorem run_cases {s : State} (h : s.endOf = none) (n : Nat) :
    (n = 0 ∧ run n s = .outOfFuel s)
    ∨ (∃ m t, n = m + 1 ∧ step s = .next t ∧ run n s = run m t)
    ∨ (∃ m r, n = m + 1 ∧ step s = .refused r ∧ run n s = .refused r s) := by
  cases n with
  | zero => exact .inl ⟨rfl, run_zero h⟩
  | succ m =>
    cases hs : step s with
    | next t => exact .inr (.inl ⟨m, t, rfl, rfl, run_succ_next h hs m⟩)
    | fault f => cases f; exact absurd hs (step_ne_stuck (anyEnabled_of_endOf_none h))
    | refused r => exact .inr (.inr ⟨m, r, rfl, rfl, run_succ_refused h hs m⟩)

end Sys2Proof.Machine
end

