-- ==== Sys2Proof/Tests/Slice0.lean ====
section
/-! SUPPORT. Tests: what WellFormed refuses, words written out from the spec's encodings, single steps of
95_test_vectors.md (its ids in the comments), and for each obligation a state and operands that meet its hypotheses. -/

namespace Sys2Proof.Tests

open Sys2Proof.Machine

/-! ### WellFormed refuses -/

theorem test_wf_add : (Instr.add ⟨.positional, 0⟩ ⟨.positional, 0⟩ ⟨.immediate, 0⟩).wellFormed = false := by decide
theorem test_wf_mul : (Instr.mul ⟨.positional, 0⟩ ⟨.positional, 0⟩ ⟨.immediate, 0⟩).wellFormed = false := by decide
theorem test_wf_inp : (Instr.inp ⟨.immediate, 0⟩).wellFormed = false := by decide
theorem test_wf_lt : (Instr.lt ⟨.immediate, 0⟩ ⟨.immediate, 0⟩ ⟨.immediate, 0⟩).wellFormed = false := by decide
theorem test_wf_eq : (Instr.eq ⟨.immediate, 0⟩ ⟨.immediate, 0⟩ ⟨.immediate, 0⟩).wellFormed = false := by decide
theorem test_wf_arb : (Instr.arb ⟨.immediate, 19⟩).wellFormed = true := by decide

theorem test_cfg_vectors : Config.vectors.valid = true := by decide
theorem test_cfg_no_core : { Config.vectors with images := [] }.valid = false := by decide
theorem test_cfg_maxlen_zero : { Config.vectors with maxlen := 0 }.valid = false := by decide
theorem test_cfg_maxlen_large : { Config.vectors with maxlen := 2 ^ 63 }.valid = false := by decide
theorem test_cfg_qdepth_one : { Config.vectors with qdepth := some 1 }.valid = false := by decide
theorem test_cfg_image_too_long : { Config.vectors with maxlen := 1, images := [[1, 2]] }.valid = false := by decide
theorem test_cfg_phase_count : { Config.vectors with wiring := .network .linear [] 0 }.valid = false := by decide
theorem test_cfg_alone_two_cores : { Config.vectors with images := [[], []] }.valid = false := by decide
theorem test_cfg_inq_too_long :
    { Config.vectors with qdepth := some 2, wiring := .standalone [1, 2, 3] true }.valid = false := by decide

/-! ### Decoding: 95_test_vectors.md, "Encoding function" -/

theorem test_decode_add :
    decode [21001, 4, 3, 2] = .ok (.add ⟨.positional, 4⟩ ⟨.immediate, 3⟩ ⟨.relative, 2⟩) := by decide
theorem test_decode_mul :
    decode [1002, 4, 3, 4] = .ok (.mul ⟨.positional, 4⟩ ⟨.immediate, 3⟩ ⟨.positional, 4⟩) := by decide
theorem test_decode_inp : decode [203, 1] = .ok (.inp ⟨.relative, 1⟩) := by decide
theorem test_decode_out : decode [104, -7] = .ok (.out ⟨.immediate, -7⟩) := by decide
theorem test_decode_jnz : decode [1005, 14, 0] = .ok (.jnz ⟨.positional, 14⟩ ⟨.immediate, 0⟩) := by decide
theorem test_decode_jz : decode [106, 0, 4] = .ok (.jz ⟨.immediate, 0⟩ ⟨.positional, 4⟩) := by decide
theorem test_decode_lt :
    decode [21107, 1, 2, 3] = .ok (.lt ⟨.immediate, 1⟩ ⟨.immediate, 2⟩ ⟨.relative, 3⟩) := by decide
theorem test_decode_eq :
    decode [8, 9, 10, 9] = .ok (.eq ⟨.positional, 9⟩ ⟨.positional, 10⟩ ⟨.positional, 9⟩) := by decide
theorem test_decode_arb : decode [109, 19] = .ok (.arb ⟨.immediate, 19⟩) := by decide
theorem test_decode_hlt : decode [99999] = .ok .hlt := by decide
theorem test_encode_lt :
    encode (.lt ⟨.immediate, 1⟩ ⟨.immediate, 2⟩ ⟨.relative, 3⟩) = [21107, 1, 2, 3] := by decide
theorem test_table_word_out : decodeTableWord 128 (104 + 5 * 2 ^ 64) = some (.out ⟨.immediate, 5⟩) := by decide
theorem test_table_word_zeros :
    decodeTableWord 64 1 = some (.add ⟨.positional, 0⟩ ⟨.positional, 0⟩ ⟨.positional, 0⟩) := by decide

/-- H7, H13, A12, A8, A10, A18 and the priority list after A19. -/
theorem test_decode_negative : decode [-1] = .error (.unknownOpcode (-1)) := by decide
theorem test_decode_100 : decode [100] = .error (.unknownOpcode 100) := by decide
theorem test_decode_high_digit :
    decode [100001, 0, 0, 0] = .ok (.add ⟨.positional, 0⟩ ⟨.positional, 0⟩ ⟨.positional, 0⟩) := by decide
theorem test_decode_truncated : decode [1, 0, 0] = .error (.truncatedInstruction 1) := by decide
theorem test_decode_mode1 : decode [301, 0, 0, 0] = .error (.illegalMode 1 301) := by decide
theorem test_decode_mode2 : decode [3101, 0, 0, 0] = .error (.illegalMode 2 3101) := by decide
theorem test_decode_truncated_first : decode [11301, -1, 0] = .error (.truncatedInstruction 11301) := by decide

/-! ### States for the tests -/

/-- A core running alone, its turn first. -/
def alone (img inq : List Word) (rb : Word) : State :=
  let c := { Config.vectors with images := [img], wiring := .standalone inq true }
  { State.resetOf c 0 0 { sched := [.core 0, .host], tick := 0, hostActs := [], hostGot := [] } with
    runEn := true, cores := [{ CoreState.boot img with rb := rb }] }

/-- A network of two cores, started, queues of two items; the agent `a` is next, then core 1. -/
def pair (topo : Topology) (img0 img1 : List Word) (a : Agent) : State :=
  let c := { maxlen := 100, qdepth := some 2, images := [img0, img1], wiring := .network topo [4, 3] 0 }
  { State.resetOf c 0 0 { sched := [a, .core 1], tick := 0, hostActs := [], hostGot := [] } with runEn := true }

/-- The state after one step; the same state where there is none. -/
def after (s : State) : State :=
  match step s with
  | .next t => t
  | .fault _ => s
  | .refused _ => s

/-- Whether a step answers a next state. -/
def steps (s : State) : Bool :=
  match step s with
  | .next _ => true
  | .fault _ => false
  | .refused _ => false

theorem step_after {s : State} (h : steps s = true) : step s = .next (after s) := by
  unfold steps at h
  unfold after
  split at h
  · rename_i t ht
    rw [ht]
  · cases h
  · cases h

/-- The first words of core 0's tape. -/
def tapeOf (s : State) : List Word := (s.coreAt 0).tape.wordsFrom 0 16

/-- `STATUS`, `PC` and the fault record of core 0. -/
def statusOf (s : State) : Status × Word × FaultRecord :=
  ((s.coreAt 0).status, (s.coreAt 0).pc, (s.coreAt 0).fault)

/-! ### Single steps, at most two for each instruction -/

/-- A3. -/
theorem test_add_wraps :
    tapeOf (after (alone [1101, 9223372036854775807, 1, 5, 99, 0] [] 0))
      = [1101, 9223372036854775807, 1, 5, 99, -9223372036854775808] := by decide
/-- A15. -/
theorem test_add_negative_relative :
    statusOf (after (alone [2101, 5, -7, 0, 99] [] 3)) = (.faulted, 0, ⟨3, 2, 0, 2, -4⟩) := by decide
/-- M5. -/
theorem test_mul_wraps :
    ((after (alone [1102, 3037000500, 3037000500, 5, 99, 0] [] 0)).coreAt 0).tape.read 5
      = -9223372036709301616 := by decide
/-- M11. -/
theorem test_mul_immediate_target :
    statusOf (after (alone [10002, 0, 0, 0, 99] [] 0)) = (.faulted, 0, ⟨3, 1, 0, 3, 0⟩) := by decide
/-- I7. -/
theorem test_in_over_itself :
    tapeOf (after (alone [3, 1, 99] [-5, 6] 0)) = [3, -5, 99]
      ∧ ((after (alone [3, 1, 99] [-5, 6] 0)).queueAt 0).items = [6] := by decide
/-- I4. -/
theorem test_in_immediate_target :
    statusOf (after (alone [103, 0, 99] [7] 0)) = (.faulted, 0, ⟨3, 1, 0, 1, 0⟩)
      ∧ ((after (alone [103, 0, 99] [7] 0)).queueAt 0).items = [7] := by decide
/-- I12. -/
theorem test_out_reads_beyond_len :
    ((after (alone [4, 100, 99] [] 0)).queueAt 1).items = [0]
      ∧ ((after (alone [4, 100, 99] [] 0)).coreAt 0).tape.len = 3 := by decide
/-- I10. -/
theorem test_out_consumer_gone :
    statusOf (after ((alone [104, -7, 99] [] 0).setQueue 1 ⟨[], false, true⟩))
      = (.faulted, 0, ⟨4, 2, 0, 0, -7⟩) := by decide
/-- J6. -/
theorem test_jnz_negative_target :
    statusOf (after (alone [1105, 1, -1, 99] [] 0)) = (.faulted, 0, ⟨3, 2, 0, 2, -1⟩) := by decide
/-- J9. -/
theorem test_jnz_resolves_untaken :
    statusOf (after (alone [105, 0, -1, 99] [] 0)) = (.faulted, 0, ⟨3, 2, 0, 2, -1⟩) := by decide
/-- J15. -/
theorem test_jz_taken : ((after (alone [6, 3, 4, 0, 5, 99] [] 0)).coreAt 0).pc = 5 := by decide
/-- J13. -/
theorem test_jz_falls : ((after (alone [1006, 1, 0] [] 0)).coreAt 0).pc = 3 := by decide
/-- L4. -/
theorem test_lt_extremes :
    ((after (alone [1107, -9223372036854775808, 9223372036854775807, 5, 99, 9] [] 0)).coreAt 0).tape.read 5 = 1 := by
  decide
/-- L17. -/
theorem test_lt_grows :
    tapeOf (after (alone [21107, 1, 2, 3, 99] [] 7)) = [21107, 1, 2, 3, 99, 0, 0, 0, 0, 0, 1] := by decide
/-- L15. -/
theorem test_eq_over_itself : tapeOf (after (alone [8, 0, 0, 0, 99] [] 0)) = [1, 0, 0, 0, 99] := by decide
/-- L7. -/
theorem test_eq_differs :
    ((after (alone [1108, 7, 8, 5, 99, -1] [] 0)).coreAt 0).tape.read 5 = 0 := by decide
/-- B5. -/
theorem test_arb_wraps :
    ((after (alone [109, 1] [] 9223372036854775807)).coreAt 0).rb = -9223372036854775808 := by decide
/-- B11. -/
theorem test_arb_negative :
    statusOf (after (alone [209, -1, 99] [] 0)) = (.faulted, 0, ⟨3, 2, 0, 1, -1⟩) := by decide
/-- H12. -/
theorem test_hlt_closes :
    statusOf (after (alone [99] [4, 5] 0)) = (.halted, 0, FaultRecord.none)
      ∧ (after (alone [99] [4, 5] 0)).queues = [⟨[4, 5], true, true⟩, ⟨[], true, false⟩] := by decide

/-- H5: the first step of `State.reset`'s core, after the host's start. -/
theorem test_reset_runs_away : statusOf (after (after State.reset)) = (.faulted, 0, ⟨5, 0, 0, 0, 0⟩) := by decide
/-- H6, one instruction laid by `withFetchWord`: an unknown opcode is an error of the core. -/
theorem test_fetch_word_zero :
    statusOf (after (State.reset.withFetchWord 64 0)) = (.faulted, 0, ⟨2, 1, 0, 0, 0⟩) := by decide
/-- A14: the largest address of `MAXLEN = 2^40`. -/
theorem test_write_at_maxlen :
    ((after (alone [1001, 4, 5, 1099511627775, 7] [] 0)).coreAt 0).tape.len = 1099511627776 := by decide
/-- A13. -/
theorem test_memory_exhausted :
    statusOf (after (alone [1001, 4, 5, 1099511627776, 7] [] 0))
      = (.faulted, 0, ⟨6, 1, 0, 3, 1099511627776⟩) := by decide
/-- I3: blocked, then stuck, for no agent has a step. -/
theorem test_blocked_is_stuck :
    step ((alone [3, 0, 4, 0, 99] [] 0).setQueue 0 Queue.fresh) = .fault .stuck := by rfl
/-- R15. -/
theorem test_status_codes : Status.run.code = 0 ∧ Status.halted.code = 1 ∧ Status.faulted.code = 2 := by decide
/-- R126, R127. -/
theorem test_seeds_linear :
    (pair .linear [99] [99] .forwarder).queues = [⟨[4, 0], true, false⟩, ⟨[3], false, false⟩, ⟨[], false, false⟩] := by
  decide

/-- The last queue of the pair with one item. -/
def loaded (topo : Topology) : State := (pair topo [99] [99] .forwarder).setQueue 2 ⟨[7], false, false⟩

/-- R128: `Q[0]` is full, so the FEEDBACK transfer is not enabled; the LINEAR one is. -/
theorem test_forwarder_waits : forwarderStep (loaded .feedback) = none := by decide
theorem test_forwarder_transfers : (after (loaded .linear)).tap = 7 ∧ (after (loaded .linear)).tapValid = true := by
  decide

/-! ### Witnesses: for each obligation with hypotheses, what meets them -/

theorem notReset_of_core {s : State} {k : Nat} (h : s.nextAgent = .core k) : NotReset s := by
  intro c tap n rest hh
  rw [h] at hh
  cases hh

theorem notReset_of_forwarder {s : State} (h : s.nextAgent = .forwarder) : NotReset s := by
  intro c tap n rest hh
  rw [h] at hh
  cases hh

theorem witness_WrapIsCongruentAndInRange :
    (-(2 ^ 63) ≤ (-(2 ^ 63) : Int) ∧ (-(2 ^ 63) : Int) ≤ 2 ^ 63 - 1)
      ∧ (-(2 ^ 63) ≤ (2 ^ 63 - 1 : Int) ∧ (2 ^ 63 - 1 : Int) ≤ 2 ^ 63 - 1) := by decide

theorem witness_DecodeEncodeRoundTrip :
    encode (.add ⟨.positional, 4⟩ ⟨.immediate, 3⟩ ⟨.relative, 2⟩) = [21001, 4, 3, 2]
      ∧ 0 ≤ (7721001 : Word).toInt ∧ (7721001 : Word).toNat % 10 ^ (3 + 2) = (21001 : Word).toNat := by decide

theorem witness_DecodedWordsAreCanonicalButHighDigits :
    decode [7721001, 4, 3, 2, 5] = .ok (.add ⟨.positional, 4⟩ ⟨.immediate, 3⟩ ⟨.relative, 2⟩) := by decide

theorem witness_UnknownOpcodeExactly :
    decode [-1, 0] = .error (.unknownOpcode (-1)) ∧ decode [10] = .error (.unknownOpcode 10)
      ∧ (98 : Word).toNat % 100 ∉ [1, 2, 3, 4, 5, 6, 7, 8, 9, 99] := by decide

/-- `LEN` is 3: one parameter word too few, and just enough. -/
theorem witness_TruncatedBeforeModes :
    (CoreState.boot [99901, 0, 0]).pc.toNat < (CoreState.boot [99901, 0, 0]).tape.len
      ∧ (99901 : Word) = (CoreState.boot [99901, 0, 0]).tape.read (CoreState.boot [99901, 0, 0]).pc.toNat
      ∧ 0 ≤ (99901 : Word).toInt
      ∧ ((99901 : Word).toNat % 100, 3) ∈ [(1, 3), (2, 3), (3, 1), (4, 1), (5, 2), (6, 2), (7, 3), (8, 3), (9, 1)]
      ∧ fetchDecode (CoreState.boot [99901, 0, 0]) = .error (.truncatedInstruction 99901)
      ∧ fetchDecode (CoreState.boot [1, 0, 0, 0])
          = .ok (.add ⟨.positional, 0⟩ ⟨.positional, 0⟩ ⟨.positional, 0⟩) := by decide

theorem witness_LowestIllegalModeReported :
    0 ≤ (33101 : Word).toInt ∧ ((33101 : Word).toNat % 100, 3) ∈ [(1, 3), (2, 3), (3, 1), (4, 1), (5, 2), (6, 2),
      (7, 3), (8, 3), (9, 1)] ∧ 3 ≤ ([0, 0, 0] : List Word).length
      ∧ decode [33101, 0, 0, 0] = .error (.illegalMode 2 33101) := by decide

/-- A tape of two words; a gap is filled by a write at 4, none by a write at 1. -/
theorem witness_TapeWriteThenRead :
    (Tape.ofImage [7, 8]).len ≤ 2 ∧ 2 < 4 ∧ (Tape.ofImage [7, 8]).len ≤ 4 ∧ 1 < (Tape.ofImage [7, 8]).len := by decide

theorem witness_TapeFormIsCanonical :
    (Tape.ofImage [7, 0, 8]).wf = true ∧ (((Tape.ofImage [7, 5, 8]).write 1 0)).wf = true
      ∧ (Tape.ofImage [7, 0, 8]) = (Tape.ofImage [7, 5, 8]).write 1 0 := by decide

theorem witness_SourceOperandByMode :
    (-1 : Word).toInt < 0 ∧ 0 ≤ (0 : Word).toInt
      ∧ (wrap64 ((3 : Word).toInt + (-4 : Word).toInt)).toInt < 0
      ∧ 0 ≤ (wrap64 ((3 : Word).toInt + (-3 : Word).toInt)).toInt := by decide

theorem witness_WriteTargetByMode :
    (-1 : Word).toInt < 0 ∧ (0 ≤ (100 : Word).toInt ∧ 100 ≤ (100 : Word).toNat)
      ∧ (0 ≤ (99 : Word).toInt ∧ (99 : Word).toNat < 100)
      ∧ (99 : Word) = wrap64 ((100 : Word).toInt + (-1 : Word).toInt) := by decide

/-- Both ends of the range, and one step beyond each. -/
theorem witness_AluResultsAsIntegers :
    (9223372036854775807 : Word).toInt + (0 : Word).toInt = 2 ^ 63 - 1
      ∧ (9223372036854775807 : Word).toInt + (1 : Word).toInt = 2 ^ 63
      ∧ (-9223372036854775808 : Word).toInt + (0 : Word).toInt = -(2 ^ 63)
      ∧ (-9223372036854775808 : Word).toInt + (-1 : Word).toInt = -(2 ^ 63) - 1
      ∧ (-9223372036854775808 : Word).toInt * (1 : Word).toInt = -(2 ^ 63)
      ∧ (9223372036854775807 : Word).toInt * (1 : Word).toInt = 2 ^ 63 - 1 := by decide

/-- A witness for `ImmediateTargetFails`: its hypothesis is a mode. -/
theorem witness_ImmediateTargetFails : (⟨.immediate, 9⟩ : Param).mode = .immediate := rfl

/-- The hypotheses of the four clauses of `StoringLaw`, and of its encoding for opcode `op`. -/
abbrev StoringMet (op : Nat) : Prop :=
  (0 ≤ (BitVec.ofNat 64 (21000 + op) : Word).toInt ∧ (BitVec.ofNat 64 (21000 + op) : Word).toNat % 100 = op
    ∧ HasMode (BitVec.ofNat 64 (21000 + op)) 1 .positional ∧ HasMode (BitVec.ofNat 64 (21000 + op)) 2 .immediate
    ∧ HasMode (BitVec.ofNat 64 (21000 + op)) 3 .relative)
  ∧ InPlace (alone [5, 6] [] 1)
  ∧ ((alone [5, 6] [] 1).source 1 ⟨.positional, 0⟩ = .ok 5 ∧ (alone [5, 6] [] 1).source 2 ⟨.immediate, 3⟩ = .ok 3
    ∧ (alone [5, 6] [] 1).target 3 ⟨.relative, 0⟩ = .ok 1)
  ∧ (alone [5, 6] [] 1).source 1 ⟨.positional, -1⟩ = .error (.negativeAddress 1 (-1))
  ∧ (alone [5, 6] [] 1).source 2 ⟨.relative, -2⟩ = .error (.negativeAddress 2 (-1))
  ∧ (alone [5, 6] [] 1).target 3 ⟨.immediate, 9⟩ = .error (.immediateWriteTarget 3 9)

theorem witness_AddStoresWrappedSum : StoringMet 1 := by decide
theorem witness_MulStoresWrappedProduct : StoringMet 2 := by decide
theorem witness_LtStoresSignedComparison : StoringMet 7 := by decide
theorem witness_EqStoresEquality : StoringMet 8 := by decide

/-- The hypotheses of the clauses of `JumpLaw` but for the test itself: a target of 0, one of -1, two operand errors. -/
abbrev JumpMet (op : Nat) : Prop :=
  (0 ≤ (BitVec.ofNat 64 (1200 + op) : Word).toInt ∧ (BitVec.ofNat 64 (1200 + op) : Word).toNat % 100 = op
    ∧ HasMode (BitVec.ofNat 64 (1200 + op)) 1 .relative ∧ HasMode (BitVec.ofNat 64 (1200 + op)) 2 .immediate)
  ∧ InPlace (alone [0, 6] [] 1)
  ∧ ((alone [0, 6] [] 1).source 1 ⟨.relative, 0⟩ = .ok 6 ∧ (6 : Word).toInt ≠ 0)
  ∧ ((alone [0, 6] [] 1).source 1 ⟨.positional, 0⟩ = .ok 0 ∧ (0 : Word).toInt = 0)
  ∧ ((alone [0, 6] [] 1).source 2 ⟨.immediate, 0⟩ = .ok 0 ∧ 0 ≤ (0 : Word).toInt)
  ∧ ((alone [0, 6] [] 1).source 2 ⟨.immediate, -1⟩ = .ok (-1) ∧ (-1 : Word).toInt < 0)
  ∧ (alone [0, 6] [] 1).source 1 ⟨.positional, -1⟩ = .error (.negativeAddress 1 (-1))
  ∧ (alone [0, 6] [] 1).source 2 ⟨.positional, -1⟩ = .error (.negativeAddress 2 (-1))

theorem witness_JnzJumpsOnNonzero : JumpMet 5 := by decide
theorem witness_JzJumpsOnZero : JumpMet 6 := by decide

/-- The encoding hypotheses of a one-parameter instruction. -/
abbrev OneMet (op : Nat) : Prop :=
  0 ≤ (BitVec.ofNat 64 (200 + op) : Word).toInt ∧ (BitVec.ofNat 64 (200 + op) : Word).toNat % 100 = op
    ∧ HasMode (BitVec.ofNat 64 (200 + op)) 1 .relative

/-- I3: at an IN, `INQ` empty and open. -/
def blockedIn : State := (alone [3, 0, 4, 0, 99] [] 0).setQueue 0 Queue.fresh

/-- I18: at an OUT, `OUTQ` full, its consumer there. -/
def blockedOut : State := (pair .linear [104, 5] [] (.core 0)).setQueue 1 ⟨[1, 2], false, false⟩

abbrev BlockedInMet : Prop :=
  blockedIn.target 1 ⟨.positional, 0⟩ = .ok 0 ∧ blockedIn.inq.items = [] ∧ blockedIn.inq.prodClosed = false

abbrev BlockedOutMet : Prop :=
  blockedOut.source 1 ⟨.immediate, 5⟩ = .ok 5 ∧ blockedOut.outq.consGone = false ∧ blockedOut.cfg.qdepth = some 2
    ∧ 2 ≤ blockedOut.outq.items.length

/-- An item; an empty closed queue; an empty open one; a bad target. -/
theorem witness_InTakesTheOldestItem :
    OneMet 3 ∧ InPlace (alone [] [5] 0)
      ∧ (alone [] [5] 0).target 1 ⟨.positional, 0⟩ = .ok 0 ∧ (alone [] [5] 0).inq.items = [5]
      ∧ ((alone [] [] 0).inq.items = [] ∧ (alone [] [] 0).inq.prodClosed = true)
      ∧ (InPlace blockedIn ∧ BlockedInMet ∧ fetchDecode blockedIn.core = .ok (.inp ⟨.positional, 0⟩))
      ∧ (alone [] [5] 0).target 1 ⟨.immediate, 0⟩ = .error (.immediateWriteTarget 1 0) := by decide

/-- One place left; none left; a gone consumer; a bad operand. -/
theorem witness_OutAppendsTheOperand :
    OneMet 4 ∧ InPlace (pair .linear [] [] .host)
      ∧ (pair .linear [] [] .host).source 1 ⟨.immediate, 8⟩ = .ok 8
      ∧ (pair .linear [] [] .host).outq.consGone = false ∧ (pair .linear [] [] .host).outq.items.length < 2
      ∧ (pair .linear [] [] .host).cfg.qdepth = some 2
      ∧ (InPlace blockedOut ∧ BlockedOutMet ∧ fetchDecode blockedOut.core = .ok (.out ⟨.immediate, 5⟩))
      ∧ ((pair .linear [] [] .host).setQueue 1 ⟨[1, 2], false, true⟩).outq.consGone = true
      ∧ (pair .linear [] [] .host).source 1 ⟨.positional, -1⟩ = .error (.negativeAddress 1 (-1)) := by decide

theorem witness_BlockedAnswersTheSameState : BlockedInMet ∧ BlockedOutMet := by decide

theorem witness_ArbAddsToRelativeBase :
    OneMet 9 ∧ InPlace (alone [40] [] 6) ∧ (alone [40] [] 6).source 1 ⟨.relative, -6⟩ = .ok 40
      ∧ (alone [40] [] 6).source 1 ⟨.relative, -7⟩ = .error (.negativeAddress 1 (-1)) := by decide

theorem witness_HltHaltsAndClosesPorts :
    0 ≤ (99999 : Word).toInt ∧ (99999 : Word).toNat % 100 = 99 ∧ InPlace (alone [99] [] 0) := by decide

theorem witness_OnlyTheNamedInstructionsWrite :
    InPlace (alone [99] [] 0) ∧ exec .hlt (alone [99] [] 0) = .next (alone [99] [] 0).halt
      ∧ Instr.hlt.writeTarget? = none
      ∧ exec (.arb ⟨.immediate, 1⟩) (alone [99] [] 0) = .next (((alone [99] [] 0).setRb 1).advance 2)
      ∧ (alone [99] [] 0).core.status = .run := ⟨by decide, rfl, rfl, rfl, rfl⟩

/-- Core 0 and core 1 of one network, with like images and queues. -/
theorem witness_CoreSeesOnlyItsOwnStateAndPorts :
    let s := ((pair .linear [99] [99] .host).setQueue 0 Queue.fresh).setQueue 1 Queue.fresh
    InPlace s ∧ InPlace (s.atCore 1) ∧ s.core = (s.atCore 1).core ∧ s.inq = (s.atCore 1).inq
      ∧ s.outq = (s.atCore 1).outq ∧ exec .hlt s = .next s.halt
      ∧ exec .hlt (s.atCore 1) = .next (s.atCore 1).halt :=
  ⟨by decide, by decide, by decide, by decide, by decide, rfl, rfl⟩

theorem witness_ErrorEntryWritesExactly :
    InPlace (alone [] [] 0) ∧ (alone [] [] 0).firstFailValid = false
      ∧ InPlace ((alone [] [] 0).raise (.runaway 0)) ∧ ((alone [] [] 0).raise (.runaway 0)).firstFailValid = true := by
  decide

theorem inv_alone_empty : (alone [] [] 0).Inv := by constructor <;> decide
theorem inv_pair (topo : Topology) : (pair topo [99] [] (.core 0)).Inv := by cases topo <;> (constructor <;> decide)

theorem witness_ErrorsArePrecise :
    (alone [] [] 0).Inv ∧ (alone [] [] 0).nextAgent = .core 0 ∧ ((alone [] [] 0).coreAt 0).status = .run
      ∧ step (alone [] [] 0) = .next (after (alone [] [] 0))
      ∧ ((after (alone [] [] 0)).coreAt 0).status = .faulted :=
  ⟨inv_alone_empty, by decide, by decide, step_after (by decide), by decide⟩

theorem witness_FetchBoundBeforeDecode :
    (CoreState.boot []).tape.len ≤ (CoreState.boot []).pc.toNat
      ∧ (CoreState.boot [99]).pc.toNat < (CoreState.boot [99]).tape.len
      ∧ (fetchWords (CoreState.boot [99]))[1]? = none := by decide

theorem witness_PushOutcomes :
    Queue.push (some 2) ⟨[1, 2], false, true⟩ 3 = .gone
      ∧ Queue.push (some 2) ⟨[1], false, false⟩ 3 = .pushed ⟨[1, 3], false, false⟩
      ∧ Queue.push (some 2) ⟨[1, 2], false, false⟩ 3 = .blocked := by decide

theorem witness_PopOutcomes :
    Queue.pop ⟨[1, 2], true, false⟩ = .got 1 ⟨[2], true, false⟩ ∧ Queue.pop ⟨[], true, false⟩ = .endOfStream
      ∧ Queue.pop ⟨[], false, false⟩ = .blocked := by decide

/-- A loaded FEEDBACK network whose `Q[0]` has room. -/
def roomy : State := (loaded .feedback).setQueue 0 ⟨[4], false, false⟩

/-- A loaded FEEDBACK network whose core 0 has halted. -/
def dropping : State := (loaded .feedback).halt

theorem inv_loaded (topo : Topology) : (loaded topo).Inv := by cases topo <;> (constructor <;> decide)
theorem inv_roomy : roomy.Inv := by constructor <;> decide
theorem inv_dropping : dropping.Inv := by constructor <;> decide

/-- LINEAR; FEEDBACK with room; FEEDBACK with core 0 gone; FEEDBACK with `Q[0]` full. -/
theorem witness_ForwarderTransfers :
    ((loaded .linear).Inv ∧ (loaded .linear).cfg.isStandalone = false ∧ ((loaded .linear).queueAt 2).items = [7]
      ∧ (loaded .linear).cfg.isFeedback = false ∧ (loaded .linear).runEn = true ∧ (loaded .linear).fwdDone = false)
    ∧ (roomy.Inv ∧ roomy.cfg.isFeedback = true ∧ (roomy.queueAt 0).items.length < 2 ∧ roomy.cfg.qdepth = some 2
      ∧ (roomy.queueAt 0).consGone = false)
    ∧ (dropping.Inv ∧ (dropping.queueAt 0).consGone = true)
    ∧ ((loaded .feedback).Inv ∧ (loaded .feedback).cfg.isFeedback = true
      ∧ ((loaded .feedback).queueAt 0).items.length = 2 ∧ ((loaded .feedback).queueAt 0).consGone = false) :=
  ⟨⟨inv_loaded .linear, by decide⟩, ⟨inv_roomy, by decide⟩, ⟨inv_dropping, by decide⟩, inv_loaded .feedback, by decide⟩

/-- Both cores halted, nothing left in the last queue. -/
def halted (topo : Topology) : State := ((pair topo [99] [99] .forwarder).halt.atCore 1).halt

/-- The same, the forwarder finished, a reset by the host to come. -/
def drained : State :=
  let s := forwarderFinish (halted .linear)
  { s with env := { s.env with sched := [.core 0, .host], hostActs := [.reset Config.vectors 0 0] } }

theorem inv_halted (topo : Topology) : (halted topo).Inv := by cases topo <;> (constructor <;> decide)
theorem inv_drained : drained.Inv := by constructor <;> decide

/-- Both topologies; and a forwarder that may not finish, the last core still running. -/
theorem witness_ForwarderFinishes :
    (∀ topo, (halted topo).Inv ∧ (halted topo).cfg.isStandalone = false ∧ ((halted topo).queueAt 2).items = []
      ∧ (halted topo).runEn = true ∧ (halted topo).fwdDone = false ∧ ((halted topo).queueAt 2).prodClosed = true)
    ∧ ((pair .linear [99] [] (.core 0)).Inv ∧ ((pair .linear [99] [] (.core 0)).queueAt 2).items = []
      ∧ ((pair .linear [99] [] (.core 0)).queueAt 2).prodClosed = false) :=
  ⟨fun topo => ⟨inv_halted topo, by cases topo <;> decide⟩, inv_pair .linear, by decide⟩

theorem witness_NetStateAndStart : State.reset.runEn = false ∧ drained.runEn = true ∧ drained.netState = .drained := by
  decide

/-- A pair whose core 0 has run away. -/
def failed : State := after (pair .linear [] [99] (.core 0))
theorem inv_failed : failed.Inv := by constructor <;> decide

theorem witness_FailedAndDrainedAreAbsorbing :
    (failed.Inv ∧ NotReset failed ∧ step failed = .next (after failed) ∧ failed.netState = .failed)
    ∧ (drained.Inv ∧ NotReset drained ∧ step drained = .next (after drained) ∧ drained.netState = .drained) :=
  ⟨⟨inv_failed, notReset_of_core (k := 1) (by decide), step_after (by decide), by decide⟩,
    inv_drained, notReset_of_core (k := 0) (by decide), step_after (by decide), by decide⟩

theorem witness_ResultIsTheTap :
    { drained with tap := 43210, tapValid := true }.result = some 43210 ∧ drained.result = none := by decide

/-- No fault yet and the step faults core 0; a fault already; no fault yet and none comes. -/
theorem witness_FirstFailureIsLatched :
    ((alone [] [] 0).Inv ∧ NotReset (alone [] [] 0) ∧ step (alone [] [] 0) = .next (after (alone [] [] 0))
      ∧ (alone [] [] 0).firstFailValid = false ∧ ((alone [] [] 0).coreAt 0).status ≠ .faulted
      ∧ ((after (alone [] [] 0)).coreAt 0).status = .faulted)
    ∧ (failed.Inv ∧ NotReset failed ∧ step failed = .next (after failed) ∧ failed.firstFailValid = true)
    ∧ ((halted .linear).Inv ∧ NotReset (halted .linear) ∧ step (halted .linear) = .next (after (halted .linear))
      ∧ (halted .linear).firstFailValid = false
      ∧ ∀ k, k < 2 → ((after (halted .linear)).coreAt k).status ≠ .faulted) :=
  ⟨⟨inv_alone_empty, notReset_of_core (k := 0) (by decide), step_after (by decide), by decide⟩,
    ⟨inv_failed, notReset_of_core (k := 1) (by decide), step_after (by decide), by decide⟩,
    inv_halted .linear, notReset_of_forwarder (by decide), step_after (by decide), by decide⟩

/-- The configuration of `pair`. -/
theorem witness_ResetStateOfEveryCore : (pair .linear [99] [5, 6] .host).cfg.images[1]? = some [5, 6] := by decide

theorem witness_ResetSeedsTheQueues :
    ((pair .linear [99] [] .host).cfg.valid = true ∧ (pair .feedback [99] [] .host).cfg.valid = true
      ∧ (pair .linear [99] [] .host).cfg.wiring = .network .linear [4, 3] 0
      ∧ (pair .linear [99] [] .host).cfg.k = 2 ∧ ([4, 3] : List Word)[1]? = some 3)
    ∧ ((alone [99] [7, 8] 0).cfg.wiring = .standalone [7, 8] true ∧ Config.vectors.wiring = .standalone [] true) := by
  decide

theorem witness_EmptyImageRunsAway : Config.vectors.images[0]? = some [] := by decide

theorem witness_EveryValidResetMeetsTheInvariant :
    Config.vectors.valid = true ∧ (pair .feedback [99] [] .host).cfg.valid = true := by decide

/-- A standalone core not started, `INQ` closed, `OUTQ` empty and open, the host about to do `h`. -/
def hostTurn (h : HostAct) : State :=
  { alone [99] [] 0 with runEn := false, env := { sched := [.host], tick := 0, hostActs := [h], hostGot := [] } }

/-- A core's turn, decoding and failing to; the forwarder's turn with a step and without one; the host's turn with an action
done (start), refused (a feed into a closed `INQ`) and waiting (a drain of an empty open `OUTQ`), and with nothing to do. -/
theorem witness_StepRunsTheDecodedInstruction :
    ((alone [99] [] 0).nextAgent = .core 0 ∧ (alone [99] [] 0).enabled (.core 0) = true
      ∧ decode (fetchWords ((alone [99] [] 0).coreAt 0)) = .ok .hlt)
    ∧ ((alone [] [] 0).nextAgent = .core 0 ∧ (alone [] [] 0).enabled (.core 0) = true
      ∧ decode (fetchWords ((alone [] [] 0).coreAt 0)) = .error .noWord)
    ∧ (roomy.nextAgent = .forwarder ∧ (forwarderStep roomy.passTurn).isSome = true)
    ∧ forwarderStep (loaded .feedback).passTurn = none
    ∧ (∀ h, (hostTurn h).nextAgent = .host ∧ (hostTurn h).env.hostActs = [h])
    ∧ hostDo .start (hostTurn .start).passTurn.dropHostAct
        = .done { (hostTurn .start).passTurn.dropHostAct with runEn := true }
    ∧ hostDo (.feed 1) (hostTurn (.feed 1)).passTurn.dropHostAct = .refused .hostContract
    ∧ hostDo .drain (hostTurn .drain).passTurn.dropHostAct = .waits
    ∧ (alone [99] [] 0).env.hostActs = [] :=
  ⟨by decide, by decide, by decide, by decide, fun _ => ⟨rfl, rfl⟩, by decide⟩

/-- An IN on an empty queue: enabled if the queue is closed (I2), not if it is open (I3). An OUT: enabled with one place
left, or with the consumer gone, not on a full queue (I11, I18). -/
theorem witness_CoreStepEnabledExactly :
    (alone [3, 0, 99] [] 0).enabled (.core 0) = true
      ∧ ((alone [3, 0, 99] [] 0).setQueue 0 Queue.fresh).enabled (.core 0) = false
      ∧ (pair .linear [104, 5] [] (.core 0)).enabled (.core 0) = true
      ∧ ((pair .linear [104, 5] [] (.core 0)).setQueue 1 ⟨[1, 2], false, true⟩).enabled (.core 0) = true
      ∧ ((pair .linear [104, 5] [] (.core 0)).setQueue 1 ⟨[1, 2], false, false⟩).enabled (.core 0) = false := by decide

theorem witness_TurnsPassAndStuckExactly :
    (drained.enabled drained.nextAgent = false ∧ drained.anyEnabled = true)
      ∧ step (after (alone [99] [] 0)) = .fault .stuck
      ∧ step { State.reset with runEn := true } = .refused .hostContract := ⟨by decide, rfl, rfl⟩

/-- NET3's shape: both cores at an IN of an empty open queue, nothing for the forwarder. -/
def deadNet : State := ((pair .feedback [3, 0] [3, 0] (.core 0)).setQueue 0 Queue.fresh).setQueue 1 Queue.fresh

/-- The same, the host about to reset it. -/
def deadNetReset : State :=
  { deadNet with env := { deadNet.env with hostActs := [.reset Config.vectors 0 0] } }

theorem inv_deadNet : deadNet.Inv := by constructor <;> decide

/-- A deadlock; one with a reset pending, whose turn passes; a drained network and a seeded one are none (log 13). -/
theorem witness_DeadlockExactly :
    (deadNet.deadlocked = true ∧ deadNet.env.hostActs = [])
      ∧ (deadNetReset.deadlocked = true ∧ NotReset deadNetReset ∧ step deadNetReset = .next (after deadNetReset))
      ∧ drained.deadlocked = false ∧ { deadNet with runEn := false }.deadlocked = false :=
  ⟨by decide, ⟨by decide, notReset_of_core (k := 0) (by decide), step_after (by decide)⟩, by decide⟩

theorem witness_DeadlockedNetworksHaveEveryCoreRunning : deadNet.Inv ∧ deadNet.deadlocked = true :=
  ⟨inv_deadNet, by decide⟩

/-- A pair that has run away, core after core, its forwarder finished. -/
def failedNet : State :=
  { forwarderFinish (((pair .linear [] [] (.core 0)).raise (.runaway 0)).atCore 1 |>.raise (.runaway 0)) with cur := 0 }

theorem inv_failedNet : failedNet.Inv := by constructor <;> decide
theorem inv_alone_halted : (alone [99] [] 0).halt.Inv := by constructor <;> decide
theorem inv_alone_faulted : (after (alone [] [] 0)).Inv := by constructor <;> decide

/-- The ends: a halted core, a faulted core, a drained network, a failed one, a deadlock, a core that waits. -/
theorem witness_RunEndsExactly :
    ((alone [99] [] 0).halt.Inv ∧ (alone [99] [] 0).halt.goodFinal = true
      ∧ (alone [99] [] 0).halt.endOf = some .halted ∧ 0 < (alone [99] [] 0).halt.cfg.k)
    ∧ ((after (alone [] [] 0)).Inv ∧ (after (alone [] [] 0)).endOf = some .faulted)
    ∧ (drained.Inv ∧ drained.goodFinal = true ∧ drained.endOf = some .halted)
    ∧ (failedNet.Inv ∧ failedNet.runOver = true ∧ failedNet.endOf = some .faulted)
    ∧ (deadNet.Inv ∧ deadNet.endOf = some .deadlocked ∧ deadNet.runOver = false)
    ∧ (blockedIn.endOf = some .waiting ∧ blockedIn.runOver = false) :=
  ⟨⟨inv_alone_halted, by decide⟩, ⟨inv_alone_faulted, by decide⟩, ⟨inv_drained, by decide⟩,
    ⟨inv_failedNet, by decide⟩, ⟨inv_deadNet, by decide⟩, by decide⟩

/-- R189's loop `1105,1,0`. -/
def looping : State := alone [1105, 1, 0] [] 0

/-- The host about to start a machine that runs. -/
def startedTwice : State :=
  { looping with env := { looping.env with sched := [.host], hostActs := [.start] } }

/-- An end, at once and after one step; a loop out of fuel; a refusal; a bound that is not used up. -/
theorem witness_BoundedRunIsARun :
    run 0 deadNet = .ended .deadlocked deadNet
      ∧ run 1 (alone [99] [] 0) = .ended .halted (after (alone [99] [] 0))
      ∧ run 1 looping = .outOfFuel (after looping)
      ∧ run 1 startedTwice = .refused .hostContract startedTwice
      ∧ ((0 : Nat) ≤ 1 ∧ ∀ t, run 0 deadNet ≠ .outOfFuel t) := by
  have h : run 0 deadNet = .ended .deadlocked deadNet := run_ended (by decide) 0
  refine ⟨h, ?_, ?_, ?_, by decide, fun t => by rw [h]; simp⟩
  · rw [run_succ_next (by decide) (step_after (by decide)), run_ended (e := .halted) (by decide)]
  · rw [run_succ_next (by decide) (step_after (by decide)), run_zero (by decide)]
  · exact run_succ_refused (by decide) rfl 0

/-- Core 0 pushes into the queue that core 1 pops. -/
def chain : State := pair .linear [104, 7] [3, 0] (.core 0)
theorem inv_chain : chain.Inv := by constructor <;> decide

/-- Core 0 adds, and its consumer, core 1, halts. -/
def chainEnds : State := pair .linear [1101, 1, 2, 0] [99] (.core 0)
theorem inv_chainEnds : chainEnds.Inv := by constructor <;> decide

/-- A push against a pop; a step that pushes nothing against a consumer that terminates. -/
theorem witness_StepsOfTwoCoresCommute :
    (chain.Inv ∧ coreEnabled chain 0 = true ∧ coreEnabled chain 1 = true
      ∧ (∃ a b, coreStep (chain.atCore 0) = .next a ∧ coreStep (chain.atCore 1) = .next b
        ∧ (b.coreAt 1).status = .run ∧ (a.coreAt 0).status ≠ .faulted))
    ∧ (chainEnds.Inv ∧ coreEnabled chainEnds 0 = true ∧ coreEnabled chainEnds 1 = true
      ∧ (∃ a b, coreStep (chainEnds.atCore 0) = .next a ∧ coreStep (chainEnds.atCore 1) = .next b
        ∧ (b.coreAt 1).status = .halted ∧ (a.queueAt 1).items = (chainEnds.queueAt 1).items
        ∧ (a.coreAt 0).status ≠ .faulted)) :=
  ⟨⟨inv_chain, by decide, by decide, _, _, rfl, rfl, by decide, by decide⟩,
    inv_chainEnds, by decide, by decide, _, _, rfl, rfl, by decide, by decide, by decide⟩

theorem witness_EveryStepKeepsTheInvariant : chain.Inv ∧ step chain = .next (after chain) := ⟨inv_chain, step_after (by decide)⟩

theorem witness_TerminatedCoresNeverChange :
    failed.Inv ∧ NotReset failed ∧ step failed = .next (after failed) ∧ 0 < failed.cfg.k
      ∧ (failed.coreAt 0).status ≠ .run :=
  ⟨inv_failed, notReset_of_core (k := 1) (by decide), step_after (by decide), by decide⟩

/-- A5: the tape grows. -/
def growing : State := alone [1101, 2, 3, 10, 99] [] 0
theorem inv_growing : growing.Inv := by constructor <;> decide

theorem witness_TapesOnlyGrow :
    growing.Inv ∧ NotReset growing ∧ step growing = .next (after growing)
      ∧ (growing.coreAt 0).tape.len < ((after growing).coreAt 0).tape.len :=
  ⟨inv_growing, notReset_of_core (k := 0) (by decide), step_after (by decide), by decide⟩

/-- A standalone core about to be started; a network about to be started. -/
def starting : State := { State.reset with env := { State.reset.env with sched := [.host] } }
def startingNet : State :=
  { pair .linear [99] [99] .host with runEn := false, env := { starting.env with hostActs := [.start] } }
theorem inv_starting : starting.Inv := by constructor <;> decide
theorem inv_startingNet : startingNet.Inv := by constructor <;> decide

theorem notReset_of_start {s : State} (h : s.env.hostActs = [.start]) : NotReset s := by
  intro c tap n rest _ hh
  rw [h] at hh
  cases hh

/-- A core's turn; the forwarder's in both topologies; the host's, standalone and in a network. -/
theorem witness_AgentsTouchOnlyTheirOwn :
    (chain.Inv ∧ NotReset chain ∧ step chain = .next (after chain) ∧ chain.nextAgent = .core 0)
    ∧ ((loaded .linear).Inv ∧ NotReset (loaded .linear) ∧ step (loaded .linear) = .next (after (loaded .linear))
      ∧ (loaded .linear).nextAgent = .forwarder ∧ (loaded .linear).cfg.isFeedback = false)
    ∧ (roomy.Inv ∧ NotReset roomy ∧ step roomy = .next (after roomy) ∧ roomy.nextAgent = .forwarder)
    ∧ (starting.Inv ∧ NotReset starting ∧ step starting = .next (after starting) ∧ starting.nextAgent = .host
      ∧ starting.cfg.isStandalone = true)
    ∧ (startingNet.Inv ∧ NotReset startingNet ∧ step startingNet = .next (after startingNet)
      ∧ startingNet.nextAgent = .host ∧ startingNet.cfg.isStandalone = false) :=
  ⟨⟨inv_chain, notReset_of_core (k := 0) (by decide), step_after (by decide), by decide⟩,
    ⟨inv_loaded .linear, notReset_of_forwarder (by decide), step_after (by decide), by decide⟩,
    ⟨inv_roomy, notReset_of_forwarder (by decide), step_after (by decide), by decide⟩,
    ⟨inv_starting, notReset_of_start (by decide), step_after (by decide), by decide⟩,
    inv_startingNet, notReset_of_start (by decide), step_after (by decide), by decide⟩

/-- A push, and a pop. -/
theorem witness_QueuesAreFirstInFirstOut :
    (chain.Inv ∧ NotReset chain ∧ step chain = .next (after chain)
      ∧ ((after chain).queueAt 1).items = (chain.queueAt 1).items ++ [7])
    ∧ ((loaded .linear).Inv ∧ NotReset (loaded .linear) ∧ step (loaded .linear) = .next (after (loaded .linear))
      ∧ ((loaded .linear).queueAt 2).items = 7 :: ((after (loaded .linear)).queueAt 2).items) :=
  ⟨⟨inv_chain, notReset_of_core (k := 0) (by decide), step_after (by decide), by decide⟩,
    inv_loaded .linear, notReset_of_forwarder (by decide), step_after (by decide), by decide⟩

theorem witness_QueueFlagsAreNeverCleared :
    failed.Inv ∧ NotReset failed ∧ step failed = .next (after failed) ∧ (failed.queueAt 1).prodClosed = true
      ∧ (failed.queueAt 0).consGone = true :=
  ⟨inv_failed, notReset_of_core (k := 1) (by decide), step_after (by decide), by decide⟩

theorem witness_OnlyResetChangesTheConfiguration :
    (NotReset chain ∧ step chain = .next (after chain)) ∧ Config.vectors.valid = true
      ∧ { Config.vectors with maxlen := 0 }.valid = false :=
  ⟨⟨notReset_of_core (k := 0) (by decide), step_after (by decide)⟩, by decide⟩

/-- `growing` with queues of two items. -/
def narrow : State := { growing with cfg := { growing.cfg with qdepth := some 2 } }

/-- A network; standalone with `INQ` closed, open, open with the core gone, open and full; `OUTQ` with an item, empty and
open, empty and closed, and abandoned. -/
theorem witness_HostKeepsToItsContract :
    chain.cfg.isStandalone = false
    ∧ (growing.cfg.isStandalone = true ∧ (growing.queueAt 0).prodClosed = true)
    ∧ (((growing.setQueue 0 Queue.fresh).queueAt 0).prodClosed = false
      ∧ ((growing.setQueue 0 Queue.fresh).queueAt 0).consGone = false ∧ growing.cfg.qdepth = none)
    ∧ ((growing.setQueue 0 Queue.fresh.abandon).queueAt 0).consGone = true
    ∧ (narrow.cfg.isStandalone = true ∧ narrow.cfg.qdepth = some 2
      ∧ ((narrow.setQueue 0 ⟨[1, 2], false, false⟩).queueAt 0).prodClosed = false
      ∧ ((narrow.setQueue 0 ⟨[1, 2], false, false⟩).queueAt 0).consGone = false
      ∧ 2 ≤ ((narrow.setQueue 0 ⟨[1, 2], false, false⟩).queueAt 0).items.length)
    ∧ ((growing.setQueue 1 ⟨[8], false, false⟩).queueAt 1).items = [8]
    ∧ ((growing.setQueue 1 ⟨[8], false, false⟩).queueAt 1).consGone = false
    ∧ ((growing.queueAt 1).consGone = false ∧ (growing.queueAt 1).items = [] ∧ (growing.queueAt 1).prodClosed = false)
    ∧ (((growing.setQueue 1 ⟨[], true, false⟩).queueAt 1).items = []
      ∧ ((growing.setQueue 1 ⟨[], true, false⟩).queueAt 1).prodClosed = true
      ∧ ((growing.setQueue 1 ⟨[], true, false⟩).queueAt 1).consGone = false)
    ∧ ((growing.setQueue 1 ⟨[], false, true⟩).queueAt 1).consGone = true := by decide

theorem witness_FetchWordIsRunFirst :
    decodeTableWord 64 99 = some .hlt
      ∧ decodeTableWord 64 4 = some (.out ⟨.positional, 0⟩) := by decide

end Sys2Proof.Tests
end

/-! # Proofs: the numbers, and the invariant kept by every step (00_scope.md) -/

namespace Sys2Proof.Machine

/-! ### wrap64 (R7) -/

/-- `wrap64` is the balanced remainder modulo `2^64`. -/
theorem wrap64_toInt (z : Int) : (wrap64 z).toInt = z.bmod (2 ^ 64) := BitVec.toInt_ofInt ..

/-- Settles O1: the three facts are those of the balanced remainder. -/
theorem wrapIsCongruentAndInRange : Obligations.WrapIsCongruentAndInRange := by
  intro z
  rw [wrap64_toInt]
  have hlow : -(2 ^ 63) ≤ z.bmod (2 ^ 64) := Int.le_bmod (by decide)
  have hhigh : z.bmod (2 ^ 64) < 2 ^ 63 := Int.bmod_lt (by decide)
  exact ⟨Int.bmod_emod, hlow, Int.le_sub_one_of_lt hhigh,
    fun hz hz' => Int.bmod_eq_of_le hz (Int.lt_of_le_sub_one hz')⟩

end Sys2Proof.Machine

namespace Sys2Proof

/-! ### What a valid configuration says (R6, U2, U16) -/

theorem Config.valid_iff (c : Config) :
    c.valid = true ↔ 1 ≤ c.k ∧ 1 ≤ c.maxlen ∧ c.maxlen ≤ 2 ^ 63 - 1 ∧ (∀ d, c.qdepth = some d → 2 ≤ d)
      ∧ (∀ img ∈ c.images, img.length ≤ c.maxlen) ∧ c.wiringValid = true := by
  cases hq : c.qdepth <;> simp [Config.valid, hq, and_assoc]

theorem Config.k_of_standalone {c : Config} (hv : c.valid = true) (hs : c.isStandalone = true) : c.k = 1 := by
  obtain ⟨-, -, -, -, -, hw⟩ := c.valid_iff.mp hv
  cases hc : c.wiring with
  | network t phase stimulus => simp [Config.isStandalone, hc] at hs
  | standalone inq closed =>
    simp only [Config.wiringValid, hc, Bool.and_eq_true, beq_iff_eq] at hw
    exact hw.1

theorem Config.not_standalone_of_feedback {c : Config} (h : c.isFeedback = true) : c.isStandalone = false := by
  cases hc : c.wiring with
  | network t phase stimulus => simp [Config.isStandalone, hc]
  | standalone inq closed => simp [Config.isFeedback, hc] at h

end Sys2Proof

namespace Sys2Proof.Machine

/-! ### A legal core -/

theorem CoreState.legal_iff (maxlen : Nat) (c : CoreState) :
    c.legal maxlen = true ↔ c.tape.wf = true ∧ c.tape.len ≤ maxlen ∧ 0 ≤ c.pc.toInt
      ∧ (c.status = .faulted ∨ c.fault = FaultRecord.none) := by
  simp [CoreState.legal, and_assoc]

/-- A core that has not faulted has no record to check. -/
theorem CoreState.recordLegal_of_not_faulted {c : CoreState} (h : c.status ≠ .faulted) : c.recordLegal = true := by
  simp [CoreState.recordLegal, h]

/-- Every error a core raises has a class of R150 other than 0, 1 and 7. -/
theorem CoreError.cause_legal (e : CoreError) : e.cause ≠ 0 ∧ e.cause ≠ 1 ∧ e.cause ≠ 7 := by
  cases e <;> simp [CoreError.cause]

theorem CoreState.recordLegal_record (c : CoreState) (e : CoreError) :
    { c with status := .faulted, fault := e.record c.pc }.recordLegal = true := by
  obtain ⟨h0, h1, h7⟩ := e.cause_legal
  simp_all [CoreState.recordLegal, CoreError.record]

theorem Tape.len_write_le {t : Tape} {a n : Nat} (v : Word) (ht : t.len ≤ n) (ha : a < n) : (t.write a v).len ≤ n := by
  rw [Tape.len_write]
  exact Nat.max_le.mpr ⟨ht, ha⟩

/-- `PC` stays in its range when it moves on inside the address space (R11). -/
theorem pc_add_nonneg {pc : Word} {n : Nat} (h : pc.toNat + n < 2 ^ 63) : 0 ≤ (pc + BitVec.ofNat 64 n).toInt := by
  apply toInt_nonneg_of_toNat_lt
  rw [BitVec.toNat_add, BitVec.toNat_ofNat]
  omega

/-! ### Statuses and the failure latch -/

theorem State.anyFaulted_iff (s : State) :
    s.anyFaulted = true ↔ ∃ i, i < s.cores.length ∧ (s.coreAt i).status = .faulted := by
  simp only [State.anyFaulted, List.any_eq_true, decide_eq_true_eq, List.mem_iff_getElem]
  constructor
  · rintro ⟨c, ⟨i, hi, rfl⟩, hf⟩
    exact ⟨i, hi, by simpa [State.coreAt, hi] using hf⟩
  · rintro ⟨i, hi, hf⟩
    exact ⟨_, ⟨i, hi, rfl⟩, by simpa [State.coreAt, hi] using hf⟩

theorem State.anyFaulted_congr {s t : State} (hl : t.cores.length = s.cores.length)
    (hs : ∀ i, (t.coreAt i).status = (s.coreAt i).status) : t.anyFaulted = s.anyFaulted := by
  rw [Bool.eq_iff_iff, State.anyFaulted_iff, State.anyFaulted_iff]
  simp only [hl, hs]

/-- A core that had not faulted is replaced. -/
theorem State.anyFaulted_setCore {s : State} {c : CoreState} (hc : s.cur < s.cores.length)
    (hs : s.core.status ≠ .faulted) :
    (s.setCore c).anyFaulted = (decide (c.status = .faulted) || s.anyFaulted) := by
  rw [Bool.eq_iff_iff, Bool.or_eq_true, decide_eq_true_eq, State.anyFaulted_iff, State.anyFaulted_iff,
    State.setCore_length]
  constructor
  · rintro ⟨i, hi, hf⟩
    by_cases hic : i = s.cur
    · subst hic
      exact .inl (by simpa [State.coreAt_setCore, hc] using hf)
    · exact .inr ⟨i, hi, by simpa [State.coreAt_setCore_other hic] using hf⟩
  · rintro (hf | ⟨i, hi, hf⟩)
    · exact ⟨s.cur, hc, by simpa [State.coreAt_setCore, hc] using hf⟩
    · have hic : i ≠ s.cur := by rintro rfl; exact hs hf
      exact ⟨i, hi, by rwa [State.coreAt_setCore_other hic]⟩

/-- The latch keeps a core that was latched, else it takes the current one (R133). -/
theorem State.latchFail_eq (s : State) :
    s.latchFail = { s with
      firstFailValid := true, firstFailId := if s.firstFailValid then s.firstFailId else s.cur } := by
  obtain ⟨cfg, cores, queues, tap, tapValid, fwdDone, runEn, v, n, cur, env⟩ := s
  cases v <;> rfl

/-! ### The flags of the queues after one is replaced -/

theorem State.prodClosed_setQueue {s : State} {i j : Nat} {q : Queue}
    (h : i = j → q.prodClosed = (s.queueAt j).prodClosed) :
    ((s.setQueue j q).queueAt i).prodClosed = (s.queueAt i).prodClosed := by
  rw [State.queueAt_setQueue]
  split
  · rename_i hi
    rw [h hi.1, hi.1]
  · rfl

theorem State.consGone_setQueue {s : State} {i j : Nat} {q : Queue}
    (h : i = j → q.consGone = (s.queueAt j).consGone) :
    ((s.setQueue j q).queueAt i).consGone = (s.queueAt i).consGone := by
  rw [State.queueAt_setQueue]
  split
  · rename_i hi
    rw [h hi.1, hi.1]
  · rfl

/-! ### What a termination leaves in each queue, field by field (R130) -/

section closePorts

variable {s : State} (h : s.cur + 1 < s.queues.length) (j : Nat)

@[simp] theorem State.items_closePorts (s : State) (j : Nat) :
    (s.closePorts.queueAt j).items = (s.queueAt j).items := by
  rw [State.queueAt_closePorts]
  split
  · rfl
  · split <;> rfl

@[simp] theorem State.fits_closePorts (s : State) (j : Nat) (d : Option Nat) :
    (s.closePorts.queueAt j).fits d = (s.queueAt j).fits d := by
  simp only [Queue.fits, State.items_closePorts]

include h

theorem State.prodClosed_closePorts :
    (s.closePorts.queueAt j).prodClosed = (decide (j = s.cur + 1) || (s.queueAt j).prodClosed) := by
  rw [State.queueAt_closePorts]
  by_cases h1 : j = s.cur + 1
  · simp [h1, h]
  · by_cases h0 : j = s.cur <;> simp [h0, h1, Nat.lt_of_succ_lt h]

theorem State.consGone_closePorts :
    (s.closePorts.queueAt j).consGone = (decide (j = s.cur) || (s.queueAt j).consGone) := by
  rw [State.queueAt_closePorts]
  by_cases h0 : j = s.cur
  · simp [h0, Nat.lt_of_succ_lt h]
  · by_cases h1 : j = s.cur + 1 <;> simp [h0, h1, h]

end closePorts

/-! ### Rules of the invariant: one for each kind of change -/

/-- The core being stepped exists, has not terminated, and the hardware is started (R75 step 0). -/
structure State.Stepping (s : State) : Prop where
  curLt : s.cur < s.cfg.k
  running : s.core.status = .run
  started : s.runEn = true

theorem State.Stepping.setQueue {s : State} {j : Nat} {q : Queue} (h : s.Stepping) : (s.setQueue j q).Stepping :=
  ⟨h.curLt, h.running, h.started⟩

namespace State.Inv

variable {s : State}

theorem k_pos (h : s.Inv) : 1 ≤ s.cfg.k := (s.cfg.valid_iff.mp h.cfgValid).1

theorem curLtCores (h : s.Inv) (hs : s.Stepping) : s.cur < s.cores.length := h.coreCount ▸ hs.curLt

theorem portsExist (h : s.Inv) (hs : s.Stepping) : s.cur + 1 < s.queues.length := by
  have := hs.curLt
  rw [h.queueCount]
  omega

theorem coreLegal (h : s.Inv) (hs : s.Stepping) : s.core.legal s.cfg.maxlen = true := h.coresLegal _ hs.curLt

/-- The model's own fields are not the invariant's. -/
theorem withEnvCur (h : s.Inv) (cur : Nat) (env : Env) : State.Inv { s with cur := cur, env := env } :=
  { h with }

theorem atCore (h : s.Inv) (i : Nat) : (s.atCore i).Inv := h.withEnvCur i s.env

theorem dropHostAct (h : s.Inv) : s.dropHostAct.Inv := h.withEnvCur s.cur _

theorem passTurn (h : s.Inv) : s.passTurn.Inv := by
  rw [State.passTurn_eq]
  exact h.withEnvCur s.cur _

/-- The start (R131). -/
theorem start (h : s.Inv) : State.Inv { s with runEn := true } :=
  { h with seeded := nofun }

/-- The tap takes a value, after the start (R128). -/
theorem setTap (h : s.Inv) (hr : s.runEn = true) (v : Word) : State.Inv { s with tap := v, tapValid := true } :=
  { h with seeded := fun hf => absurd (hr.symm.trans hf) nofun }

/-- A queue's items change. Its flags are kept, but for the two far ends that are the host's where the core stands
alone (R138). -/
theorem setQueue {j : Nat} {q : Queue} (h : s.Inv) (hfit : q.fits s.cfg.qdepth = true)
    (hclosed : s.cfg.isStandalone = false ∨ j ≠ 0 → q.prodClosed = (s.queueAt j).prodClosed)
    (hgone : s.cfg.isStandalone = false ∨ j ≠ s.cfg.k → q.consGone = (s.queueAt j).consGone)
    (hdone : s.fwdDone = true → j = s.cfg.k → q.items = []) : (s.setQueue j q).Inv where
  cfgValid := h.cfgValid
  coreCount := h.coreCount
  queueCount := by simpa using h.queueCount
  coresLegal := h.coresLegal
  recordsLegal := h.recordsLegal
  queuesFit i hi := by
    rw [State.queueAt_setQueue]
    split
    · exact hfit
    · exact h.queuesFit i hi
  outClosed i hi := by
    rw [State.prodClosed_setQueue fun hij => hclosed (.inr (hij ▸ Nat.succ_ne_zero i))]
    exact h.outClosed i hi
  inGone i hi := by
    rw [State.consGone_setQueue fun hij => hgone (.inr (hij ▸ Nat.ne_of_lt hi))]
    exact h.inGone i hi
  lastGone hs := by
    rw [State.consGone_setQueue fun _ => hgone (.inl hs)]
    exact h.lastGone hs
  firstClosedFeedback hf := by
    rw [State.prodClosed_setQueue fun _ => hclosed (.inl (Config.not_standalone_of_feedback hf))]
    exact h.firstClosedFeedback hf
  firstClosedLinear hs hf := by
    rw [State.prodClosed_setQueue fun _ => hclosed (.inl hs)]
    exact h.firstClosedLinear hs hf
  doneAfterLast hd := by
    obtain ⟨hst, hi⟩ := h.doneAfterLast hd
    refine ⟨hst, ?_⟩
    rw [State.queueAt_setQueue]
    split
    · rename_i hj
      exact hdone hd hj.1.symm
    · exact hi
  failValid := h.failValid
  failIsFaulted := h.failIsFaulted
  seeded := h.seeded

/-- A `pop` keeps the invariant, from any queue: an empty `Q[K]` has nothing to pop (R122, R129). -/
theorem setQueue_pop {j : Nat} {q : Queue} {v : Word} (h : s.Inv) (hj : j ≤ s.cfg.k)
    (hq : (s.queueAt j).pop = .got v q) : (s.setQueue j q).Inv := by
  obtain ⟨hi, hp, hg⟩ := Queue.pop_got_iff.mp hq
  refine h.setQueue (Queue.fits_of_pop hq (h.queuesFit j hj)) (fun _ => hp) (fun _ => hg) fun hd hjk => ?_
  obtain ⟨-, hempty⟩ := h.doneAfterLast hd
  rw [hjk, hempty] at hi
  cases hi

/-- A `push` keeps the invariant, but for one into `Q[K]` after the forwarder has finished (R121, R129). -/
theorem setQueue_push {j : Nat} {q : Queue} {v : Word} (h : s.Inv) (hj : s.fwdDone = true → j ≠ s.cfg.k)
    (hq : (s.queueAt j).push s.cfg.qdepth v = .pushed q) : (s.setQueue j q).Inv := by
  obtain ⟨hg, -, rfl⟩ := Queue.push_pushed_iff.mp hq
  exact h.setQueue (Queue.fits_of_push hq) (fun _ => rfl) (fun _ => rfl) fun hd hjk => absurd hjk (hj hd)

/-! The current core goes on (R75). -/

/-- The core's registers and tape change while it goes on running. -/
theorem setCore {c : CoreState} (h : s.Inv) (hs : s.Stepping) (hst : c.status = .run)
    (hl : c.legal s.cfg.maxlen = true) : (s.setCore c).Inv := by
  have hstatus : ∀ i, ((s.setCore c).coreAt i).status = (s.coreAt i).status := by
    intro i
    rw [State.coreAt_setCore]
    split
    · rename_i hi
      rw [hst, hi.1]
      exact hs.running.symm
    · rfl
  exact {
    cfgValid := h.cfgValid
    coreCount := by simpa using h.coreCount
    queueCount := h.queueCount
    coresLegal := fun i hi => by
      rw [State.coreAt_setCore]
      split
      · exact hl
      · exact h.coresLegal i hi
    recordsLegal := fun i hi => by
      rw [State.coreAt_setCore]
      split
      · exact CoreState.recordLegal_of_not_faulted (by simp [hst])
      · exact h.recordsLegal i hi
    queuesFit := h.queuesFit
    outClosed := fun i hi => by rw [hstatus]; exact h.outClosed i hi
    inGone := fun i hi => by rw [hstatus]; exact h.inGone i hi
    lastGone := h.lastGone
    firstClosedFeedback := h.firstClosedFeedback
    firstClosedLinear := h.firstClosedLinear
    doneAfterLast := fun hd => by rw [hstatus]; exact h.doneAfterLast hd
    failValid := h.failValid.trans (State.anyFaulted_congr (by simp) hstatus).symm
    failIsFaulted := fun hv => by rw [hstatus]; exact h.failIsFaulted hv
    seeded := fun hr => by
      obtain ⟨hrun, hrest⟩ := h.seeded hr
      exact ⟨fun i hi => (hstatus i).trans (hrun i hi), hrest⟩ }

theorem jump {y : Word} (h : s.Inv) (hs : s.Stepping) (hy : 0 ≤ y.toInt) : (s.jump y).Inv := by
  obtain ⟨hwf, hlen, -, hrec⟩ := (CoreState.legal_iff _ _).mp (h.coreLegal hs)
  exact h.setCore hs hs.running ((CoreState.legal_iff _ _).mpr ⟨hwf, hlen, hy, hrec⟩)

theorem advance {n : Nat} (h : s.Inv) (hs : s.Stepping) (hn : s.core.pc.toNat + n ≤ s.cfg.maxlen) :
    (s.advance n).Inv := by
  obtain ⟨-, -, hmax, -⟩ := s.cfg.valid_iff.mp h.cfgValid
  exact h.jump hs (pc_add_nonneg (by omega))

theorem store {a : Nat} (h : s.Inv) (hs : s.Stepping) (ha : a < s.cfg.maxlen) (v : Word) : (s.store a v).Inv := by
  obtain ⟨hwf, hlen, hpc, hrec⟩ := (CoreState.legal_iff _ _).mp (h.coreLegal hs)
  exact h.setCore hs hs.running
    ((CoreState.legal_iff _ _).mpr ⟨Tape.wf_write hwf a v, Tape.len_write_le v hlen ha, hpc, hrec⟩)

theorem setRb (h : s.Inv) (hs : s.Stepping) (v : Word) : (s.setRb v).Inv :=
  h.setCore hs hs.running (h.coreLegal hs)

theorem store_advance {a n : Nat} (h : s.Inv) (hs : s.Stepping) (ha : a < s.cfg.maxlen) (v : Word)
    (hn : s.core.pc.toNat + n ≤ s.cfg.maxlen) : ((s.store a v).advance n).Inv := by
  have hcore := State.core_store (h.curLtCores hs) a v
  exact (h.store hs ha v).advance ⟨hs.curLt, by rw [hcore]; exact hs.running, hs.started⟩ (by rwa [hcore])

theorem setRb_advance {n : Nat} (h : s.Inv) (hs : s.Stepping) (v : Word)
    (hn : s.core.pc.toNat + n ≤ s.cfg.maxlen) : ((s.setRb v).advance n).Inv := by
  have hcore := State.core_setRb (h.curLtCores hs) v
  exact (h.setRb hs v).advance ⟨hs.curLt, by rw [hcore]; exact hs.running, hs.started⟩ (by rwa [hcore])

/-! The current core terminates (R111, R130, R133, R166). -/

/-- The core stops in a legal state, its queue ends are closed, and the latch tells of a core that has faulted. -/
theorem terminate {c : CoreState} {v : Bool} {n : Nat} (h : s.Inv) (hs : s.Stepping) (hst : c.status ≠ .run)
    (hl : c.legal s.cfg.maxlen = true) (hr : c.recordLegal = true)
    (hv : v = (decide (c.status = .faulted) || s.anyFaulted))
    (hn : v = true → n < s.cfg.k ∧ ((s.setCore c).coreAt n).status = .faulted) :
    State.Inv { (s.setCore c).closePorts with firstFailValid := v, firstFailId := n } := by
  have hcur := h.curLtCores hs
  have hports : (s.setCore c).cur + 1 < (s.setCore c).queues.length := h.portsExist hs
  have hclosed : ∀ j, ((s.setCore c).closePorts.queueAt j).prodClosed
      = (decide (j = s.cur + 1) || (s.queueAt j).prodClosed) := State.prodClosed_closePorts hports
  have hgone : ∀ j, ((s.setCore c).closePorts.queueAt j).consGone
      = (decide (j = s.cur) || (s.queueAt j).consGone) := State.consGone_closePorts hports
  have hstatus : ∀ i, decide (((s.setCore c).coreAt i).status ≠ .run)
      = (decide (i = s.cur) || decide ((s.coreAt i).status ≠ .run)) := by
    intro i
    by_cases hi : i = s.cur
    · simp [State.coreAt_setCore, hi, hcur, hst]
    · simp [State.coreAt_setCore_other hi, hi]
  exact {
    cfgValid := h.cfgValid
    coreCount := by simpa using h.coreCount
    queueCount := by simpa using h.queueCount
    coresLegal := fun i hi => by
      show ((s.setCore c).coreAt i).legal s.cfg.maxlen = true
      rw [State.coreAt_setCore]
      split
      · exact hl
      · exact h.coresLegal i hi
    recordsLegal := fun i hi => by
      show ((s.setCore c).coreAt i).recordLegal = true
      rw [State.coreAt_setCore]
      split
      · exact hr
      · exact h.recordsLegal i hi
    queuesFit := fun j hj => (State.fits_closePorts _ j _).trans (h.queuesFit j hj)
    outClosed := fun i hi => by
      refine (hclosed (i + 1)).trans (Eq.trans ?_ (hstatus i).symm)
      by_cases hic : i = s.cur <;> simp [hic, h.outClosed i hi]
    inGone := fun i hi => by
      refine (hgone i).trans (Eq.trans ?_ (hstatus i).symm)
      rw [h.inGone i hi]
    lastGone := fun ha => by
      refine (hgone s.cfg.k).trans ?_
      simpa [Nat.ne_of_gt hs.curLt] using h.lastGone ha
    firstClosedFeedback := fun hf => by
      refine (hclosed 0).trans ?_
      simpa using h.firstClosedFeedback hf
    firstClosedLinear := fun ha hf => by
      refine (hclosed 0).trans ?_
      simpa using h.firstClosedLinear ha hf
    doneAfterLast := fun hd => by
      obtain ⟨hlast, hempty⟩ := h.doneAfterLast hd
      refine ⟨of_decide_eq_true ((hstatus _).trans ?_), (State.items_closePorts _ _).trans hempty⟩
      simp [hlast]
    failValid := hv.trans (State.anyFaulted_setCore hcur (by simp [hs.running])).symm
    failIsFaulted := hn
    seeded := fun hr => absurd (hs.started.symm.trans hr) nofun }

theorem halt (h : s.Inv) (hs : s.Stepping) : s.halt.Inv := by
  obtain ⟨hwf, hlen, hpc, hrec⟩ := (CoreState.legal_iff _ _).mp (h.coreLegal hs)
  have hrec : s.core.fault = FaultRecord.none := hrec.resolve_left (by simp [hs.running])
  refine h.terminate hs (c := { s.core with status := .halted }) (v := s.firstFailValid) (n := s.firstFailId) nofun
    ((CoreState.legal_iff _ _).mpr ⟨hwf, hlen, hpc, .inr hrec⟩) (CoreState.recordLegal_of_not_faulted nofun)
    h.failValid fun hv => ?_
  obtain ⟨hn, hf⟩ := h.failIsFaulted hv
  have hother : s.firstFailId ≠ s.cur := fun he => by
    have := hs.running.symm.trans (he ▸ hf)
    cases this
  exact ⟨hn, by rw [State.coreAt_setCore_other hother]; exact hf⟩

theorem raise (h : s.Inv) (hs : s.Stepping) (e : CoreError) : (s.raise e).Inv := by
  obtain ⟨hwf, hlen, hpc, -⟩ := (CoreState.legal_iff _ _).mp (h.coreLegal hs)
  rw [State.raise, State.latchFail_eq]
  refine h.terminate hs nofun ((CoreState.legal_iff _ _).mpr ⟨hwf, hlen, hpc, .inl rfl⟩)
    (CoreState.recordLegal_record s.core e) rfl fun _ => ?_
  split
  · rename_i hv
    obtain ⟨hn, hf⟩ := h.failIsFaulted hv
    refine ⟨hn, ?_⟩
    rw [State.coreAt_setCore]
    split
    · rfl
    · exact hf
  · exact ⟨hs.curLt, by simp [State.coreAt_setCore, h.curLtCores hs]⟩

end State.Inv

/-! ### The step of a core -/

/-- An instruction that `fetchDecode` gave leaves `PC` inside the address space (R68, R102). -/
theorem State.Inv.next_pc_le {s : State} {i : Instr} (h : s.Inv) (hs : s.Stepping)
    (hf : fetchDecode s.core = .ok i) : s.core.pc.toNat + (i.nParams + 1) ≤ s.cfg.maxlen := by
  obtain ⟨-, hlen, -, -⟩ := (CoreState.legal_iff _ _).mp (h.coreLegal hs)
  have := fetchDecode_lt hf
  omega

/-- Whatever a fetched instruction does keeps the invariant. -/
theorem Effect.inv {s t : State} {i : Instr} (he : Effect s i t) (h : s.Inv) (hs : s.Stepping)
    (hf : fetchDecode s.core = .ok i) : t.Inv := by
  have hpc := h.next_pc_le hs hf
  cases he with
  | waits _ => exact h
  | raises e => exact h.raise hs e
  | stores hi a v ha =>
    rw [hi] at hpc
    exact h.store_advance hs ha v hpc
  | takes v q a hq ha =>
    have hpop : (s.setInq q).Inv := h.setQueue_pop (Nat.le_of_lt hs.curLt) hq
    exact hpop.store_advance hs.setQueue ha v hpc
  | sends v q hq =>
    have hlast : s.fwdDone = true → s.cur + 1 ≠ s.cfg.k := fun hd hk => by
      obtain ⟨hterm, -⟩ := h.doneAfterLast hd
      rw [← hk] at hterm
      exact hterm hs.running
    have hpush : (s.setOutq q).Inv := h.setQueue_push hlast hq
    exact hpush.advance hs.setQueue hpc
  | jumps _ y hy => exact h.jump hs hy
  | falls hi =>
    rw [hi] at hpc
    exact h.advance hs hpc
  | adjusts v => exact h.setRb_advance hs v hpc
  | halts => exact h.halt hs

theorem coreStep_inv {s t : State} (h : s.Inv) (hs : s.Stepping) (ht : coreStep s = .next t) : t.Inv := by
  obtain ⟨e, -, rfl⟩ | ⟨i, hf, he⟩ := coreStep_next ht
  · exact h.raise hs e
  · exact he.inv h hs hf

/-- An enabled core whose turn has come is being stepped (R75 step 0). -/
theorem stepping_of_coreEnabled {s : State} {i : Nat} (h : s.Inv) (he : coreEnabled s i = true) :
    (s.passTurn.atCore i).Stepping := by
  simp only [coreEnabled, Bool.and_eq_true, decide_eq_true_eq] at he
  obtain ⟨⟨⟨hi, hr⟩, hst⟩, -⟩ := he
  exact ⟨by simpa [← h.coreCount] using hi, by simpa using hst, by simpa using hr⟩

/-! ### The step of the forwarder (R128, R129) -/

theorem forwarderLive_iff (s : State) :
    forwarderLive s = true ↔ s.cfg.isStandalone = false ∧ s.runEn = true ∧ s.fwdDone = false := by
  simp [forwarderLive, and_assoc]

theorem transfer_inv {s : State} {v : Word} {q : Queue} (h : s.Inv) (hl : forwarderLive s = true)
    (hq : (s.queueAt s.lastQueue).pop = .got v q) : (transfer s v q).Inv := by
  obtain ⟨-, hrun, hdone⟩ := (forwarderLive_iff s).mp hl
  have hpopped : State.Inv { s.setQueue s.lastQueue q with tap := v, tapValid := true } :=
    (h.setQueue_pop (Nat.le_refl _) hq).setTap hrun v
  unfold transfer
  obtain hsame | ⟨-, hg, hr, hpush⟩ := deliver_cases { s.setQueue s.lastQueue q with tap := v, tapValid := true } v
  · rwa [hsame]
  · rw [hpush]
    exact hpopped.setQueue_push (fun hd => absurd (hdone.symm.trans hd) nofun)
      (Queue.push_pushed_iff.mpr ⟨hg, hr, rfl⟩)

/-- What the finishing step does to each queue: `Q[0]` of a FEEDBACK network is closed, `Q[K]` is abandoned (R129). -/
theorem queueAt_forwarderFinish {s : State} (h : s.Inv) (j : Nat) :
    (forwarderFinish s).queueAt j =
      if j = s.cfg.k then (s.queueAt j).abandon
      else if j = 0 ∧ s.cfg.isFeedback = true then (s.queueAt j).closeProd
      else s.queueAt j := by
  have hk := h.k_pos
  have hlen := h.queueCount
  unfold forwarderFinish
  show State.queueAt (State.setQueue _ _ _) j = _
  cases hf : s.cfg.isFeedback <;>
    simp only [State.lastQueue, State.queueAt_setQueue, State.setQueue_cfg, State.setQueue_length, reduceIte,
      Bool.false_eq_true] <;> grind

/-- The finishing step changes no field but the queues and `FWD_DONE`. -/
theorem forwarderFinish_eq (s : State) :
    forwarderFinish s = { s with queues := (forwarderFinish s).queues, fwdDone := true } := by
  unfold forwarderFinish
  cases s.cfg.isFeedback <;> rfl

theorem forwarderFinish_inv {s : State} (h : s.Inv) (hl : forwarderLive s = true)
    (hq : (s.queueAt s.lastQueue).pop = .endOfStream) : (forwarderFinish s).Inv := by
  obtain ⟨hnet, hrun, -⟩ := (forwarderLive_iff s).mp hl
  obtain ⟨hempty, hclosed⟩ := Queue.pop_endOfStream_iff.mp hq
  have hk := h.k_pos
  have hqueue := queueAt_forwarderFinish h
  have hlast : (s.coreAt (s.cfg.k - 1)).status ≠ .run := by
    have := h.outClosed (s.cfg.k - 1) (by omega)
    rw [Nat.sub_add_cancel hk] at this
    exact of_decide_eq_true (this.symm.trans hclosed)
  have hlen : (forwarderFinish s).queues.length = s.queues.length := by
    unfold forwarderFinish
    cases s.cfg.isFeedback <;> simp
  rw [forwarderFinish_eq] at hqueue ⊢
  exact {
    cfgValid := h.cfgValid
    coreCount := h.coreCount
    queueCount := hlen.trans h.queueCount
    coresLegal := h.coresLegal
    recordsLegal := h.recordsLegal
    queuesFit := fun j hj => by
      rw [hqueue j]
      have := h.queuesFit j hj
      split
      · exact this
      · split <;> exact this
    outClosed := fun i hi => by
      rw [hqueue (i + 1), if_neg (c := i + 1 = 0 ∧ _) (by omega)]
      split <;> exact h.outClosed i hi
    inGone := fun i hi => by
      rw [hqueue i, if_neg (Nat.ne_of_lt hi)]
      split <;> exact h.inGone i hi
    lastGone := fun _ => by
      show Queue.consGone (State.queueAt _ s.cfg.k) = true
      rw [hqueue, if_pos rfl, Queue.abandon_consGone]
    firstClosedFeedback := fun hf => by
      rw [hqueue 0, if_neg (by omega), if_pos ⟨rfl, hf⟩, Queue.closeProd_prodClosed]
    firstClosedLinear := fun _ hf => by
      rw [hqueue 0, if_neg (by omega), if_neg (fun hc => absurd (hc.2.symm.trans hf) nofun)]
      exact h.firstClosedLinear hnet hf
    doneAfterLast := fun _ => by
      refine ⟨hlast, ?_⟩
      show Queue.items (State.queueAt _ s.cfg.k) = []
      rw [hqueue, if_pos rfl, Queue.abandon_items]
      exact hempty
    failValid := h.failValid
    failIsFaulted := h.failIsFaulted
    seeded := fun hr => absurd (hrun.symm.trans hr) nofun }

theorem forwarderStep_inv {s t : State} (h : s.Inv) (ht : forwarderStep s = some t) : t.Inv := by
  obtain ⟨hl, ⟨v, q, hq, -, rfl⟩ | ⟨hq, rfl⟩⟩ := forwarderStep_some ht
  · exact transfer_inv h hl hq
  · exact forwarderFinish_inv h hl hq

/-! ### Reset (R26, R126, R127, R138, R181) -/

theorem State.coreAt_resetOf {c : Config} {i : Nat} (hi : i < c.k) (tap : Word) (n : Nat) (env : Env) :
    ∃ img ∈ c.images, (State.resetOf c tap n env).coreAt i = CoreState.boot img := by
  refine ⟨c.images[i], List.getElem_mem hi, ?_⟩
  have hlen : i < (Boot.cores c).length := hi.trans_eq (List.length_map _).symm
  show (Boot.cores c).getD i _ = _
  rw [List.getD_eq_getElem _ _ hlen]
  exact List.getElem_map _

theorem CoreState.legal_boot {img : List Word} {maxlen : Nat} (h : img.length ≤ maxlen) :
    (CoreState.boot img).legal maxlen = true :=
  (CoreState.legal_iff _ _).mpr ⟨Tape.wf_ofImage img, h, Int.le_refl 0, .inr rfl⟩

/-- What holds of every queue of the list, and of a fresh one, holds at every index. -/
theorem State.queueAt_of_forall {s : State} {P : Queue → Prop} (h : ∀ q ∈ s.queues, P q) (hf : P Queue.fresh)
    (j : Nat) : P (s.queueAt j) := by
  by_cases hj : j < s.queues.length
  · have : s.queueAt j = s.queues[j] := by simp [State.queueAt, hj]
    rw [this]
    exact h _ (List.getElem_mem hj)
  · have : s.queueAt j = Queue.fresh := by simp [State.queueAt, Nat.le_of_not_lt hj]
    rwa [this]

/-- A queue behind a core right after reset: both ends attached, at most a phase in it (R126, R127). -/
structure Queue.Seeded (r : Queue) : Prop where
  notClosed : r.prodClosed = false
  notGone : r.consGone = false
  short : r.items.length ≤ 1

theorem Queue.seeded_fresh : Queue.fresh.Seeded := ⟨rfl, rfl, Nat.zero_le 1⟩

theorem Boot.seeded_of_mem {phases : List Word} {r : Queue} (h : r ∈ phaseQueues phases ++ [Queue.fresh]) :
    r.Seeded := by
  simp only [phaseQueues, List.mem_append, List.mem_map, List.mem_singleton] at h
  obtain ⟨p, -, rfl⟩ | rfl := h
  · exact ⟨rfl, rfl, Nat.le_refl 1⟩
  · exact Queue.seeded_fresh

/-- A queue of at most two items fits: `QDEPTH ≥ 2` (R6). -/
theorem Queue.fits_of_length_le {c : Config} (hc : c.valid = true) {q : Queue} (h : q.items.length ≤ 2) :
    q.fits c.qdepth = true := by
  obtain ⟨-, -, -, hd, -, -⟩ := c.valid_iff.mp hc
  cases hq : c.qdepth with
  | none => rfl
  | some d => exact decide_eq_true (h.trans (hd d hq))

/-- What the queues of a valid configuration are after reset: `Q[0]`, and a seeded queue behind each core. -/
structure Boot.QueuesSeeded (c : Config) (q : Queue) (rest : List Queue) : Prop where
  count : rest.length = c.k
  restSeeded : ∀ r ∈ rest, r.Seeded
  firstFits : q.fits c.qdepth = true
  firstNotGone : q.consGone = false
  firstClosed : c.isStandalone = false → q.prodClosed = !c.isFeedback

theorem Boot.queues_seeded {c : Config} (hc : c.valid = true) :
    ∃ q rest, Boot.queues c = q :: rest ∧ Boot.QueuesSeeded c q rest := by
  obtain ⟨hk, -, -, -, -, hw⟩ := c.valid_iff.mp hc
  cases hwir : c.wiring with
  | network t phase stimulus =>
    refine ⟨firstQueue t (phase.take 1) stimulus, phaseQueues (phase.drop 1) ++ [Queue.fresh],
      by rw [Boot.queues, hwir], ?_, fun r => Boot.seeded_of_mem, ?_, rfl, fun _ => ?_⟩
    · have hphase : phase.length = c.k := by simpa [Config.wiringValid, hwir] using hw
      simp only [phaseQueues, List.length_append, List.length_map, List.length_drop, List.length_singleton]
      omega
    · exact Queue.fits_of_length_le hc (by simp [firstQueue])
    · cases t <;> simp [firstQueue, Config.isFeedback, hwir]
  | standalone inq closed =>
    have hs : c.isStandalone = true := by simp [Config.isStandalone, hwir]
    refine ⟨{ items := inq, prodClosed := closed, consGone := false }, [Queue.fresh],
      by rw [Boot.queues, hwir], (Config.k_of_standalone hc hs).symm,
      fun r => Boot.seeded_of_mem (phases := []), ?_, rfl, fun hn => absurd (hs.symm.trans hn) nofun⟩
    simp only [Config.wiringValid, hwir, Bool.and_eq_true] at hw
    exact hw.2

/-- Every reset with a valid configuration meets the invariant (R6, R26). -/
theorem State.inv_resetOf {c : Config} (hc : c.valid = true) (tap : Word) (n : Nat) (env : Env) :
    (State.resetOf c tap n env).Inv := by
  obtain ⟨-, -, -, -, himg, -⟩ := c.valid_iff.mp hc
  obtain ⟨q, rest, hqueues, hseed⟩ := Boot.queues_seeded hc
  have hqs : (State.resetOf c tap n env).queues = q :: rest := hqueues
  have hrun : ∀ i, i < c.k → ((State.resetOf c tap n env).coreAt i).status = .run := fun i hi => by
    obtain ⟨img, -, he⟩ := State.coreAt_resetOf hi tap n env
    rw [he]
    rfl
  have hfirst : (State.resetOf c tap n env).queueAt 0 = q := by rw [State.queueAt, hqs]; rfl
  have hrest : ∀ j, ((State.resetOf c tap n env).queueAt (j + 1)).Seeded := fun j => by
    rw [State.queueAt, hqs]
    exact State.queueAt_of_forall (s := { State.resetOf c tap n env with queues := rest }) hseed.restSeeded
      Queue.seeded_fresh j
  have hgone : ∀ j, ((State.resetOf c tap n env).queueAt j).consGone = false
    | 0 => hfirst ▸ hseed.firstNotGone
    | j + 1 => (hrest j).notGone
  exact {
    cfgValid := hc
    coreCount := List.length_map _
    queueCount := by rw [hqs, List.length_cons, hseed.count]; rfl
    coresLegal := fun i hi => by
      obtain ⟨img, hmem, he⟩ := State.coreAt_resetOf (c := c) hi tap n env
      rw [he]
      exact CoreState.legal_boot (himg img hmem)
    recordsLegal := fun i hi => CoreState.recordLegal_of_not_faulted (by simp [hrun i hi])
    queuesFit := fun
      | 0, _ => hfirst ▸ hseed.firstFits
      | j + 1, _ => Queue.fits_of_length_le hc ((hrest j).short.trans (Nat.le_succ 1))
    outClosed := fun i hi => by simp [(hrest i).notClosed, hrun i hi]
    inGone := fun i hi => by simp [hgone, hrun i hi]
    lastGone := fun _ => hgone _
    firstClosedFeedback := fun hf => by
      have hf : c.isFeedback = true := hf
      rw [hfirst, hseed.firstClosed (Config.not_standalone_of_feedback hf), hf]
      rfl
    firstClosedLinear := fun hs hf => by
      have hf : c.isFeedback = false := hf
      rw [hfirst, hseed.firstClosed hs, hf]
      rfl
    doneAfterLast := nofun
    failValid := by
      refine (Bool.eq_false_iff.mpr fun ha => ?_).symm
      obtain ⟨i, hi, hf⟩ := (State.anyFaulted_iff _).mp ha
      have hi : i < c.k := hi.trans_eq (List.length_map _)
      cases (hrun i hi).symm.trans hf
    failIsFaulted := nofun
    seeded := fun _ => ⟨hrun, rfl, rfl⟩ }

/-! ### The host's step and every step -/

/-- An action of the host keeps the invariant: a reset builds it anew, and standalone the host moves items and the two
flags that are its own (R131, R138, R180). -/
theorem hostDo_inv {a : HostAct} {s t : State} (h : s.Inv) (ht : hostDo a s = .done t) : t.Inv := by
  obtain ⟨c, tap, n, -, hc, rfl⟩ | ⟨-, -, rfl⟩ | ⟨hs, hio⟩ := hostDo_done ht
  · exact State.inv_resetOf hc tap n s.env
  · exact h.start
  · have hk : s.cfg.k = 1 := Config.k_of_standalone h.cfgValid hs
    obtain rfl | ⟨v, q, -, -, hq, rfl⟩ | ⟨-, -, rfl⟩ | ⟨v, q, -, hq, rfl⟩ | ⟨-, -, rfl⟩ := hio
    · exact h
    · exact h.setQueue_push (fun _ => by omega) hq
    · exact h.setQueue (h.queuesFit 0 (Nat.zero_le _)) (by simp [hs]) (fun _ => rfl) (fun _ => by omega)
    · exact (h.setQueue_pop (by omega) hq).withEnvCur s.cur _
    · refine h.setQueue (h.queuesFit 1 (by omega)) (fun _ => rfl) (by simp [hs, hk]) fun hd _ => ?_
      obtain ⟨-, hempty⟩ := h.doneAfterLast hd
      rwa [hk] at hempty

/-- Settles O52, by the agent whose turn it is: a turn that passes, a core, the forwarder, the host. -/
theorem everyStepKeepsTheInvariant : Obligations.EveryStepKeepsTheInvariant := by
  intro s t h ht
  obtain rfl | ⟨i, -, he, hc⟩ | ⟨-, hf⟩ | ⟨a, rest, -, -, hd⟩ := step_next ht
  · exact h.passTurn
  · exact coreStep_inv (h.passTurn.atCore i) (stepping_of_coreEnabled h he) hc
  · exact forwarderStep_inv h.passTurn hf
  · exact hostDo_inv h.passTurn.dropHostAct hd

end Sys2Proof.Machine

/-! # Proofs: the state, what each agent may change of it, and reset (10_state.md) -/

namespace Sys2Proof.Machine

/-! ### The canonical form of the tape (R14, R45, log 1) -/

/-- The order of a canonical listing: by address. -/
abbrev CellBefore : Cell → Cell → Prop := InvImage (· < ·) Prod.fst

/-- What the recursive test of the canonical form says of the whole list. -/
theorem cellsCanonical_iff (lo hi : Nat) (cells : List Cell) :
    cellsCanonical lo hi cells = true ↔
      cells.Pairwise CellBefore ∧ ∀ c ∈ cells, lo ≤ c.1 ∧ c.1 < hi ∧ c.2 ≠ unlistedWord := by
  induction cells generalizing lo with
  | nil => simp [cellsCanonical]
  | cons c rest ih =>
    obtain ⟨a, v⟩ := c
    simp only [cellsCanonical, Bool.and_eq_true, decide_eq_true_eq, ih, List.pairwise_cons, List.forall_mem_cons,
      InvImage]
    constructor
    · rintro ⟨⟨⟨hlo, hhi⟩, hv⟩, hp, hall⟩
      refine ⟨⟨fun c hc => (hall c hc).1, hp⟩, ⟨hlo, hhi, hv⟩, fun c hc => ?_⟩
      obtain ⟨hafter, hrest⟩ := hall c hc
      exact ⟨by omega, hrest⟩
    · rintro ⟨⟨hfirst, hp⟩, ⟨hlo, hhi, hv⟩, hall⟩
      exact ⟨⟨⟨hlo, hhi⟩, hv⟩, hp, fun c hc => ⟨hfirst c hc, (hall c hc).2⟩⟩

/-- A word other than 0 is read at an address exactly if it is listed there. -/
theorem cellsRead_eq_iff_mem {cells : List Cell} (hp : cells.Pairwise CellBefore) {a : Nat} {v : Word}
    (hv : v ≠ unlistedWord) : cellsRead cells a = v ↔ (a, v) ∈ cells := by
  induction cells with
  | nil => simp [cellsRead, hv.symm]
  | cons c rest ih =>
    obtain ⟨b, w⟩ := c
    obtain ⟨hfirst, hrest⟩ := List.pairwise_cons.mp hp
    by_cases hb : b = a
    · subst hb
      have hnot : (b, v) ∉ rest := fun hm => Nat.lt_irrefl b (hfirst _ hm)
      simp [cellsRead, hnot, eq_comm]
    · simp [cellsRead, hb, Ne.symm hb, ih hrest]

namespace Tape

theorem wf_iff (t : Tape) :
    t.wf = true ↔ t.cells.Pairwise CellBefore ∧ ∀ c ∈ t.cells, c.1 < t.len ∧ c.2 ≠ unlistedWord := by
  simp [wf, cellsCanonical_iff]

/-- The listing of a canonical tape is the set of its words other than 0. -/
theorem mem_cells_iff {t : Tape} (h : t.wf = true) (c : Cell) :
    c ∈ t.cells ↔ c.2 ≠ unlistedWord ∧ t.read c.1 = c.2 := by
  obtain ⟨hp, hall⟩ := t.wf_iff.mp h
  constructor
  · intro hc
    obtain ⟨hlen, hv⟩ := hall c hc
    exact ⟨hv, by rw [read, if_pos hlen, cellsRead_eq_iff_mem hp hv]; exact hc⟩
  · rintro ⟨hv, hr⟩
    unfold read at hr
    split at hr
    · exact (cellsRead_eq_iff_mem hp hv).mp hr
    · exact absurd hr.symm hv

/-- Canonical tapes of one length that read alike are one tape (R45). -/
theorem eq_of_read_eq {t u : Tape} (ht : t.wf = true) (hu : u.wf = true) (hlen : t.len = u.len)
    (hread : ∀ a, t.read a = u.read a) : t = u := by
  obtain ⟨htp, -⟩ := t.wf_iff.mp ht
  obtain ⟨hup, -⟩ := u.wf_iff.mp hu
  have hcells : t.cells = u.cells := htp.eq_of_mem_iff hup fun c => by
    rw [mem_cells_iff ht, mem_cells_iff hu, hread]
  cases t
  cases u
  exact congrArg₂ Tape.mk hlen hcells

end Tape

/-- Settles O9: a listing in order of address is determined by its members, which are the words other than 0. -/
theorem tapeFormIsCanonical : Obligations.TapeFormIsCanonical :=
  ⟨fun _ a v h => Tape.wf_write h a v, Tape.wf_ofImage, fun _ _ => Tape.eq_of_read_eq⟩

/-! ### Which instruction changes what of its core (R12, R14, R15) -/

namespace State

/-- What the current core's replacement agrees on with the core is as before. -/
theorem core_setCore_congr {α : Type} (f : CoreState → α) {s : State} {c : CoreState} (h : f c = f s.core) :
    f (s.setCore c).core = f s.core := by
  rw [core, setCore_cur, coreAt_setCore]
  split
  · exact h
  · rfl

@[simp] theorem rb_store (s : State) (a : Nat) (v : Word) : (s.store a v).core.rb = s.core.rb :=
  core_setCore_congr (·.rb) rfl
@[simp] theorem rb_jump (s : State) (p : Word) : (s.jump p).core.rb = s.core.rb := core_setCore_congr (·.rb) rfl
@[simp] theorem rb_advance (s : State) (n : Nat) : (s.advance n).core.rb = s.core.rb := rb_jump ..
@[simp] theorem rb_halt (s : State) : s.halt.core.rb = s.core.rb := core_setCore_congr (·.rb) rfl
@[simp] theorem rb_raise (s : State) (e : CoreError) : (s.raise e).core.rb = s.core.rb := by
  rw [raise, core_latchFail]
  exact core_setCore_congr (·.rb) rfl

@[simp] theorem tape_jump (s : State) (p : Word) : (s.jump p).core.tape = s.core.tape :=
  core_setCore_congr (·.tape) rfl
@[simp] theorem tape_advance (s : State) (n : Nat) : (s.advance n).core.tape = s.core.tape := tape_jump ..
@[simp] theorem tape_setRb (s : State) (v : Word) : (s.setRb v).core.tape = s.core.tape :=
  core_setCore_congr (·.tape) rfl
@[simp] theorem tape_halt (s : State) : s.halt.core.tape = s.core.tape := core_setCore_congr (·.tape) rfl
@[simp] theorem tape_raise (s : State) (e : CoreError) : (s.raise e).core.tape = s.core.tape := by
  rw [raise, core_latchFail]
  exact core_setCore_congr (·.tape) rfl

@[simp] theorem status_store (s : State) (a : Nat) (v : Word) : (s.store a v).core.status = s.core.status :=
  core_setCore_congr (·.status) rfl
@[simp] theorem status_jump (s : State) (p : Word) : (s.jump p).core.status = s.core.status :=
  core_setCore_congr (·.status) rfl
@[simp] theorem status_advance (s : State) (n : Nat) : (s.advance n).core.status = s.core.status := status_jump ..
@[simp] theorem status_setRb (s : State) (v : Word) : (s.setRb v).core.status = s.core.status :=
  core_setCore_congr (·.status) rfl

end State

/-- Every instruction of three parameters has a write target (R62). -/
theorem writeTarget_of_three {i : Instr} (h : i.nParams = 3) : ∃ p, i.writeTarget? = some p := by
  cases i with
  | add _ _ d | mul _ _ d | lt _ _ d | eq _ _ d => exact ⟨d, rfl⟩
  | inp _ | out _ | jnz _ _ | jz _ _ | arb _ | hlt => cases h

namespace Effect

variable {s t : State} {i : Instr}

/-- Only ARB changes `RB` (R12). -/
theorem rb_kept (h : Effect s i t) (hi : ∀ a, i ≠ .arb a) : t.core.rb = s.core.rb := by
  cases h with
  | adjusts => exact absurd rfl (hi _)
  | waits | raises | stores | takes | sends | jumps | falls | halts => simp

/-- Only an instruction with a write target changes the tape (R14). -/
theorem tape_kept (h : Effect s i t) (hi : ∀ p, i.writeTarget? ≠ some p) : t.core.tape = s.core.tape := by
  cases h with
  | stores hn =>
    obtain ⟨p, hp⟩ := writeTarget_of_three hn
    exact absurd hp (hi p)
  | takes => exact absurd rfl (hi _)
  | waits | raises | sends | jumps | falls | adjusts | halts => simp

/-- Only HLT makes a running core `HALTED` (R15). -/
theorem not_halted (h : Effect s i t) (hc : s.cur < s.cores.length) (hi : i ≠ .hlt) (hr : s.core.status = .run) :
    t.core.status ≠ .halted := by
  cases h with
  | halts => exact absurd rfl hi
  | raises e => simp [State.core_raise hc]
  | waits | stores | takes | sends | jumps | falls | adjusts => simp [hr]

end Effect

/-- Settles O25, by the effects an instruction can have. -/
theorem onlyTheNamedInstructionsWrite : Obligations.OnlyTheNamedInstructionsWrite := by
  rintro i s t ⟨hc, -⟩ ht
  have he := effect_of_exec ht
  exact ⟨he.rb_kept, he.tape_kept, he.not_halted hc⟩

/-! ### Reset (R26, R181) -/

/-- Every core of the configuration is booted with its image (R26). -/
theorem State.coreAt_resetOf_of_image {c : Config} {i : Nat} {img : List Word} (h : c.images[i]? = some img)
    (tap : Word) (n : Nat) (env : Env) : (State.resetOf c tap n env).coreAt i = CoreState.boot img := by
  simp [State.coreAt, State.resetOf, Boot.cores, h]

/-- Settles O39: a core is booted with its image, and the tape of an image reads as the image and 0 beyond it. -/
theorem resetStateOfEveryCore : Obligations.ResetStateOfEveryCore := by
  intro c tap n env i img h s
  have hboot : s.coreAt i = CoreState.boot img := State.coreAt_resetOf_of_image h tap n env
  have hread : ∀ a, (s.coreAt i).tape.read a = img.getD a 0 := fun a => hboot ▸ Tape.read_ofImage img a
  rw [hboot] at hread ⊢
  refine ⟨rfl, rfl, rfl, fun a v ha => ?_, fun a ha => ?_, rfl, rfl, rfl, rfl, rfl, rfl⟩
  · rw [hread, List.getD_eq_getElem?_getD, ha, Option.getD_some]
  · rw [hread, List.getD_eq_default _ _ ha]

/-- Settles O43. -/
theorem everyValidResetMeetsTheInvariant : Obligations.EveryValidResetMeetsTheInvariant :=
  fun _ tap n env hc => State.inv_resetOf hc tap n env

/-- Settles O42: the configuration of `State.reset` is valid. -/
theorem resetMeetsTheInvariant : Obligations.ResetMeetsTheInvariant :=
  State.inv_resetOf (c := Config.vectors) (by decide) 0 0 _

/-! ### What a core may change (R25, R123) -/

/-- Between `s` and `t` only what is core `k`'s own has changed: itself, the items of its two queues and its own flag of
each, the failure latch. -/
def CoreOwns (k : Nat) (s t : State) : Prop :=
  (∀ j, j ≠ k → t.coreAt j = s.coreAt j) ∧ (∀ j, j ≠ k → j ≠ k + 1 → t.queueAt j = s.queueAt j)
    ∧ (t.queueAt k).prodClosed = (s.queueAt k).prodClosed
    ∧ (t.queueAt (k + 1)).consGone = (s.queueAt (k + 1)).consGone
    ∧ t.tap = s.tap ∧ t.tapValid = s.tapValid ∧ t.fwdDone = s.fwdDone ∧ t.runEn = s.runEn ∧ t.cfg = s.cfg

namespace Effect

variable {s t : State} {i : Instr}

/-- The producer's flag of `INQ` is not the core's. -/
theorem inq_prodClosed (h : Effect s i t) : (t.queueAt s.cur).prodClosed = (s.queueAt s.cur).prodClosed := by
  have hports : (s.closePorts.queueAt s.cur).prodClosed = (s.queueAt s.cur).prodClosed := by
    rw [State.queueAt_closePorts]
    split <;> simp
  cases h with
  | raises e => rwa [State.queueAt_raise]
  | halts => rwa [State.queueAt_halt]
  | takes v q a hq ha =>
    obtain ⟨-, hp, -⟩ := Queue.pop_got_iff.mp hq
    exact State.prodClosed_setQueue fun _ => hp
  | sends v q hq => exact State.prodClosed_setQueue fun he => absurd he (Nat.ne_of_lt (Nat.lt_succ_self _))
  | waits _ | stores _ a v _ | jumps _ y _ | falls _ | adjusts v => rfl

/-- The consumer's flag of `OUTQ` is not the core's. -/
theorem outq_consGone (h : Effect s i t) :
    (t.queueAt (s.cur + 1)).consGone = (s.queueAt (s.cur + 1)).consGone := by
  have hports : (s.closePorts.queueAt (s.cur + 1)).consGone = (s.queueAt (s.cur + 1)).consGone := by
    rw [State.queueAt_closePorts, if_neg (by simp)]
    split <;> rfl
  cases h with
  | raises e => rwa [State.queueAt_raise]
  | halts => rwa [State.queueAt_halt]
  | takes v q a hq ha => exact State.consGone_setQueue fun he => absurd he (Nat.ne_of_gt (Nat.lt_succ_self _))
  | sends v q hq =>
    obtain ⟨-, -, rfl⟩ := Queue.push_pushed_iff.mp hq
    exact State.consGone_setQueue fun _ => rfl
  | waits _ | stores _ a v _ | jumps _ y _ | falls _ | adjusts v => rfl

theorem coreOwns (h : Effect s i t) : CoreOwns s.cur s t := by
  obtain ⟨hcfg, htap, hvalid, hdone, hrun, -, -⟩ := h.keeps_arbiter
  exact ⟨fun _ => h.coreAt_other, fun _ => h.queueAt_other, h.inq_prodClosed, h.outq_consGone,
    htap, hvalid, hdone, hrun, hcfg⟩

end Effect

/-- The turn of a core: it passes, or the core is enabled and takes its step. -/
theorem step_core {s t : State} {k : Nat} (ha : s.nextAgent = .core k) (ht : step s = .next t) :
    t = s.passTurn ∨ coreEnabled s k = true ∧ ∃ i, Effect (s.passTurn.atCore k) i t := by
  obtain rfl | ⟨j, hj, he, hc⟩ | ⟨hf, -⟩ | ⟨_, _, hh, -, -⟩ := step_next ht
  · exact .inl rfl
  · cases ha.symm.trans hj
    exact .inr ⟨he, coreStep_effect hc⟩
  · cases ha.symm.trans hf
  · cases ha.symm.trans hh

/-- An enabled core is running (R75 step 0). -/
theorem coreEnabled_running {s : State} {k : Nat} (h : coreEnabled s k = true) : (s.coreAt k).status = .run := by
  simp only [coreEnabled, Bool.and_eq_true, decide_eq_true_eq] at h
  obtain ⟨⟨-, hrun⟩, -⟩ := h
  exact hrun

theorem step_coreOwns {s t : State} {k : Nat} (ha : s.nextAgent = .core k) (ht : step s = .next t) :
    CoreOwns k s t := by
  obtain rfl | ⟨-, i, he⟩ := step_core ha ht
  · simp [CoreOwns]
  · simpa [CoreOwns] using he.coreOwns

/-! ### What the forwarder may change (R25, R123, R128, R129) -/

/-- What is no part of the forwarder's at all. -/
def ForwarderKeeps (s t : State) : Prop := t.cores = s.cores ∧ t.runEn = s.runEn ∧ FailKept s t ∧ t.cfg = s.cfg

/-- Delivery changes the queues only. -/
theorem deliver_eq (s : State) (v : Word) : deliver s v = { s with queues := (deliver s v).queues } := by
  unfold deliver
  split
  · split <;> rfl
  · rfl

theorem forwarderStep_keeps {s t : State} (h : forwarderStep s = some t) : ForwarderKeeps s t := by
  obtain ⟨-, ⟨v, q, -, -, rfl⟩ | ⟨-, rfl⟩⟩ := forwarderStep_some h
  · rw [transfer, deliver_eq]
    exact ⟨rfl, rfl, ⟨rfl, rfl⟩, rfl⟩
  · rw [forwarderFinish_eq]
    exact ⟨rfl, rfl, ⟨rfl, rfl⟩, rfl⟩

/-- Of the queues, the forwarder changes `Q[K]` and, in a FEEDBACK network, `Q[0]`, with its own flag of each. -/
def ForwarderQueuesOnly (s t : State) : Prop :=
  (∀ j, j ≠ 0 → j ≠ s.cfg.k → t.queueAt j = s.queueAt j)
    ∧ (t.queueAt 0).consGone = (s.queueAt 0).consGone
    ∧ (t.queueAt s.cfg.k).prodClosed = (s.queueAt s.cfg.k).prodClosed
    ∧ (s.cfg.isFeedback = false → t.queueAt 0 = s.queueAt 0)

/-- Delivery reaches no queue but `Q[0]` of a FEEDBACK network. -/
theorem queueAt_deliver {s : State} {j : Nat} (v : Word) (hj : s.cfg.isFeedback = false ∨ j ≠ 0) :
    (deliver s v).queueAt j = s.queueAt j := by
  obtain h | ⟨hf, -, -, h⟩ := deliver_cases s v <;> rw [h]
  exact State.queueAt_setQueue_other (hj.resolve_left (by simp [hf])) _

theorem prodClosed_deliver (s : State) (v : Word) (j : Nat) :
    ((deliver s v).queueAt j).prodClosed = (s.queueAt j).prodClosed := by
  obtain h | ⟨-, -, -, h⟩ := deliver_cases s v <;> rw [h]
  exact State.prodClosed_setQueue fun _ => rfl

theorem consGone_deliver (s : State) (v : Word) (j : Nat) :
    ((deliver s v).queueAt j).consGone = (s.queueAt j).consGone := by
  obtain h | ⟨-, -, -, h⟩ := deliver_cases s v <;> rw [h]
  exact State.consGone_setQueue fun _ => rfl

theorem transfer_queuesOnly {s : State} {v : Word} {q : Queue} (hk : 1 ≤ s.cfg.k)
    (hq : (s.queueAt s.lastQueue).pop = .got v q) : ForwarderQueuesOnly s (transfer s v q) := by
  obtain ⟨-, hp, hg⟩ := Queue.pop_got_iff.mp hq
  have hother : ∀ j, j ≠ s.cfg.k → (s.setQueue s.lastQueue q).queueAt j = s.queueAt j :=
    fun j hj => State.queueAt_setQueue_other hj q
  refine ⟨fun j h0 hj => ?_, ?_, ?_, fun hf => ?_⟩
  · exact (queueAt_deliver v (.inr h0)).trans (hother j hj)
  · exact (consGone_deliver _ v 0).trans (State.consGone_setQueue fun _ => hg)
  · exact (prodClosed_deliver _ v _).trans (State.prodClosed_setQueue fun _ => hp)
  · refine (queueAt_deliver v ?_).trans (hother 0 (by omega))
    exact .inl hf

theorem forwarderFinish_queuesOnly {s : State} (h : s.Inv) : ForwarderQueuesOnly s (forwarderFinish s) := by
  have hk : (0 : Nat) ≠ s.cfg.k := Nat.ne_of_lt h.k_pos
  have hqueue := queueAt_forwarderFinish h
  refine ⟨fun j h0 hj => ?_, ?_, ?_, fun hf => ?_⟩
  · rw [hqueue, if_neg hj, if_neg (fun hc => h0 hc.1)]
  · rw [hqueue, if_neg hk]
    split <;> rfl
  · rw [hqueue, if_pos rfl, Queue.abandon_prodClosed]
  · rw [hqueue, if_neg hk, if_neg (by simp [hf])]

theorem forwarderStep_queuesOnly {s t : State} (h : s.Inv) (ht : forwarderStep s = some t) :
    ForwarderQueuesOnly s t := by
  obtain ⟨-, ⟨v, q, hq, -, rfl⟩ | ⟨-, rfl⟩⟩ := forwarderStep_some ht
  · exact transfer_queuesOnly h.k_pos hq
  · exact forwarderFinish_queuesOnly h

/-- The turn of the forwarder: it passes, or the forwarder takes its step. -/
theorem step_forwarder {s t : State} (ha : s.nextAgent = .forwarder) (ht : step s = .next t) :
    t = s.passTurn ∨ forwarderStep s.passTurn = some t := by
  obtain rfl | ⟨_, hc, -, -⟩ | ⟨-, hf⟩ | ⟨_, _, hh, -, -⟩ := step_next ht
  · exact .inl rfl
  · cases ha.symm.trans hc
  · exact .inr hf
  · cases ha.symm.trans hh

theorem step_forwarderKeeps {s t : State} (ha : s.nextAgent = .forwarder) (ht : step s = .next t) :
    ForwarderKeeps s t := by
  obtain rfl | hf := step_forwarder ha ht
  · simp [ForwarderKeeps, FailKept]
  · simpa [ForwarderKeeps, FailKept] using forwarderStep_keeps hf

theorem step_forwarderQueuesOnly {s t : State} (h : s.Inv) (ha : s.nextAgent = .forwarder) (ht : step s = .next t) :
    ForwarderQueuesOnly s t := by
  obtain rfl | hf := step_forwarder ha ht
  · simp [ForwarderQueuesOnly]
  · simpa [ForwarderQueuesOnly] using forwarderStep_queuesOnly h.passTurn hf

/-! ### What the host may change (R25, R123, R138, R139) -/

/-- Between `s` and `t` only what is the host's own has changed: `RUN_EN`, and standalone `INQ` and `OUTQ` with its own
flag of each. -/
def HostOwns (s t : State) : Prop :=
  t.cores = s.cores ∧ (s.cfg.isStandalone = false → ∀ j, t.queueAt j = s.queueAt j)
    ∧ (s.cfg.isStandalone = true → (t.queueAt 0).consGone = (s.queueAt 0).consGone
      ∧ (t.queueAt 1).prodClosed = (s.queueAt 1).prodClosed ∧ ∀ j, j ≠ 0 → j ≠ 1 → t.queueAt j = s.queueAt j)
    ∧ t.tap = s.tap ∧ t.tapValid = s.tapValid ∧ t.fwdDone = s.fwdDone ∧ FailKept s t ∧ t.cfg = s.cfg

/-- Standalone, the host moves an item of `INQ` or closes it. -/
theorem HostOwns.setQueue_zero {s : State} {q : Queue} (hs : s.cfg.isStandalone = true)
    (hg : q.consGone = (s.queueAt 0).consGone) : HostOwns s (s.setQueue 0 q) := by
  refine ⟨rfl, fun hn => absurd (hs.symm.trans hn) nofun, fun _ => ⟨?_, ?_, fun j h0 _ => ?_⟩,
    rfl, rfl, rfl, ⟨rfl, rfl⟩, rfl⟩
  · exact State.consGone_setQueue fun _ => hg
  · rw [State.queueAt_setQueue_other Nat.one_ne_zero]
  · exact State.queueAt_setQueue_other h0 q

/-- Standalone, the host takes an item of `OUTQ` or abandons it. -/
theorem HostOwns.setQueue_one {s : State} {q : Queue} (hs : s.cfg.isStandalone = true)
    (hp : q.prodClosed = (s.queueAt 1).prodClosed) : HostOwns s (s.setQueue 1 q) := by
  refine ⟨rfl, fun hn => absurd (hs.symm.trans hn) nofun, fun _ => ⟨?_, ?_, fun j _ h1 => ?_⟩,
    rfl, rfl, rfl, ⟨rfl, rfl⟩, rfl⟩
  · rw [State.queueAt_setQueue_other Nat.zero_ne_one]
  · exact State.prodClosed_setQueue fun _ => hp
  · exact State.queueAt_setQueue_other h1 q

theorem HostOwns.refl (s : State) : HostOwns s s :=
  ⟨rfl, fun _ _ => rfl, fun _ => ⟨rfl, rfl, fun _ _ _ => rfl⟩, rfl, rfl, rfl, ⟨rfl, rfl⟩, rfl⟩

theorem hostDo_hostOwns {a : HostAct} {s t : State} (ha : ∀ c tap n, a ≠ .reset c tap n)
    (ht : hostDo a s = .done t) : HostOwns s t := by
  obtain ⟨c, tap, n, hr, -, -⟩ | ⟨-, -, rfl⟩ | ⟨hs, hio⟩ := hostDo_done ht
  · exact absurd hr (ha c tap n)
  · exact HostOwns.refl s
  · obtain rfl | ⟨v, q, -, -, hq, rfl⟩ | ⟨-, -, rfl⟩ | ⟨v, q, -, hq, rfl⟩ | ⟨-, -, rfl⟩ := hio
    · exact HostOwns.refl t
    · obtain ⟨-, -, rfl⟩ := Queue.push_pushed_iff.mp hq
      exact HostOwns.setQueue_zero hs rfl
    · exact HostOwns.setQueue_zero hs rfl
    · obtain ⟨-, hp, -⟩ := Queue.pop_got_iff.mp hq
      exact HostOwns.setQueue_one hs hp
    · exact HostOwns.setQueue_one hs rfl

/-- The turn of a host that does not reset: it passes, or the host takes its oldest pending action. -/
theorem step_host {s t : State} (hn : NotReset s) (ha : s.nextAgent = .host) (ht : step s = .next t) :
    t = s.passTurn ∨ ∃ a, (∀ c tap n, a ≠ .reset c tap n) ∧ hostDo a s.passTurn.dropHostAct = .done t := by
  obtain rfl | ⟨_, hc, -, -⟩ | ⟨hf, -⟩ | ⟨a, rest, -, hacts, hd⟩ := step_next ht
  · exact .inl rfl
  · cases ha.symm.trans hc
  · cases ha.symm.trans hf
  · exact .inr ⟨a, fun c tap n hr => hn c tap n rest ha (hr ▸ hacts), hd⟩

theorem step_hostOwns {s t : State} (hn : NotReset s) (ha : s.nextAgent = .host) (ht : step s = .next t) :
    HostOwns s t := by
  obtain rfl | ⟨a, hr, hd⟩ := step_host hn ha ht
  · simp [HostOwns, FailKept]
  · simpa [HostOwns, FailKept] using hostDo_hostOwns hr hd

/-! ### Every step that is no reset -/

/-- Settles O55, by the agent whose turn it is. -/
theorem agentsTouchOnlyTheirOwn : Obligations.AgentsTouchOnlyTheirOwn := by
  intro s t h hn ht
  refine ⟨fun k hk => step_coreOwns hk ht, fun hf => ?_, fun hh => step_hostOwns hn hh ht⟩
  obtain ⟨hcores, hrun, hfail, hcfg⟩ := step_forwarderKeeps hf ht
  obtain ⟨hother, hgone, hclosed, hlinear⟩ := step_forwarderQueuesOnly h hf ht
  exact ⟨hcores, hother, hgone, hclosed, hlinear, hrun, hfail, hcfg⟩

/-- Settles O53: a terminated core is not enabled, and no other agent changes it. -/
theorem terminatedCoresNeverChange : Obligations.TerminatedCoresNeverChange := by
  intro s t k _ hn ht _ hterm
  cases ha : s.nextAgent with
  | core j =>
    by_cases hj : k = j
    · subst hj
      obtain rfl | ⟨he, -⟩ := step_core ha ht
      · exact State.coreAt_passTurn s k
      · exact absurd (coreEnabled_running he) hterm
    · exact (step_coreOwns ha ht).1 k hj
  | forwarder => exact State.coreAt_congr (step_forwarderKeeps ha ht).1 k
  | host => exact State.coreAt_congr (step_hostOwns hn ha ht).1 k

/-- Settles O58: the configuration is no agent's own, and the host's reset tests the new one. -/
theorem onlyResetChangesTheConfiguration : Obligations.OnlyResetChangesTheConfiguration := by
  refine ⟨fun s t hn ht => ?_, fun s c tap n => ⟨fun hc => ?_, fun hc => ?_⟩⟩
  · cases ha : s.nextAgent with
    | core k =>
      obtain ⟨-, -, -, -, -, -, -, -, hcfg⟩ := step_coreOwns ha ht
      exact hcfg
    | forwarder =>
      obtain ⟨-, -, -, hcfg⟩ := step_forwarderKeeps ha ht
      exact hcfg
    | host =>
      obtain ⟨-, -, -, -, -, -, -, hcfg⟩ := step_hostOwns hn ha ht
      exact hcfg
  · simp [hostDo, hostReset, hc]
  · simp [hostDo, hostReset, hc]

end Sys2Proof.Machine

/-! # Proofs: the tape, and what an instruction sees (20_memory.md) -/

namespace Sys2Proof.Machine

/-! ### A read after a write (R41, R42) -/

/-- Settles O8: of the addresses a write leaves as they were, those at or beyond the old `LEN` read 0. -/
theorem tapeWriteThenRead : Obligations.TapeWriteThenRead := by
  intro t a v
  refine ⟨t.read_write_same a v, fun b hlen hb => ?_, fun b hb => t.read_write_other v hb, fun ha => ?_, fun ha => ?_⟩
  · rw [t.read_write_other v (Nat.ne_of_lt hb), t.read_ofLen b hlen]
  · rw [t.len_write, Nat.max_eq_right (by omega)]
  · rw [t.len_write, Nat.max_eq_left ha]

/-! ### Tapes only grow (R43) -/

/-- `u` is no shorter than `t`, and where it is longer it keeps every word of `t`. -/
def Tape.GrowsTo (t u : Tape) : Prop :=
  t.len ≤ u.len ∧ (t.len < u.len → ∀ a, a < t.len → u.read a = t.read a)

theorem Tape.GrowsTo.refl (t : Tape) : t.GrowsTo t := ⟨Nat.le_refl _, fun _ _ _ => rfl⟩

/-- A write that lengthens the tape is at or beyond `LEN`, so below `LEN` it changes nothing. -/
theorem Tape.growsTo_write (t : Tape) (p : Nat) (v : Word) : t.GrowsTo (t.write p v) := by
  rw [GrowsTo, len_write]
  refine ⟨Nat.le_max_left _ _, fun hlong a ha => t.read_write_other v ?_⟩
  omega

/-- What an instruction does to its core's tape is nothing, or one write. -/
theorem Effect.tape_growsTo {s t : State} {i : Instr} (h : Effect s i t) (hc : s.cur < s.cores.length) :
    s.core.tape.GrowsTo t.core.tape := by
  cases h with
  | stores _ a v =>
    rw [State.tape_advance, State.core_store hc]
    exact Tape.growsTo_write _ a v
  | takes v q a =>
    rw [State.tape_advance, State.core_store (by simpa using hc)]
    exact Tape.growsTo_write _ a v
  | waits | raises | sends | jumps | falls | adjusts | halts => simp [Tape.GrowsTo.refl]

/-- Another agent's step that is no reset leaves a core as it is (R25). -/
theorem step_coreAt_other {s t : State} {k : Nat} (hn : NotReset s) (ht : step s = .next t)
    (ha : s.nextAgent ≠ .core k) : t.coreAt k = s.coreAt k := by
  cases hagent : s.nextAgent with
  | core j =>
    obtain ⟨hother, -⟩ := step_coreOwns hagent ht
    exact hother k fun hj => ha (hj ▸ hagent)
  | forwarder =>
    obtain ⟨hcores, -⟩ := step_forwarderKeeps hagent ht
    exact State.coreAt_congr hcores k
  | host =>
    obtain ⟨hcores, -⟩ := step_hostOwns hn hagent ht
    exact State.coreAt_congr hcores k

/-- Settles O54: a tape changes only by its own core's step, and then by one write. -/
theorem tapesOnlyGrow : Obligations.TapesOnlyGrow := by
  intro s t k h hn ht hk
  change (s.coreAt k).tape.GrowsTo (t.coreAt k).tape
  by_cases ha : s.nextAgent = .core k
  · obtain rfl | ⟨-, i, he⟩ := step_core ha ht
    · rw [State.coreAt_passTurn]
      exact Tape.GrowsTo.refl _
    · obtain ⟨-, -, -, -, -, hcur, -⟩ := he.keeps_arbiter
      have hcore : t.core = t.coreAt k := congrArg t.coreAt hcur
      have hgrows := he.tape_growsTo (by simpa [h.coreCount] using hk)
      rwa [State.core_atCore, State.coreAt_passTurn, hcore] at hgrows
  · rw [step_coreAt_other hn ht ha]
    exact Tape.GrowsTo.refl _

/-! ### An instruction sees its core and its two queues (R25, R57, R136, R140) -/

namespace State

theorem inq_setInq {s : State} (h : InPlace s) (q : Queue) : (s.setInq q).inq = q :=
  queueAt_setQueue_same (Nat.lt_of_succ_lt h.2) q
theorem outq_setOutq {s : State} (h : InPlace s) (q : Queue) : (s.setOutq q).outq = q := queueAt_setQueue_same h.2 q
@[simp] theorem outq_setInq (s : State) (q : Queue) : (s.setInq q).outq = s.outq :=
  queueAt_setQueue_other (Nat.succ_ne_self s.cur) q
@[simp] theorem inq_setOutq (s : State) (q : Queue) : (s.setOutq q).inq = s.inq :=
  queueAt_setQueue_other (Nat.succ_ne_self s.cur).symm q

end State

/-- The current cores of two states cannot tell them apart: both are in place, and registers, memory, queues, `MAXLEN` and
`QDEPTH` are alike. -/
structure SameView (s s' : State) : Prop where
  inPlace : InPlace s
  inPlace' : InPlace s'
  maxlen : s.cfg.maxlen = s'.cfg.maxlen
  qdepth : s.cfg.qdepth = s'.cfg.qdepth
  core : s.core = s'.core
  inq : s.inq = s'.inq
  outq : s.outq = s'.outq

namespace SameView

variable {s s' : State}

/-! The operands are alike. -/

theorem source (h : SameView s s') (n : Nat) (p : Param) : s'.source n p = s.source n p := by
  rw [State.source, State.source, h.core]

theorem target (h : SameView s s') (n : Nat) (p : Param) : s'.target n p = s.target n p := by
  rw [State.target, State.target, h.core, h.maxlen]

/-! Every operation keeps states alike. -/

theorem setCore (h : SameView s s') (c : CoreState) : SameView (s.setCore c) (s'.setCore c) where
  inPlace := by simpa [InPlace] using h.inPlace
  inPlace' := by simpa [InPlace] using h.inPlace'
  maxlen := h.maxlen
  qdepth := h.qdepth
  core := by rw [State.core_setCore h.inPlace.1, State.core_setCore h.inPlace'.1]
  inq := h.inq
  outq := h.outq

theorem setInq (h : SameView s s') (q : Queue) : SameView (s.setInq q) (s'.setInq q) where
  inPlace := by simpa [InPlace] using h.inPlace
  inPlace' := by simpa [InPlace] using h.inPlace'
  maxlen := h.maxlen
  qdepth := h.qdepth
  core := h.core
  inq := by rw [State.inq_setInq h.inPlace, State.inq_setInq h.inPlace']
  outq := by rw [State.outq_setInq, State.outq_setInq, h.outq]

theorem setOutq (h : SameView s s') (q : Queue) : SameView (s.setOutq q) (s'.setOutq q) where
  inPlace := by simpa [InPlace] using h.inPlace
  inPlace' := by simpa [InPlace] using h.inPlace'
  maxlen := h.maxlen
  qdepth := h.qdepth
  core := h.core
  inq := by rw [State.inq_setOutq, State.inq_setOutq, h.inq]
  outq := by rw [State.outq_setOutq h.inPlace, State.outq_setOutq h.inPlace']

theorem store (h : SameView s s') (a : Nat) (v : Word) : SameView (s.store a v) (s'.store a v) := by
  rw [State.store, State.store, ← h.core]
  exact h.setCore _

theorem jump (h : SameView s s') (y : Word) : SameView (s.jump y) (s'.jump y) := by
  rw [State.jump, State.jump, ← h.core]
  exact h.setCore _

theorem advance (h : SameView s s') (n : Nat) : SameView (s.advance n) (s'.advance n) := by
  rw [State.advance, State.advance, ← h.core]
  exact h.jump _

theorem setRb (h : SameView s s') (v : Word) : SameView (s.setRb v) (s'.setRb v) := by
  rw [State.setRb, State.setRb, ← h.core]
  exact h.setCore _

theorem closePorts (h : SameView s s') : SameView s.closePorts s'.closePorts := by
  have hout : SameView (s.setOutq s.outq.closeProd) (s'.setOutq s'.outq.closeProd) := h.outq ▸ h.setOutq _
  simp only [State.closePorts, ← hout.inq]
  exact hout.setInq _

/-- The failure latch is no part of what a core sees. -/
theorem latchFail (h : SameView s s') : SameView s.latchFail s'.latchFail where
  inPlace := by simpa [InPlace] using h.inPlace
  inPlace' := by simpa [InPlace] using h.inPlace'
  maxlen := by simpa using h.maxlen
  qdepth := by simpa using h.qdepth
  core := by simpa using h.core
  inq := by simpa [State.inq] using h.inq
  outq := by simpa [State.outq] using h.outq

theorem raise (h : SameView s s') (e : CoreError) : SameView (s.raise e) (s'.raise e) := by
  rw [State.raise, State.raise, ← h.core]
  exact (h.setCore _).closePorts.latchFail

theorem halt (h : SameView s s') : SameView s.halt s'.halt := by
  rw [State.halt, State.halt, ← h.core]
  exact (h.setCore _).closePorts

end SameView

/-- Both outcomes are next states, and these are alike. -/
def AnswersAlike (o o' : Host.Outcome State Fault Refusal) : Prop :=
  ∃ t t', o = .next t ∧ o' = .next t' ∧ SameView t t'

theorem AnswersAlike.ite {c : Prop} [Decidable c] {o o' r r' : Host.Outcome State Fault Refusal}
    (ho : AnswersAlike o o') (hr : AnswersAlike r r') :
    AnswersAlike (if c then o else r) (if c then o' else r') := by
  split
  · exact ho
  · exact hr

namespace SameView

variable {s s' : State}

theorem answers (h : SameView s s') : AnswersAlike (.next s) (.next s') := ⟨s, s', rfl, rfl, h⟩

theorem execRRW_alike (h : SameView s s') (f : Word → Word → Word) (a b d : Param) :
    AnswersAlike (execRRW f a b d s) (execRRW f a b d s') := by
  simp only [execRRW, h.source, h.target]
  cases s.source 1 a with
  | error e => exact (h.raise e).answers
  | ok x =>
    cases s.source 2 b with
    | error e => exact (h.raise e).answers
    | ok y =>
      cases s.target 3 d with
      | error e => exact (h.raise e).answers
      | ok p => exact ((h.store p (f x y)).advance 4).answers

theorem execJumpIf_alike (h : SameView s s') (takes : Word → Bool) (a b : Param) :
    AnswersAlike (execJumpIf takes a b s) (execJumpIf takes a b s') := by
  simp only [execJumpIf, h.source]
  cases s.source 1 a with
  | error e => exact (h.raise e).answers
  | ok x =>
    cases s.source 2 b with
    | error e => exact (h.raise e).answers
    | ok y => exact .ite (.ite (h.raise _).answers (h.jump y).answers) (h.advance 3).answers

theorem execInp_alike (h : SameView s s') (d : Param) : AnswersAlike (execInp d s) (execInp d s') := by
  simp only [execInp, h.target, ← h.inq]
  cases s.target 1 d with
  | error e => exact (h.raise e).answers
  | ok p =>
    cases s.inq.pop with
    | got v q => exact (((h.setInq q).store p v).advance 2).answers
    | endOfStream => exact (h.raise _).answers
    | blocked => exact h.answers

theorem execOut_alike (h : SameView s s') (a : Param) : AnswersAlike (execOut a s) (execOut a s') := by
  simp only [execOut, h.source, ← h.outq, ← h.qdepth]
  cases s.source 1 a with
  | error e => exact (h.raise e).answers
  | ok x =>
    dsimp only
    cases s.outq.push s.cfg.qdepth x with
    | pushed q => exact ((h.setOutq q).advance 2).answers
    | gone => exact (h.raise _).answers
    | blocked => exact h.answers

theorem execArb_alike (h : SameView s s') (a : Param) : AnswersAlike (execArb a s) (execArb a s') := by
  simp only [execArb, h.source, ← h.core]
  cases s.source 1 a with
  | error e => exact (h.raise e).answers
  | ok x => exact ((h.setRb _).advance 2).answers

/-- One instruction in two states its core cannot tell apart. -/
theorem exec_alike (h : SameView s s') (i : Instr) : AnswersAlike (exec i s) (exec i s') := by
  cases i with
  | add a b d | mul a b d | lt a b d | eq a b d => exact h.execRRW_alike _ a b d
  | inp d => exact h.execInp_alike d
  | out a => exact h.execOut_alike a
  | jnz a b | jz a b => exact h.execJumpIf_alike _ a b
  | arb a => exact h.execArb_alike a
  | hlt => exact h.halt.answers

end SameView

/-- Settles O26: a run of the same instruction in both states meets the same operands and answers, so it takes the same
branch, and each operation of that branch keeps the states alike. -/
theorem coreSeesOnlyItsOwnStateAndPorts : Obligations.CoreSeesOnlyItsOwnStateAndPorts := by
  intro i s s' t t' hs hs' hmaxlen hqdepth hcore hinq houtq ht ht'
  obtain ⟨u, u', hu, hu', hview⟩ := SameView.exec_alike ⟨hs, hs', hmaxlen, hqdepth, hcore, hinq, houtq⟩ i
  cases ht.symm.trans hu
  cases ht'.symm.trans hu'
  exact ⟨hview.core, hview.inq, hview.outq⟩

end Sys2Proof.Machine

/-! # Proofs: the encoding, the fetch, the operands, and the step (30_encoding.md) -/

namespace Sys2Proof.Machine

/-! ### The rows of the opcode table (R62, R63) -/

/-- `op` is a row of one parameter, and `mk` its instruction. -/
structure Row1 (op : Nat) (mk : Param → Instr) : Prop where
  opcode_le : op ≤ 9
  decodeOpcode_eq : decodeOpcode op = decode1 mk
  encode_eq (a : Param) : encode (mk a) = encode1 op a
  nParams_eq (a : Param) : (mk a).nParams = 1

/-- The same for two parameters. -/
structure Row2 (op : Nat) (mk : Param → Param → Instr) : Prop where
  opcode_le : op ≤ 6
  decodeOpcode_eq : decodeOpcode op = decode2 mk
  encode_eq (a b : Param) : encode (mk a b) = encode2 op a b
  nParams_eq (a b : Param) : (mk a b).nParams = 2

/-- The same for three parameters. -/
structure Row3 (op : Nat) (mk : Param → Param → Param → Instr) : Prop where
  opcode_le : op ≤ 8
  decodeOpcode_eq : decodeOpcode op = decode3 mk
  encode_eq (a b d : Param) : encode (mk a b d) = encode3 op a b d
  nParams_eq (a b d : Param) : (mk a b d).nParams = 3

theorem Row3.add : Row3 1 .add := ⟨by decide, rfl, fun _ _ _ => rfl, fun _ _ _ => rfl⟩
theorem Row3.mul : Row3 2 .mul := ⟨by decide, rfl, fun _ _ _ => rfl, fun _ _ _ => rfl⟩
theorem Row1.inp : Row1 3 .inp := ⟨by decide, rfl, fun _ => rfl, fun _ => rfl⟩
theorem Row1.out : Row1 4 .out := ⟨by decide, rfl, fun _ => rfl, fun _ => rfl⟩
theorem Row2.jnz : Row2 5 .jnz := ⟨by decide, rfl, fun _ _ => rfl, fun _ _ => rfl⟩
theorem Row2.jz : Row2 6 .jz := ⟨by decide, rfl, fun _ _ => rfl, fun _ _ => rfl⟩
theorem Row3.lt : Row3 7 .lt := ⟨by decide, rfl, fun _ _ _ => rfl, fun _ _ _ => rfl⟩
theorem Row3.eq : Row3 8 .eq := ⟨by decide, rfl, fun _ _ _ => rfl, fun _ _ _ => rfl⟩
theorem Row1.arb : Row1 9 .arb := ⟨by decide, rfl, fun _ => rfl, fun _ => rfl⟩

/-! ### Decoding one format: the mode digits in index order (R66, R75 step 4) -/

theorem decode1_cons (mk : Param → Instr) (w r1 : Word) (tail : List Word) :
    decode1 mk w (r1 :: tail) = (modeAt w 1).bind fun m1 => .ok (mk ⟨m1, r1⟩) := by
  rw [decode1]
  cases modeAt w 1 <;> rfl

theorem decode2_cons (mk : Param → Param → Instr) (w r1 r2 : Word) (tail : List Word) :
    decode2 mk w (r1 :: r2 :: tail) =
      (modeAt w 1).bind fun m1 => (modeAt w 2).bind fun m2 => .ok (mk ⟨m1, r1⟩ ⟨m2, r2⟩) := by
  rw [decode2]
  cases modeAt w 1 with
  | error e => rfl
  | ok m1 => cases modeAt w 2 <;> rfl

theorem decode3_cons (mk : Param → Param → Param → Instr) (w r1 r2 r3 : Word) (tail : List Word) :
    decode3 mk w (r1 :: r2 :: r3 :: tail) =
      (modeAt w 1).bind fun m1 => (modeAt w 2).bind fun m2 => (modeAt w 3).bind fun m3 =>
        .ok (mk ⟨m1, r1⟩ ⟨m2, r2⟩ ⟨m3, r3⟩) := by
  rw [decode3]
  cases modeAt w 1 with
  | error e => rfl
  | ok m1 =>
    cases modeAt w 2 with
    | error e => rfl
    | ok m2 => cases modeAt w 3 <;> rfl

theorem three_le_of_modeOfDigit_eq_none {n : Nat} (h : modeOfDigit n = none) : 3 ≤ n := by
  match n with
  | 0 | 1 | 2 => cases h
  | n + 3 => omega

/-- A mode digit is a mode, or it is 3 or more and rejected (R66). -/
theorem modeAt_cases (w : Word) (n : Nat) :
    (∃ m, modeAt w n = .ok m ∧ digit (n + 1) w = modeDigit m)
      ∨ modeAt w n = .error (.illegalMode n w) ∧ 3 ≤ digit (n + 1) w := by
  unfold modeAt
  split
  · rename_i m hm
    exact .inl ⟨m, rfl, modeOfDigit_eq_some hm⟩
  · rename_i hm
    exact .inr ⟨rfl, three_le_of_modeOfDigit_eq_none hm⟩

/-! ### Words with legal mode digits decode (R61, R67) -/

theorem decode_cons_of_nonneg {w : Word} {op : Nat} (hw : 0 ≤ w.toInt) (hop : w.toNat % 100 = op) (rest : List Word) :
    decode (w :: rest) = decodeOpcode op w rest := by
  rw [decode, if_neg (Int.not_lt.mpr hw), opcodeOf, hop]

theorem Row1.decodes {op : Nat} {mk : Param → Instr} (h : Row1 op mk) : Decodes1 op mk := by
  intro w r1 rest m1 hw hop h1
  rw [decode_cons_of_nonneg hw hop, h.decodeOpcode_eq, decode1_cons, modeAt_of_digit h1]
  rfl

theorem Row2.decodes {op : Nat} {mk : Param → Param → Instr} (h : Row2 op mk) : Decodes2 op mk := by
  intro w r1 r2 rest m1 m2 hw hop h1 h2
  rw [decode_cons_of_nonneg hw hop, h.decodeOpcode_eq, decode2_cons, modeAt_of_digit h1, modeAt_of_digit h2]
  rfl

theorem Row3.decodes {op : Nat} {mk : Param → Param → Param → Instr} (h : Row3 op mk) : Decodes3 op mk := by
  intro w r1 r2 r3 rest m1 m2 m3 hw hop h1 h2 h3
  rw [decode_cons_of_nonneg hw hop, h.decodeOpcode_eq, decode3_cons, modeAt_of_digit h1, modeAt_of_digit h2,
    modeAt_of_digit h3]
  rfl

/-! ### The round trip (R77) -/

/-- The canonical words of `i` are `w :: raws`: `w` has no digit above those its format uses, and every word that agrees
with it in those digits decodes to `i` before the same raw words. -/
structure Canonical (i : Instr) (w : Word) (raws : List Word) : Prop where
  encode_eq : encode i = w :: raws
  toNat_le : w.toNat ≤ 22208
  toNat_lt : w.toNat < 10 ^ (i.nParams + 2)
  decode_eq {v : Word} (hv : 0 ≤ v.toInt) (hmod : v.toNat % 10 ^ (i.nParams + 2) = w.toNat) (rest : List Word) :
    decode (v :: (raws ++ rest)) = .ok i

theorem Row1.canonical {op : Nat} {mk : Param → Instr} (h : Row1 op mk) (a : Param) :
    ∃ w raws, Canonical (mk a) w raws := by
  have hop := h.opcode_le
  have ha := modeDigit_le a.mode
  have hw := instrWord_toNat (Nat.le_trans hop (by decide)) ha (Nat.zero_le 2) (Nat.zero_le 2)
  refine ⟨_, _, h.encode_eq a, ?_, ?_, fun hv hmod rest => h.decodes _ _ _ _ hv ?_ ?_⟩
  · omega
  · rw [h.nParams_eq]
    omega
  all_goals
    rw [h.nParams_eq, hw] at hmod
    omega

theorem Row2.canonical {op : Nat} {mk : Param → Param → Instr} (h : Row2 op mk) (a b : Param) :
    ∃ w raws, Canonical (mk a b) w raws := by
  have hop := h.opcode_le
  have ha := modeDigit_le a.mode
  have hb := modeDigit_le b.mode
  have hw := instrWord_toNat (Nat.le_trans hop (by decide)) ha hb (Nat.zero_le 2)
  refine ⟨_, _, h.encode_eq a b, ?_, ?_, fun hv hmod rest => h.decodes _ _ _ _ _ _ hv ?_ ?_ ?_⟩
  · omega
  · rw [h.nParams_eq]
    omega
  all_goals
    rw [h.nParams_eq, hw] at hmod
    omega

theorem Row3.canonical {op : Nat} {mk : Param → Param → Param → Instr} (h : Row3 op mk) (a b d : Param) :
    ∃ w raws, Canonical (mk a b d) w raws := by
  have hop := h.opcode_le
  have ha := modeDigit_le a.mode
  have hb := modeDigit_le b.mode
  have hd := modeDigit_le d.mode
  have hw := instrWord_toNat (Nat.le_trans hop (by decide)) ha hb hd
  refine ⟨_, _, h.encode_eq a b d, ?_, ?_, fun hv hmod rest => h.decodes _ _ _ _ _ _ _ _ hv ?_ ?_ ?_ ?_⟩
  · omega
  · rw [h.nParams_eq]
    omega
  all_goals
    rw [h.nParams_eq, hw] at hmod
    omega

theorem canonical_hlt : Canonical .hlt (instrWord 99 0 0 0) [] where
  encode_eq := rfl
  toNat_le := by decide
  toNat_lt := by decide
  decode_eq hv hmod rest := decode_cons_of_nonneg hv hmod rest

theorem exists_canonical (i : Instr) : ∃ w raws, Canonical i w raws := by
  cases i with
  | add a b d => exact Row3.add.canonical a b d
  | mul a b d => exact Row3.mul.canonical a b d
  | inp d => exact Row1.inp.canonical d
  | out a => exact Row1.out.canonical a
  | jnz a t => exact Row2.jnz.canonical a t
  | jz a t => exact Row2.jz.canonical a t
  | lt a b d => exact Row3.lt.canonical a b d
  | eq a b d => exact Row3.eq.canonical a b d
  | arb a => exact Row1.arb.canonical a
  | hlt => exact ⟨_, _, canonical_hlt⟩

theorem canonical_of_encode {i : Instr} {w : Word} {raws : List Word} (h : encode i = w :: raws) :
    Canonical i w raws := by
  obtain ⟨w', raws', hc⟩ := exists_canonical i
  cases h.symm.trans hc.encode_eq
  exact hc

/-- Settles O2: a canonical word agrees with itself in the digits its format uses, so the first clause is the third. -/
theorem decodeEncodeRoundTrip : Obligations.DecodeEncodeRoundTrip := by
  refine ⟨fun i rest => ?_, fun i w raws h => (canonical_of_encode h).toNat_le,
    fun i w v raws rest h hv hmod => (canonical_of_encode h).decode_eq hv hmod rest⟩
  obtain ⟨w, raws, hc⟩ := exists_canonical i
  have hnonneg : 0 ≤ w.toInt := toInt_nonneg_of_toNat_lt (Nat.lt_of_le_of_lt hc.toNat_le (by decide))
  rw [hc.encode_eq]
  exact hc.decode_eq hnonneg (Nat.mod_eq_of_lt hc.toNat_lt) rest

/-! ### Everything decoding can answer (R64, R65, R66, R68, R75 steps 2 to 4) -/

/-- The mode digits of the parameters before `k` are modes. -/
def ModesBelow (w : Word) (k : Nat) : Prop := ∀ j, 1 ≤ j → j < k → digit (j + 1) w < 3

theorem modesBelow_one (w : Word) : ModesBelow w 1 := fun _ h1 hk => absurd hk (Nat.not_lt.mpr h1)

theorem ModesBelow.succ {w : Word} {k : Nat} (h : ModesBelow w k) (hk : digit (k + 1) w < 3) : ModesBelow w (k + 1) := by
  intro j h1 hj
  obtain hlt | rfl := Nat.lt_succ_iff_lt_or_eq.mp hj
  · exact h j h1 hlt
  · exact hk

theorem ModesBelow.le_of_bad {w : Word} {j k : Nat} (h : ModesBelow w k) (h1 : 1 ≤ j) (hbad : 3 ≤ digit (j + 1) w) :
    k ≤ j :=
  Nat.le_of_not_lt fun hj => Nat.not_lt.mpr hbad (h j h1 hj)

/-- `w :: rest` begins with `i`'s canonical words, but for the digits of `w` that `i`'s format does not use (R67, R69). -/
def SpelledBy (i : Instr) (w : Word) (rest : List Word) : Prop :=
  ∃ c, encode i = c :: rest.take i.nParams ∧ c.toNat = w.toNat % 10 ^ (i.nParams + 2)

/-- What decoding answers for a word of a known opcode with `n` parameters. -/
inductive Answer (w : Word) (rest : List Word) (n : Nat) : Except Reject Instr → Prop
  | truncated (hlen : rest.length < n) : Answer w rest n (.error (.truncatedInstruction w))
  | illegal {k : Nat} (hlen : n ≤ rest.length) (h1 : 1 ≤ k) (hk : k ≤ n) (hbad : 3 ≤ digit (k + 1) w)
      (hbelow : ModesBelow w k) : Answer w rest n (.error (.illegalMode k w))
  | decoded {i : Instr} (hlen : n ≤ rest.length) (hn : i.nParams = n) (hmodes : ModesBelow w (n + 1))
      (hwords : SpelledBy i w rest) : Answer w rest n (.ok i)

/-- The mode digit of parameter `k` is looked at after those before it. -/
theorem Answer.bindMode {w : Word} {rest : List Word} {n k : Nat} {f : Mode → Except Reject Instr}
    (hlen : n ≤ rest.length) (h1 : 1 ≤ k) (hk : k ≤ n) (hbelow : ModesBelow w k)
    (hf : ∀ m, digit (k + 1) w = modeDigit m → ModesBelow w (k + 1) → Answer w rest n (f m)) :
    Answer w rest n ((modeAt w k).bind f) := by
  obtain ⟨m, hm, hd⟩ | ⟨hm, hbad⟩ := modeAt_cases w k
  · rw [hm]
    exact hf m hd (hbelow.succ (hd ▸ Nat.lt_succ_of_le (modeDigit_le m)))
  · rw [hm]
    exact .illegal hlen h1 hk hbad hbelow

theorem Row1.spelledBy {mk : Param → Instr} {w : Word} {m1 : Mode} (h : Row1 (opcodeOf w) mk)
    (h1 : digit 2 w = modeDigit m1) (r1 : Word) (tail : List Word) : SpelledBy (mk ⟨m1, r1⟩) w (r1 :: tail) := by
  have hw := instrWord_toNat (Nat.le_trans h.opcode_le (by decide)) (modeDigit_le m1) (Nat.zero_le 2) (Nat.zero_le 2)
  rw [SpelledBy, h.nParams_eq]
  refine ⟨_, h.encode_eq _, hw.trans ?_⟩
  rw [← h1, digit, opcodeOf]
  omega

theorem Row2.spelledBy {mk : Param → Param → Instr} {w : Word} {m1 m2 : Mode} (h : Row2 (opcodeOf w) mk)
    (h1 : digit 2 w = modeDigit m1) (h2 : digit 3 w = modeDigit m2) (r1 r2 : Word) (tail : List Word) :
    SpelledBy (mk ⟨m1, r1⟩ ⟨m2, r2⟩) w (r1 :: r2 :: tail) := by
  have hw := instrWord_toNat (Nat.le_trans h.opcode_le (by decide)) (modeDigit_le m1) (modeDigit_le m2) (Nat.zero_le 2)
  rw [SpelledBy, h.nParams_eq]
  refine ⟨_, h.encode_eq _ _, hw.trans ?_⟩
  rw [← h1, ← h2, digit, digit, opcodeOf]
  omega

theorem Row3.spelledBy {mk : Param → Param → Param → Instr} {w : Word} {m1 m2 m3 : Mode} (h : Row3 (opcodeOf w) mk)
    (h1 : digit 2 w = modeDigit m1) (h2 : digit 3 w = modeDigit m2) (h3 : digit 4 w = modeDigit m3)
    (r1 r2 r3 : Word) (tail : List Word) :
    SpelledBy (mk ⟨m1, r1⟩ ⟨m2, r2⟩ ⟨m3, r3⟩) w (r1 :: r2 :: r3 :: tail) := by
  have hw := instrWord_toNat (Nat.le_trans h.opcode_le (by decide)) (modeDigit_le m1) (modeDigit_le m2) (modeDigit_le m3)
  rw [SpelledBy, h.nParams_eq]
  refine ⟨_, h.encode_eq _ _ _, hw.trans ?_⟩
  rw [← h1, ← h2, ← h3, digit, digit, digit, opcodeOf]
  omega

theorem Row1.answer {mk : Param → Instr} {w : Word} (h : Row1 (opcodeOf w) mk) (rest : List Word) :
    Answer w rest 1 (decode1 mk w rest) := by
  match rest with
  | [] => exact .truncated (by simp)
  | r1 :: tail =>
    have hlen : 1 ≤ (r1 :: tail).length := by simp
    rw [decode1_cons]
    refine .bindMode hlen (by decide) (by decide) (modesBelow_one w) fun m1 h1 hmodes => ?_
    exact .decoded hlen (h.nParams_eq _) hmodes (h.spelledBy h1 r1 tail)

theorem Row2.answer {mk : Param → Param → Instr} {w : Word} (h : Row2 (opcodeOf w) mk) (rest : List Word) :
    Answer w rest 2 (decode2 mk w rest) := by
  match rest with
  | [] | [_] => exact .truncated (by simp)
  | r1 :: r2 :: tail =>
    have hlen : 2 ≤ (r1 :: r2 :: tail).length := by simp
    rw [decode2_cons]
    refine .bindMode hlen (by decide) (by decide) (modesBelow_one w) fun m1 h1 hbelow2 => ?_
    refine .bindMode hlen (by decide) (by decide) hbelow2 fun m2 h2 hmodes => ?_
    exact .decoded hlen (h.nParams_eq _ _) hmodes (h.spelledBy h1 h2 r1 r2 tail)

theorem Row3.answer {mk : Param → Param → Param → Instr} {w : Word} (h : Row3 (opcodeOf w) mk) (rest : List Word) :
    Answer w rest 3 (decode3 mk w rest) := by
  match rest with
  | [] | [_] | [_, _] => exact .truncated (by simp)
  | r1 :: r2 :: r3 :: tail =>
    have hlen : 3 ≤ (r1 :: r2 :: r3 :: tail).length := by simp
    rw [decode3_cons]
    refine .bindMode hlen (by decide) (by decide) (modesBelow_one w) fun m1 h1 hbelow2 => ?_
    refine .bindMode hlen (by decide) (by decide) hbelow2 fun m2 h2 hbelow3 => ?_
    refine .bindMode hlen (by decide) (by decide) hbelow3 fun m3 h3 hmodes => ?_
    exact .decoded hlen (h.nParams_eq _ _ _) hmodes (h.spelledBy h1 h2 h3 r1 r2 r3 tail)

/-- `op` is an opcode of the table, of an instruction with `n` parameters (R62, R63). -/
inductive TableRow : Nat → Nat → Prop
  | one {op : Nat} {mk : Param → Instr} (h : Row1 op mk) : TableRow op 1
  | two {op : Nat} {mk : Param → Param → Instr} (h : Row2 op mk) : TableRow op 2
  | three {op : Nat} {mk : Param → Param → Param → Instr} (h : Row3 op mk) : TableRow op 3
  | hlt : TableRow 99 0

theorem TableRow.nParams_le {op n : Nat} (h : TableRow op n) : n ≤ 3 := by
  cases h <;> decide

theorem TableRow.answer {w : Word} {op n : Nat} (h : TableRow op n) (hw : 0 ≤ w.toInt) (hop : w.toNat % 100 = op)
    (rest : List Word) : Answer w rest n (decode (w :: rest)) := by
  rw [decode_cons_of_nonneg hw hop]
  cases h with
  | one h => subst hop; exact h.decodeOpcode_eq ▸ h.answer rest
  | two h => subst hop; exact h.decodeOpcode_eq ▸ h.answer rest
  | three h => subst hop; exact h.decodeOpcode_eq ▸ h.answer rest
  | hlt =>
    have hword : (instrWord 99 0 0 0).toNat = w.toNat % 10 ^ 2 := hop.symm
    exact .decoded (Nat.zero_le _) rfl (modesBelow_one w) ⟨_, rfl, hword⟩

/-- The numbers of parameters (R62). -/
theorem tableRow_of_mem {op n : Nat}
    (h : (op, n) ∈ [(1, 3), (2, 3), (3, 1), (4, 1), (5, 2), (6, 2), (7, 3), (8, 3), (9, 1)]) : TableRow op n := by
  have hall : ∀ r ∈ [(1, 3), (2, 3), (3, 1), (4, 1), (5, 2), (6, 2), (7, 3), (8, 3), (9, 1)], TableRow r.1 r.2 := by
    simp only [List.forall_mem_cons]
    exact ⟨.three .add, .three .mul, .one .inp, .one .out, .two .jnz, .two .jz, .three .lt, .three .eq, .one .arb,
      List.forall_mem_nil _⟩
  exact hall _ h

/-- The opcodes of the table (R63). -/
theorem exists_tableRow {op : Nat} (h : op ∈ [1, 2, 3, 4, 5, 6, 7, 8, 9, 99]) : ∃ n, TableRow op n := by
  have hall : ∀ op ∈ [1, 2, 3, 4, 5, 6, 7, 8, 9, 99], ∃ n, TableRow op n := by
    simp only [List.forall_mem_cons]
    exact ⟨⟨3, .three .add⟩, ⟨3, .three .mul⟩, ⟨1, .one .inp⟩, ⟨1, .one .out⟩, ⟨2, .two .jnz⟩, ⟨2, .two .jz⟩,
      ⟨3, .three .lt⟩, ⟨3, .three .eq⟩, ⟨1, .one .arb⟩, ⟨0, .hlt⟩, List.forall_mem_nil _⟩
  exact hall _ h

theorem decodeOpcode_unknown {op : Nat} (h : op ∉ [1, 2, 3, 4, 5, 6, 7, 8, 9, 99]) (w : Word) (rest : List Word) :
    decodeOpcode op w rest = .error (.unknownOpcode w) := by
  unfold decodeOpcode
  split
  case h_11 => rfl
  all_goals simp at h

/-- What decoding answers for any words but none: an unknown opcode, or the answer of a row of the table. -/
theorem decode_cons_cases (w : Word) (rest : List Word) :
    ((w.toInt < 0 ∨ w.toNat % 100 ∉ [1, 2, 3, 4, 5, 6, 7, 8, 9, 99])
        ∧ decode (w :: rest) = .error (.unknownOpcode w))
      ∨ ((0 ≤ w.toInt ∧ w.toNat % 100 ∈ [1, 2, 3, 4, 5, 6, 7, 8, 9, 99])
        ∧ ∃ n, Answer w rest n (decode (w :: rest))) := by
  by_cases hneg : w.toInt < 0
  · exact .inl ⟨.inl hneg, by rw [decode, if_pos hneg]⟩
  · have hw : 0 ≤ w.toInt := Int.not_lt.mp hneg
    by_cases hop : w.toNat % 100 ∈ [1, 2, 3, 4, 5, 6, 7, 8, 9, 99]
    · obtain ⟨n, hrow⟩ := exists_tableRow hop
      exact .inr ⟨⟨hw, hop⟩, n, hrow.answer hw rfl rest⟩
    · exact .inl ⟨.inr hop, by rw [decode_cons_of_nonneg hw rfl, decodeOpcode_unknown hop]⟩

namespace Answer

variable {w : Word} {rest : List Word} {n : Nat} {x : Except Reject Instr}

theorem ne_unknownOpcode (h : Answer w rest n x) (v : Word) : x ≠ .error (.unknownOpcode v) := by
  cases h <;> simp

theorem ne_noWord (h : Answer w rest n x) : x ≠ .error .noWord := by
  cases h <;> simp

theorem truncated_iff (h : Answer w rest n x) : x = .error (.truncatedInstruction w) ↔ rest.length < n := by
  cases h with
  | truncated hlen => simp [hlen]
  | illegal hlen | decoded hlen => simp [hlen]

/-- Where no parameter word is missing, the mode rejected is the lowest that is no mode. -/
theorem illegal_iff (h : Answer w rest n x) (hlen : n ≤ rest.length) {k : Nat} (hk : 1 ≤ k) :
    x = .error (.illegalMode k w) ↔ k ≤ n ∧ 3 ≤ digit (k + 1) w ∧ ModesBelow w k := by
  cases h with
  | truncated hshort => omega
  | illegal _ h1 hkn hbad hbelow =>
    constructor
    · intro heq
      cases heq
      exact ⟨hkn, hbad, hbelow⟩
    · rintro ⟨-, hbadk, hbelowk⟩
      rw [Nat.le_antisymm (hbelow.le_of_bad hk hbadk) (hbelowk.le_of_bad h1 hbad)]
  | decoded _ _ hmodes =>
    simp only [reduceCtorEq, false_iff]
    rintro ⟨hkn, hbad, -⟩
    exact Nat.not_lt.mpr hkn (hmodes.le_of_bad hk hbad)

end Answer

/-- Settles O3: of the answers, only one is an instruction. -/
theorem decodedWordsAreCanonicalButHighDigits : Obligations.DecodedWordsAreCanonicalButHighDigits := by
  intro w rest i h
  obtain ⟨-, hunknown⟩ | ⟨⟨hw, -⟩, n, ha⟩ := decode_cons_cases w rest
  · cases h.symm.trans hunknown
  · rw [h] at ha
    cases ha with
    | decoded hlen hn _ hwords => exact ⟨hw, hn ▸ hlen, hwords⟩

/-- Settles O4: a row of the table answers no unknown opcode. -/
theorem unknownOpcodeExactly : Obligations.UnknownOpcodeExactly := by
  refine fun w rest => ⟨?_, fun pc => rfl⟩
  obtain ⟨hw, hunknown⟩ | ⟨⟨hw, hop⟩, n, ha⟩ := decode_cons_cases w rest
  · exact iff_of_true hunknown hw
  · exact iff_of_false (ha.ne_unknownOpcode w) (not_or.mpr ⟨Int.not_lt.mpr hw, not_not.mpr hop⟩)

/-- Settles O6: the answer of the opcode's row, its digits read off. -/
theorem lowestIllegalModeReported : Obligations.LowestIllegalModeReported := by
  intro w rest n k hw hmem hlen hk
  exact ⟨((tableRow_of_mem hmem).answer hw rfl rest).illegal_iff hlen hk, fun pc => rfl⟩

/-- Settles O7: five words, evaluated. -/
theorem sampleWordsDecode : Obligations.SampleWordsDecode := by
  unfold Obligations.SampleWordsDecode
  decide

/-! ### The fetch (R60, R68) -/

theorem Tape.length_wordsFrom (t : Tape) (a n : Nat) : (t.wordsFrom a n).length = min n (t.len - a) := by
  induction n generalizing a with
  | zero => simp [wordsFrom]
  | succ n ih =>
    rw [wordsFrom]
    split
    · rw [List.length_cons, ih]
      omega
    · simp
      omega

theorem Tape.getElem?_wordsFrom (t : Tape) (a : Nat) {k n : Nat} (hk : k < n) :
    (t.wordsFrom a n)[k]? = if a + k < t.len then some (t.read (a + k)) else none := by
  induction n generalizing a k with
  | zero => omega
  | succ n ih =>
    rw [wordsFrom]
    split
    · cases k with
      | zero => simp [*]
      | succ k => rw [List.getElem?_cons_succ, ih (a + 1) (by omega), Nat.add_right_comm, Nat.add_assoc]
    · rw [if_neg (by omega)]
      rfl

theorem fetchWords_of_lt {c : CoreState} (h : c.pc.toNat < c.tape.len) :
    fetchWords c = c.tape.read c.pc.toNat :: c.tape.wordsFrom (c.pc.toNat + 1) 3 := by
  rw [fetchWords, Tape.wordsFrom, if_pos h]

theorem fetchDecode_ok_iff {c : CoreState} {i : Instr} : fetchDecode c = .ok i ↔ decode (fetchWords c) = .ok i := by
  unfold fetchDecode
  cases decode (fetchWords c) <;> simp

theorem fetchDecode_error_iff {c : CoreState} {e : CoreError} :
    fetchDecode c = .error e ↔ ∃ r, decode (fetchWords c) = .error r ∧ CoreError.ofReject c.pc r = e := by
  unfold fetchDecode
  cases decode (fetchWords c) <;> simp

theorem CoreError.ofReject_eq_truncated_iff {pc w : Word} {r : Reject} :
    ofReject pc r = .truncatedInstruction w ↔ r = .truncatedInstruction w := by
  cases r <;> simp [ofReject]

theorem CoreError.ofReject_eq_runaway_iff {pc : Word} {r : Reject} : ofReject pc r = .runaway pc ↔ r = .noWord := by
  cases r <;> simp [ofReject]

/-- Settles O5: of the words after the first, those below `LEN` and at most three are there. -/
theorem truncatedBeforeModes : Obligations.TruncatedBeforeModes := by
  intro c w n hpc hw hnonneg hmem
  refine ⟨?_, rfl⟩
  have hrow := tableRow_of_mem hmem
  have hanswer := hrow.answer hnonneg rfl (c.tape.wordsFrom (c.pc.toNat + 1) 3)
  rw [fetchDecode_error_iff]
  simp only [CoreError.ofReject_eq_truncated_iff, exists_eq_right]
  rw [fetchWords_of_lt hpc, ← hw, hanswer.truncated_iff, Tape.length_wordsFrom]
  have hn : n ≤ 3 := hrow.nParams_le
  omega

theorem decode_cons_ne_noWord (w : Word) (rest : List Word) : decode (w :: rest) ≠ .error .noWord := by
  obtain ⟨-, hunknown⟩ | ⟨-, n, ha⟩ := decode_cons_cases w rest
  · simp [hunknown]
  · exact ha.ne_noWord

/-- Settles O30: only the empty list of words is rejected for having no word. -/
theorem fetchBoundBeforeDecode : Obligations.FetchBoundBeforeDecode := by
  refine fun c => ⟨fun hpc => ?_, fun hpc => ⟨_, fetchWords_of_lt hpc, fun e he hrun => ?_⟩,
    fun n hn => c.tape.getElem?_wordsFrom c.pc.toNat hn⟩
  · have hnone : fetchWords c = [] := by rw [fetchWords, Tape.wordsFrom, if_neg (Nat.not_lt.mpr hpc)]
    exact fetchDecode_error_iff.mpr ⟨.noWord, by rw [hnone]; rfl, rfl⟩
  · obtain ⟨r, hr, hof⟩ := fetchDecode_error_iff.mp (hrun ▸ he)
    rw [CoreError.ofReject_eq_runaway_iff.mp hof, fetchWords_of_lt hpc] at hr
    exact decode_cons_ne_noWord _ _ hr

/-! ### Operands (R70, R71, R73) -/

theorem loadOperand_of_neg {n : Nat} {a : Word} {t : Tape} (h : a.toInt < 0) :
    loadOperand n a t = .error (.negativeAddress n a) := if_pos h

theorem loadOperand_of_nonneg {n : Nat} {a : Word} {t : Tape} (h : 0 ≤ a.toInt) :
    loadOperand n a t = .ok (t.read a.toNat) := if_neg (Int.not_lt.mpr h)

theorem checkTarget_of_neg {n maxlen : Nat} {a : Word} (h : a.toInt < 0) :
    checkTarget n a maxlen = .error (.negativeAddress n a) := if_pos h

theorem checkTarget_of_ge {n maxlen : Nat} {a : Word} (h : 0 ≤ a.toInt) (hm : maxlen ≤ a.toNat) :
    checkTarget n a maxlen = .error (.memoryExhausted n a) := by
  rw [checkTarget, if_neg (Int.not_lt.mpr h), if_pos hm]

theorem checkTarget_of_lt {n maxlen : Nat} {a : Word} (h : 0 ≤ a.toInt) (hm : a.toNat < maxlen) :
    checkTarget n a maxlen = .ok a.toNat := by
  rw [checkTarget, if_neg (Int.not_lt.mpr h), if_neg (Nat.not_le.mpr hm)]

/-- Settles O10: positional and relative operands are loads, at the raw word and at its sum with `RB`. -/
theorem sourceOperandByMode : Obligations.SourceOperandByMode := by
  refine fun n raw c => ⟨fun h => loadOperand_of_neg h, fun h => loadOperand_of_nonneg h, rfl, ?_⟩
  rintro a rfl
  exact ⟨fun h => loadOperand_of_neg h, fun h => loadOperand_of_nonneg h⟩

/-- A write target that is not immediate is the test of its effective address. -/
theorem resolveW_of_not_immediate {n maxlen : Nat} {p : Param} {c : CoreState} (h : p.mode ≠ .immediate) :
    resolveW n p maxlen c = checkTarget n (effectiveAddress c.rb p) maxlen := by
  obtain ⟨m, raw⟩ := p
  cases m with
  | immediate => exact absurd rfl h
  | positional | relative => rfl

/-- Settles O11: positional and relative targets are tested alike, each at its own address. -/
theorem writeTargetByMode : Obligations.WriteTargetByMode := by
  refine fun n maxlen raw c => ⟨rfl, ?_⟩
  rintro m a (⟨rfl, rfl⟩ | ⟨rfl, rfl⟩)
  all_goals
    rw [resolveW_of_not_immediate (by simp)]
    exact ⟨checkTarget_of_neg, checkTarget_of_ge, checkTarget_of_lt⟩

/-! ### When a core has a step (R75 step 0, R95, R96) -/

theorem hasRoom_iff_room (s : State) (q : Queue) : q.hasRoom s.cfg.qdepth = true ↔ Room s q := by
  unfold Room
  cases s.cfg.qdepth <;> simp [Queue.hasRoom]

/-- An instruction goes on: an IN with a good target has an item or the end of the stream, an OUT with a good operand has
room or no consumer. -/
def GoesOn (i : Instr) (s : State) : Prop :=
  (∀ d p, i = .inp d → s.target 1 d = .ok p → s.inq.items ≠ [] ∨ s.inq.prodClosed = true)
    ∧ ∀ a x, i = .out a → s.source 1 a = .ok x → s.outq.consGone = true ∨ Room s s.outq

theorem waits_inp_eq_false_iff {s : State} {d : Param} :
    waits (.inp d) s = false ↔ ∀ p, s.target 1 d = .ok p → s.inq.items ≠ [] ∨ s.inq.prodClosed = true := by
  cases h : s.target 1 d with
  | error e => simp [waits, h]
  | ok p =>
    simp only [waits, h, Except.ok.injEq, forall_eq', decide_eq_false_iff_not, Queue.pop_blocked_iff, not_and_or,
      Bool.not_eq_false]

theorem waits_out_eq_false_iff {s : State} {a : Param} :
    waits (.out a) s = false ↔ ∀ x, s.source 1 a = .ok x → s.outq.consGone = true ∨ Room s s.outq := by
  cases h : s.source 1 a with
  | error e => simp [waits, h]
  | ok x =>
    simp only [waits, h, Except.ok.injEq, forall_eq', decide_eq_false_iff_not, Queue.push_blocked_iff, not_and_or,
      Bool.not_eq_false, hasRoom_iff_room]

theorem waits_eq_false_iff (i : Instr) (s : State) : waits i s = false ↔ GoesOn i s := by
  cases i with
  | inp d =>
    rw [waits_inp_eq_false_iff]
    exact ⟨fun h => ⟨fun _ p hd => Instr.inp.inj hd ▸ h p, nofun⟩, fun ⟨h, _⟩ p => h d p rfl⟩
  | out a =>
    rw [waits_out_eq_false_iff]
    exact ⟨fun h => ⟨nofun, fun _ x ha => Instr.out.inj ha ▸ h x⟩, fun ⟨_, h⟩ x => h a x rfl⟩
  | add _ _ _ | mul _ _ _ | jnz _ _ | jz _ _ | lt _ _ _ | eq _ _ _ | arb _ | hlt =>
    exact iff_of_true rfl ⟨nofun, nofun⟩

theorem coreWaits_eq_false_iff (s : State) :
    coreWaits s = false ↔ ∀ i, fetchDecode s.core = .ok i → waits i s = false := by
  unfold coreWaits
  cases fetchDecode s.core <;> simp

/-- Settles O45: what it says of the instruction is that the instruction does not wait. -/
theorem coreStepEnabledExactly : Obligations.CoreStepEnabledExactly := by
  intro s k
  have hgoes : coreWaits (s.atCore k) = false ↔ ∀ i, fetchDecode (s.coreAt k) = .ok i → GoesOn i (s.atCore k) := by
    simp only [coreWaits_eq_false_iff, waits_eq_false_iff, State.core_atCore]
  change coreEnabled s k = true ↔ _
  simp only [coreEnabled, Bool.and_eq_true, decide_eq_true_eq, Bool.not_eq_true', hgoes, and_assoc]
  rfl

/-! ### A step (R75, R134, log 4, log 6) -/

theorem step_of_enabled {s : State} (h : s.enabled s.nextAgent = true) : step s = agentStep s.nextAgent s.passTurn :=
  if_pos h

/-- A turn that passes, or a machine that is stuck, refuses nothing. -/
theorem step_ne_refused {s : State} (h : s.enabled s.nextAgent = false) (r : Refusal) : step s ≠ .refused r := by
  rw [step, takeTurn, if_neg (by simp [h])]
  split <;> simp

theorem coreStep_of_decode_ok {s : State} {i : Instr} (h : decode (fetchWords s.core) = .ok i) :
    coreStep s = exec i s := by
  rw [coreStep, fetchDecode_ok_iff.mpr h]

theorem coreStep_of_decode_error {s : State} {r : Reject} (h : decode (fetchWords s.core) = .error r) :
    coreStep s = .next (s.raise (CoreError.ofReject s.core.pc r)) := by
  rw [coreStep, fetchDecode_error_iff.mpr ⟨r, h, rfl⟩]

theorem step_of_core {s : State} {k : Nat} (ha : s.nextAgent = .core k) (he : s.enabled (.core k) = true) :
    step s = coreStep (s.passTurn.atCore k) := by
  rw [step_of_enabled (ha ▸ he), ha]
  rfl

theorem step_of_forwarder {s t : State} (ha : s.nextAgent = .forwarder) (ht : forwarderStep s.passTurn = some t) :
    step s = .next t := by
  have he : s.enabled .forwarder = true := by
    rw [← State.forwarderEnabled_passTurn, State.enabled, ht]
    rfl
  rw [step_of_enabled (ha ▸ he), ha]
  simp [agentStep, ht]

/-- The state the host acts on: the turn has passed on, the action is off the list. -/
theorem hostStep_passTurn {s : State} {h : HostAct} {rest : List HostAct} (hacts : s.env.hostActs = h :: rest) :
    hostStep s.passTurn = hostDo h s.passTurn.dropHostAct := by
  rw [← State.passTurn_hostActs] at hacts
  rw [hostStep, hacts]

theorem dropHostAct_eq {s : State} {h : HostAct} {rest : List HostAct} (hacts : s.env.hostActs = h :: rest) :
    s.dropHostAct = { s with env := { s.env with hostActs := rest } } := by
  rw [State.dropHostAct, hacts, List.tail_cons]

theorem hostEnabled_passTurn {s : State} {h : HostAct} {rest : List HostAct} (hacts : s.env.hostActs = h :: rest) :
    s.enabled .host = (hostDo h s.passTurn.dropHostAct).acts := by
  rw [State.hostEnabled_cons hacts, State.dropHostAct, State.passTurn_eq]
  exact (State.hostDo_acts_env h s _).symm

theorem HostResult.acts_eq_false_iff (x : HostResult) : x.acts = false ↔ x = .waits := by
  cases x <;> simp [acts]

section host

variable {s : State} {h : HostAct} {rest : List HostAct} (ha : s.nextAgent = .host) (hacts : s.env.hostActs = h :: rest)

include ha hacts

theorem step_of_host (hx : (hostDo h s.passTurn.dropHostAct).acts = true) : step s = agentStep .host s.passTurn := by
  rw [step_of_enabled (by rw [ha, hostEnabled_passTurn hacts, hx]), ha]

theorem step_of_host_done {t : State} (hd : hostDo h s.passTurn.dropHostAct = .done t) : step s = .next t := by
  rw [step_of_host ha hacts (by rw [hd]; rfl), agentStep, hostStep_passTurn hacts, hd]

theorem step_of_host_refused {r : Refusal} (hd : hostDo h s.passTurn.dropHostAct = .refused r) :
    step s = .refused r := by
  rw [step_of_host ha hacts (by rw [hd]; rfl), agentStep, hostStep_passTurn hacts, hd]

theorem step_refused_iff_of_host (r : Refusal) :
    step s = .refused r ↔ hostDo h s.passTurn.dropHostAct = .refused r := by
  cases hd : hostDo h s.passTurn.dropHostAct with
  | done t => simp [step_of_host_done ha hacts hd]
  | waits =>
    have he : s.enabled s.nextAgent = false := by rw [ha, hostEnabled_passTurn hacts, hd]; rfl
    exact iff_of_false (step_ne_refused he r) nofun
  | refused r' => simp [step_of_host_refused ha hacts hd]

end host

/-- Settles O44, by the agent whose turn it is. -/
theorem stepRunsTheDecodedInstruction : Obligations.StepRunsTheDecodedInstruction := by
  refine ⟨fun s k ha he => ⟨fun i hi => ?_, fun r hr => ?_, ?_⟩, fun s t ha ht => step_of_forwarder ha ht,
    fun s => ?_, fun s h rest ha hacts => ?_, fun s hacts => ?_,
    fun s => ⟨s.passTurn_eq, s.passTurn_hostActs, s.passTurn_hostGot⟩⟩
  · rw [step_of_core ha he]
    exact coreStep_of_decode_ok (by simpa using hi)
  · rw [step_of_core ha he, coreStep_of_decode_error (by simpa using hr)]
    simp
  · exact congrArg (State.atCore · k) s.passTurn_eq
  · rw [← State.forwarderEnabled_passTurn, State.enabled, Option.isSome_eq_false_iff, Option.isNone_iff_eq_none]
  · have hu := dropHostAct_eq (s.passTurn_hostActs.trans hacts)
    dsimp only
    rw [← hu, hostEnabled_passTurn hacts]
    exact ⟨fun t hd => step_of_host_done ha hacts hd, step_refused_iff_of_host ha hacts,
      HostResult.acts_eq_false_iff _⟩
  · rw [State.enabled, hostStep, hacts]
    rfl

/-! ### The instruction laid by `withFetchWord` (log 7) -/

theorem decodeTableWord_eq_some_iff {nbits w : Nat} {i : Instr} :
    decodeTableWord nbits w = some i ↔ decode (tableWords nbits w) = .ok i := by
  unfold decodeTableWord
  cases decode (tableWords nbits w) <;> simp

namespace Tape

theorem len_le_len_lay (t : Tape) (a : Nat) (ws : List Word) : t.len ≤ (t.lay a ws).len := by
  induction ws generalizing t a with
  | nil => exact Nat.le_refl _
  | cons w rest ih => exact Nat.le_trans (by simp) (ih (t.write a w) (a + 1))

theorem read_lay_of_lt (t : Tape) {a b : Nat} (h : b < a) (ws : List Word) : (t.lay a ws).read b = t.read b := by
  induction ws generalizing t a with
  | nil => rfl
  | cons w rest ih =>
    rw [lay, ih _ (Nat.lt_succ_of_lt h)]
    exact t.read_write_other w (Nat.ne_of_lt h)

/-- Words laid on a tape are fetched from there. -/
theorem wordsFrom_lay (t : Tape) (a : Nat) (ws : List Word) : (t.lay a ws).wordsFrom a ws.length = ws := by
  induction ws generalizing t a with
  | nil => rfl
  | cons w rest ih =>
    have hlen : a < (t.lay a (w :: rest)).len :=
      Nat.lt_of_lt_of_le (by simp) (len_le_len_lay (t.write a w) (a + 1) rest)
    rw [List.length_cons, wordsFrom, if_pos hlen, lay, read_lay_of_lt _ (Nat.lt_succ_self a), read_write_same, ih]

end Tape

/-- Settles O60: core 0 has its turn and does not wait, for its input is closed and its output queue unbounded. -/
theorem fetchWordIsRunFirst : Obligations.FetchWordIsRunFirst := by
  intro nbits w i hi s
  have hfetch : fetchWords (s.coreAt 0) = tableWords nbits w :=
    Tape.wordsFrom_lay (Tape.ofImage []) 0 (tableWords nbits w)
  have hclosed : (s.queueAt 0).prodClosed = true := rfl
  have hroom : Room s (s.queueAt 1) := nofun
  have henabled : s.enabled (.core 0) = true := (coreStepEnabledExactly s 0).mpr
    ⟨Nat.zero_lt_one, rfl, rfl, fun _ _ => ⟨fun _ _ _ _ => .inr hclosed, fun _ _ _ _ => .inr hroom⟩⟩
  obtain ⟨hcore, -⟩ := stepRunsTheDecodedInstruction
  obtain ⟨hstep, -⟩ := hcore s 0 rfl henabled
  exact hstep i (hfetch ▸ decodeTableWord_eq_some_iff.mp hi)

end Sys2Proof.Machine

/-! # Proofs: sums and products, and the format they share (40_arithmetic.md) -/

namespace Sys2Proof.Machine

/-! ### The parts of an instruction's law -/

theorem Row3.encodes {op : Nat} {mk : Param → Param → Param → Instr} (h : Row3 op mk) : Encodes3 op mk :=
  h.encode_eq

theorem immediateTargetFails (n : Nat) : ImmediateTargetFails n := by
  rintro s ⟨_, raw⟩ rfl
  rfl

/-- No instruction changes more than its core, the queues and the failure latch (R25). -/
theorem Effect.restKept {s t : State} {i : Instr} (h : Effect s i t) : RestKept s t := by
  obtain ⟨hcfg, htap, hvalid, hdone, hrun, hcur, henv⟩ := h.keeps_arbiter
  exact ⟨hcfg, htap, hvalid, hdone, hrun, hcur, henv, h.coresLength, h.queuesLength, fun _ => h.coreAt_other⟩

theorem State.core_store_advance {s : State} (h : s.cur < s.cores.length) (p : Nat) (v : Word) (n : Nat) :
    ((s.store p v).advance n).core =
      { s.core with pc := s.core.pc + BitVec.ofNat 64 n, tape := s.core.tape.write p v } := by
  rw [core_advance (by simpa using h), core_store h]

/-- What one write leaves on the current tape (R42). -/
theorem stored_of_tape_eq {s t : State} {p : Nat} {v : Word} (h : t.core.tape = s.core.tape.write p v) :
    Stored s t p v := by
  rw [Stored, h]
  exact ⟨Tape.read_write_same _ p v, fun a => Tape.read_write_other _ v, Tape.len_write _ p v⟩

/-! ### The format `RRW` (R62, R72, R75) -/

section execRRW

variable {s : State} {f : Word → Word → Word} {a b d : Param} {x y : Word} {e : CoreError}

theorem execRRW_of_source_error (hx : s.source 1 a = .error e) : execRRW f a b d s = .next (s.raise e) := by
  simp only [execRRW, hx]

theorem execRRW_of_source_ok_error (hx : s.source 1 a = .ok x) (hy : s.source 2 b = .error e) :
    execRRW f a b d s = .next (s.raise e) := by
  simp only [execRRW, hx, hy]

theorem execRRW_of_target_error (hx : s.source 1 a = .ok x) (hy : s.source 2 b = .ok y)
    (hp : s.target 3 d = .error e) : execRRW f a b d s = .next (s.raise e) := by
  simp only [execRRW, hx, hy, hp]

theorem execRRW_of_ok {p : Nat} (hx : s.source 1 a = .ok x) (hy : s.source 2 b = .ok y) (hp : s.target 3 d = .ok p) :
    execRRW f a b d s = .next ((s.store p (f x y)).advance 4) := by
  simp only [execRRW, hx, hy, hp]

end execRRW

/-- Every row of three parameters that runs as `execRRW f` obeys the law with result `f`. -/
theorem storingLaw_of_execRRW {op : Nat} {mk : Param → Param → Param → Instr} {f : Word → Word → Word}
    (hrow : Row3 op mk) (hexec : ∀ a b d s, exec (mk a b d) s = execRRW f a b d s) : StoringLaw op mk f := by
  refine ⟨hrow.decodes, hrow.encodes, immediateTargetFails 3, fun s a b d hs => ?_⟩
  rw [hexec]
  refine ⟨fun x y p hx hy hp => ⟨_, execRRW_of_ok hx hy hp, ?_⟩, fun e => execRRW_of_source_error,
    fun x e => execRRW_of_source_ok_error, fun x y e => execRRW_of_target_error⟩
  have hcore := State.core_store_advance hs.1 p (f x y) 4
  have heffect : Effect s (mk a b d) ((s.store p (f x y)).advance 4) :=
    .stores (hrow.nParams_eq a b d) p (f x y) (target_lt hp)
  exact ⟨stored_of_tape_eq (by rw [hcore]), by rw [Advanced, hcore], by rw [hcore], by simp [StatusKept, hcore],
    fun _ => rfl, ⟨rfl, rfl⟩, heffect.restKept⟩

/-- Settles O13: ADD is row 1 and runs as `execRRW aluAdd`. -/
theorem addStoresWrappedSum : Obligations.AddStoresWrappedSum :=
  storingLaw_of_execRRW .add fun _ _ _ _ => rfl

/-- Settles O14: MUL is row 2 and runs as `execRRW aluMul`. -/
theorem mulStoresWrappedProduct : Obligations.MulStoresWrappedProduct :=
  storingLaw_of_execRRW .mul fun _ _ _ _ => rfl

/-! ### The results as integers (R92) -/

/-- Settles O12: the result is in range and congruent to the exact one, and two words' sum is less than `2^64` out of
range. -/
theorem aluResultsAsIntegers : Obligations.AluResultsAsIntegers := by
  intro x y
  obtain ⟨hsum, hlow, hhigh, hsumExact⟩ := wrapIsCongruentAndInRange (x.toInt + y.toInt)
  obtain ⟨hprod, -, -, hprodExact⟩ := wrapIsCongruentAndInRange (x.toInt * y.toInt)
  have hx : -(2 ^ 63) ≤ x.toInt := BitVec.le_toInt x
  have hx' : x.toInt < 2 ^ 63 := BitVec.toInt_lt
  have hy : -(2 ^ 63) ≤ y.toInt := BitVec.le_toInt y
  have hy' : y.toInt < 2 ^ 63 := BitVec.toInt_lt
  refine ⟨hsumExact, fun hover => ?_, fun hunder => ?_, hprodExact, hprod⟩
  all_goals
    rw [aluAdd]
    omega

end Sys2Proof.Machine

/-! # Proofs: input and output (41_io.md) -/

namespace Sys2Proof.Machine

theorem Row1.encodes {op : Nat} {mk : Param → Instr} (h : Row1 op mk) : Encodes1 op mk :=
  h.encode_eq

/-! ### A core that waits has no step (R75 step 0, R95, R96) -/

theorem not_enabled_of_waits {s : State} {i : Instr} (hi : fetchDecode s.core = .ok i) (hw : waits i s = true) :
    s.enabled (.core s.cur) = false := by
  have hcore : coreWaits (s.atCore s.cur) = true := by
    change coreWaits s = true
    simp only [coreWaits, hi, hw]
  change coreEnabled s s.cur = false
  rw [coreEnabled, hcore]
  exact Bool.and_false _

/-! ### IN (R95): the target, then the three outcomes of `pop` -/

section execInp

variable {s : State} {d : Param} {p : Nat}

theorem execInp_of_target_error {e : CoreError} (hp : s.target 1 d = .error e) :
    execInp d s = .next (s.raise e) := by
  simp only [execInp, hp]

theorem execInp_of_got {v : Word} {q : Queue} (hp : s.target 1 d = .ok p) (hq : s.inq.pop = .got v q) :
    execInp d s = .next (((s.setInq q).store p v).advance 2) := by
  simp only [execInp, hp, hq]

theorem execInp_of_endOfStream (hp : s.target 1 d = .ok p) (hq : s.inq.pop = .endOfStream) :
    execInp d s = .next (s.raise .inputEndOfStream) := by
  simp only [execInp, hp, hq]

theorem execInp_of_blocked (hp : s.target 1 d = .ok p) (hq : s.inq.pop = .blocked) : execInp d s = .next s := by
  simp only [execInp, hp, hq]

theorem waits_inp_of_blocked (hp : s.target 1 d = .ok p) (hq : s.inq.pop = .blocked) : waits (.inp d) s = true := by
  simp only [waits, hp, hq, decide_true]

end execInp

theorem State.core_take {s : State} (h : s.cur < s.cores.length) (q : Queue) (p : Nat) (v : Word) (n : Nat) :
    (((s.setInq q).store p v).advance n).core =
      { s.core with pc := s.core.pc + BitVec.ofNat 64 n, tape := s.core.tape.write p v } :=
  core_store_advance (s := s.setInq q) h p v n

/-- Settles O17, by the target and then the outcome of `pop`; the tape is written as by a store, and `INQ` is the only
queue replaced. -/
theorem inTakesTheOldestItem : Obligations.InTakesTheOldestItem := by
  refine ⟨Row1.inp.decodes, Row1.inp.encodes, immediateTargetFails 1, fun s d hs => ⟨?_, ?_, ?_, ?_⟩⟩
  · exact fun e => execInp_of_target_error
  · intro p v rest hp hitems
    have hpop : s.inq.pop = .got v { s.inq with items := rest } := Queue.pop_got_iff.mpr ⟨hitems, rfl, rfl⟩
    have heffect : Effect s (.inp d) _ := .takes v _ p hpop (target_lt hp)
    have hcore := State.core_take hs.1 { s.inq with items := rest } p v 2
    exact ⟨_, execInp_of_got hp hpop, State.inq_setInq hs _, stored_of_tape_eq (by rw [hcore]),
      by rw [Advanced, hcore], by rw [hcore], by simp [StatusKept, hcore],
      fun _ hj => State.queueAt_setQueue_other hj _, ⟨rfl, rfl⟩, heffect.restKept⟩
  · intro p hp hempty hclosed
    exact execInp_of_endOfStream hp (Queue.pop_endOfStream_iff.mpr ⟨hempty, hclosed⟩)
  · intro p hp hempty hopen hi
    exact not_enabled_of_waits hi (waits_inp_of_blocked hp (Queue.pop_blocked_iff.mpr ⟨hempty, hopen⟩))

/-! ### OUT (R96): the operand, then the three outcomes of `push` -/

section execOut

variable {s : State} {a : Param} {x : Word}

theorem execOut_of_source_error {e : CoreError} (hx : s.source 1 a = .error e) : execOut a s = .next (s.raise e) := by
  simp only [execOut, hx]

theorem execOut_of_pushed {q : Queue} (hx : s.source 1 a = .ok x) (hq : s.outq.push s.cfg.qdepth x = .pushed q) :
    execOut a s = .next ((s.setOutq q).advance 2) := by
  simp only [execOut, hx, hq]

theorem execOut_of_gone (hx : s.source 1 a = .ok x) (hq : s.outq.push s.cfg.qdepth x = .gone) :
    execOut a s = .next (s.raise (.outputConsumerGone x)) := by
  simp only [execOut, hx, hq]

theorem execOut_of_blocked (hx : s.source 1 a = .ok x) (hq : s.outq.push s.cfg.qdepth x = .blocked) :
    execOut a s = .next s := by
  simp only [execOut, hx, hq]

theorem waits_out_of_blocked (hx : s.source 1 a = .ok x) (hq : s.outq.push s.cfg.qdepth x = .blocked) :
    waits (.out a) s = true := by
  simp only [waits, hx, hq, decide_true]

end execOut

theorem State.core_send {s : State} (h : s.cur < s.cores.length) (q : Queue) (n : Nat) :
    ((s.setOutq q).advance n).core = { s.core with pc := s.core.pc + BitVec.ofNat 64 n } :=
  core_advance (s := s.setOutq q) h n

/-- A full queue with its consumer there blocks a push (R121). -/
theorem push_blocked_of_full {s : State} {q : Queue} {n : Nat} (x : Word) (hgone : q.consGone = false)
    (hn : s.cfg.qdepth = some n) (hfull : n ≤ q.items.length) : q.push s.cfg.qdepth x = .blocked := by
  refine Queue.push_blocked_iff.mpr ⟨hgone, ?_⟩
  rw [hn, Queue.hasRoom, decide_eq_false (Nat.not_lt.mpr hfull)]

/-- Settles O18, by the operand and then the outcome of `push`; `PC` is all that changes of the core, and `OUTQ` is the
only queue replaced. -/
theorem outAppendsTheOperand : Obligations.OutAppendsTheOperand := by
  refine ⟨Row1.out.decodes, Row1.out.encodes, fun s a hs => ⟨?_, ?_, ?_, ?_⟩⟩
  · exact fun e => execOut_of_source_error
  · exact fun x hx hgone => execOut_of_gone hx (Queue.push_gone_iff.mpr hgone)
  · intro x hx hgone hroom
    have hpush : s.outq.push s.cfg.qdepth x = .pushed { s.outq with items := s.outq.items ++ [x] } :=
      Queue.push_pushed_iff.mpr ⟨hgone, (hasRoom_iff_room s _).mpr hroom, rfl⟩
    have heffect : Effect s (.out a) _ := .sends x _ hpush
    have hcore := State.core_send hs.1 { s.outq with items := s.outq.items ++ [x] } 2
    exact ⟨_, execOut_of_pushed hx hpush, State.outq_setOutq hs _, by simp [MemoryKept], by rw [Advanced, hcore],
      by rw [hcore], by simp [StatusKept, hcore], fun _ hj => State.queueAt_setQueue_other hj _, ⟨rfl, rfl⟩,
      heffect.restKept⟩
  · intro x n hx hgone hn hfull hi
    exact not_enabled_of_waits hi (waits_out_of_blocked hx (push_blocked_of_full x hgone hn hfull))

/-! ### A blocked instruction changes nothing (log 8) -/

/-- Settles O19: in both cases the queue's operation blocks. -/
theorem blockedAnswersTheSameState : Obligations.BlockedAnswersTheSameState :=
  ⟨fun _ _ _ hp hempty hopen => execInp_of_blocked hp (Queue.pop_blocked_iff.mpr ⟨hempty, hopen⟩),
    fun _ _ x _ hx hgone hn hfull => execOut_of_blocked hx (push_blocked_of_full x hgone hn hfull)⟩

end Sys2Proof.Machine


/-! # Proofs: conditional jumps (42_jump.md) -/

namespace Sys2Proof.Machine

theorem Row2.encodes {op : Nat} {mk : Param → Param → Instr} (h : Row2 op mk) : Encodes2 op mk :=
  h.encode_eq

/-! ### `execJumpIf`: the operands, then the test, then the target's sign (R72, R100, R101, R102) -/

section execJumpIf

variable {s : State} {p : Word → Bool} {a b : Param} {x y : Word} {e : CoreError}

theorem execJumpIf_of_source_error (hx : s.source 1 a = .error e) : execJumpIf p a b s = .next (s.raise e) := by
  simp only [execJumpIf, hx]

theorem execJumpIf_of_source_ok_error (hx : s.source 1 a = .ok x) (hy : s.source 2 b = .error e) :
    execJumpIf p a b s = .next (s.raise e) := by
  simp only [execJumpIf, hx, hy]

theorem execJumpIf_of_taken (hx : s.source 1 a = .ok x) (hy : s.source 2 b = .ok y) (hp : p x = true)
    (hnonneg : 0 ≤ y.toInt) : execJumpIf p a b s = .next (s.jump y) := by
  simp only [execJumpIf, hx, hy, if_pos hp, if_neg (Int.not_lt.mpr hnonneg)]

theorem execJumpIf_of_negative_target (hx : s.source 1 a = .ok x) (hy : s.source 2 b = .ok y) (hp : p x = true)
    (hneg : y.toInt < 0) : execJumpIf p a b s = .next (s.raise (.negativeAddress 2 y)) := by
  simp only [execJumpIf, hx, hy, if_pos hp, if_pos hneg]

theorem execJumpIf_of_not_taken (hx : s.source 1 a = .ok x) (hy : s.source 2 b = .ok y) (hp : ¬ p x = true) :
    execJumpIf p a b s = .next (s.advance 3) := by
  simp only [execJumpIf, hx, hy, if_neg hp]

end execJumpIf

/-! ### What a jump leaves alone (R8, R25) -/

/-- `t` differs from `s` at most in the current core's `PC` and the form of its tape: the frame of `JumpLaw`. -/
def OnlyPcMoved (s t : State) : Prop :=
  MemoryKept s t ∧ t.core.rb = s.core.rb ∧ StatusKept s t ∧ QueuesKept s t ∧ FailKept s t ∧ RestKept s t

theorem State.restKept_jump (s : State) (y : Word) : RestKept s (s.jump y) :=
  ⟨rfl, rfl, rfl, rfl, rfl, rfl, rfl, jump_length s y, rfl, fun _ hj => coreAt_jump_other hj y⟩

theorem State.onlyPcMoved_jump {s : State} (h : s.cur < s.cores.length) (y : Word) : OnlyPcMoved s (s.jump y) := by
  have hcore := core_jump h y
  exact ⟨by simp [MemoryKept, hcore], by rw [hcore], by simp [StatusKept, hcore], fun _ => rfl, ⟨rfl, rfl⟩,
    restKept_jump s y⟩

/-- An advance is a jump to a word computed from `PC`. -/
theorem State.onlyPcMoved_advance {s : State} (h : s.cur < s.cores.length) (n : Nat) : OnlyPcMoved s (s.advance n) :=
  onlyPcMoved_jump h _

/-! ### The law of both jumps -/

/-- Every row of two parameters that runs as `execJumpIf p`, where `p` decides `takes`, obeys the law of a jump. -/
theorem jumpLaw_of_execJumpIf {op : Nat} {mk : Param → Param → Instr} {p : Word → Bool} {takes : Word → Prop}
    (hrow : Row2 op mk) (hexec : ∀ a b s, exec (mk a b) s = execJumpIf p a b s)
    (htakes : ∀ x, p x = true ↔ takes x) : JumpLaw op mk takes := by
  refine ⟨hrow.decodes, hrow.encodes, fun s a b hs => ?_⟩
  rw [hexec]
  refine ⟨?taken, ?negativeTarget, ?notTaken, fun e => execJumpIf_of_source_error,
    fun x e => execJumpIf_of_source_ok_error⟩
  case taken =>
    intro x y hx hy ht hnonneg
    exact ⟨_, execJumpIf_of_taken hx hy ((htakes x).mpr ht) hnonneg, by rw [State.core_jump hs.1],
      State.onlyPcMoved_jump hs.1 y⟩
  case negativeTarget =>
    intro x y hx hy ht
    exact execJumpIf_of_negative_target hx hy ((htakes x).mpr ht)
  case notTaken =>
    intro x y hx hy hnot
    exact ⟨_, execJumpIf_of_not_taken hx hy (mt (htakes x).mp hnot), by rw [Advanced, State.core_advance hs.1],
      State.onlyPcMoved_advance hs.1 3⟩

/-- The model's test of a word compares words, the rules' compares integers (R100, R101). -/
theorem isZero_iff_toInt_eq_zero (x : Word) : isZero x = true ↔ x.toInt = 0 := by
  rw [isZero, decide_eq_true_iff, ← BitVec.toInt_inj, BitVec.toInt_ofNat]
  rfl

/-- Settles O20: JNZ is row 5 and runs as `execJumpIf` of the negated zero test. -/
theorem jnzJumpsOnNonzero : Obligations.JnzJumpsOnNonzero :=
  jumpLaw_of_execJumpIf .jnz (fun _ _ _ => rfl) fun x => by
    rw [Bool.not_eq_true', ← Bool.not_eq_true, isZero_iff_toInt_eq_zero]

/-- Settles O21: JZ is row 6 and runs as `execJumpIf isZero`. -/
theorem jzJumpsOnZero : Obligations.JzJumpsOnZero :=
  jumpLaw_of_execJumpIf .jz (fun _ _ _ => rfl) isZero_iff_toInt_eq_zero

end Sys2Proof.Machine

/-! # Proofs: comparisons (43_compare.md) -/

namespace Sys2Proof.Machine

/-- Settles O15: LT is row 7 and runs as `execRRW aluLess`. -/
theorem ltStoresSignedComparison : Obligations.LtStoresSignedComparison :=
  storingLaw_of_execRRW .lt fun _ _ _ _ => rfl

/-- The model's equality test compares words, the rule's compares integers (R106). -/
theorem aluEqual_eq_ite_toInt : aluEqual = fun x y : Word => if x.toInt = y.toInt then 1 else 0 := by
  funext x y
  simp only [aluEqual, BitVec.toInt_inj]

/-- Settles O16: EQ is row 8 and runs as `execRRW aluEqual`. -/
theorem eqStoresEquality : Obligations.EqStoresEquality := by
  rw [Obligations.EqStoresEquality, ← aluEqual_eq_ite_toInt]
  exact storingLaw_of_execRRW .eq fun _ _ _ _ => rfl

end Sys2Proof.Machine

/-! # Proofs: the relative base and the halt (44_base_and_halt.md) -/

namespace Sys2Proof.Machine

/-! ### ARB (R110): the operand, then `RB` and `PC` -/

section execArb

variable {s : State} {a : Param}

theorem execArb_of_source_error {e : CoreError} (hx : s.source 1 a = .error e) : execArb a s = .next (s.raise e) := by
  simp only [execArb, hx]

theorem execArb_of_ok {x : Word} (hx : s.source 1 a = .ok x) :
    execArb a s = .next ((s.setRb (aluAdd s.core.rb x)).advance 2) := by
  simp only [execArb, hx]

end execArb

theorem State.core_setRb_advance {s : State} (h : s.cur < s.cores.length) (v : Word) (n : Nat) :
    ((s.setRb v).advance n).core = { s.core with pc := s.core.pc + BitVec.ofNat 64 n, rb := v } := by
  rw [core_advance (by simpa using h), core_setRb h]

/-- Settles O22: ARB is row 9; of the core, `RB` and `PC` are all that changes, and no queue is touched. -/
theorem arbAddsToRelativeBase : Obligations.ArbAddsToRelativeBase := by
  refine ⟨Row1.arb.decodes, Row1.arb.encodes, fun s a hs => ⟨fun x hx => ?_, fun e => execArb_of_source_error⟩⟩
  have hcore := State.core_setRb_advance hs.1 (aluAdd s.core.rb x) 2
  have heffect : Effect s (.arb a) ((s.setRb (aluAdd s.core.rb x)).advance 2) := .adjusts _
  exact ⟨_, execArb_of_ok hx, by rw [hcore, aluAdd], by rw [Advanced, hcore], by simp [MemoryKept],
    by simp [StatusKept, hcore], fun _ => rfl, ⟨rfl, rfl⟩, heffect.restKept⟩

/-! ### HLT (R111): the core's two queue ends, and no step after it -/

theorem State.outq_halt {s : State} (h : InPlace s) : s.halt.outq = s.outq.closeProd := by
  change s.halt.queueAt (s.cur + 1) = (s.queueAt (s.cur + 1)).closeProd
  rw [queueAt_halt, queueAt_closePorts, if_neg (fun hcur => Nat.succ_ne_self _ hcur.1), if_pos ⟨rfl, h.2⟩]

theorem State.inq_halt {s : State} (h : InPlace s) : s.halt.inq = s.inq.abandon := by
  change s.halt.queueAt s.cur = (s.queueAt s.cur).abandon
  rw [queueAt_halt, queueAt_closePorts, if_pos ⟨rfl, Nat.lt_of_succ_lt h.2⟩]

/-- A core that has terminated has no step (R15, R75 step 0). -/
theorem not_enabled_of_terminated {s : State} {k : Nat} (h : (s.coreAt k).status ≠ .run) :
    s.enabled (.core k) = false :=
  Bool.eq_false_iff.mpr (mt coreEnabled_running h)

/-- Settles O23: opcode 99 has no parameter to read; of the core, `STATUS` is all that changes, and it ends the core's
steps. -/
theorem hltHaltsAndClosesPorts : Obligations.HltHaltsAndClosesPorts := by
  refine ⟨fun w rest hw hop => decode_cons_of_nonneg hw hop rest, rfl, fun s hs => ?_⟩
  have hcore := State.core_halt hs.1
  have hstatus : s.halt.core.status = .halted := by rw [hcore]
  have heffect : Effect s .hlt s.halt := .halts
  have hstop : s.halt.enabled (.core s.cur) = false :=
    not_enabled_of_terminated (fun hrun => nomatch hstatus.symm.trans hrun)
  exact ⟨_, rfl, hstatus, by rw [hcore], by rw [hcore], State.rb_halt s, by simp [MemoryKept], State.outq_halt hs,
    State.inq_halt hs, fun _ => heffect.queueAt_other, ⟨rfl, rfl⟩, heffect.restKept, hstop⟩

end Sys2Proof.Machine

/-! # Proofs: the network (48_network.md) -/

namespace Sys2Proof.Machine

/-! ### `push` and `pop` (R121, R122) -/

/-- Settles O31: the three outcomes are told apart by the consumer's flag, then by the room. -/
theorem pushOutcomes : Obligations.PushOutcomes := by
  refine fun q v d => ⟨Queue.push_gone_iff.mpr, fun hlive hroom => ?_, fun n hlive hd hfull => ?_⟩
  · refine Queue.push_pushed_iff.mpr ⟨hlive, ?_, rfl⟩
    cases d with
    | none => rfl
    | some n => exact decide_eq_true (hroom n rfl)
  · refine Queue.push_blocked_iff.mpr ⟨hlive, ?_⟩
    rw [hd]
    exact decide_eq_false (Nat.not_lt.mpr hfull)

/-- Settles O32: items first, then the producer's flag. -/
theorem popOutcomes : Obligations.PopOutcomes :=
  fun _ => ⟨fun _ _ hitems => Queue.pop_got_iff.mpr ⟨hitems, rfl, rfl⟩,
    fun hempty hclosed => Queue.pop_endOfStream_iff.mpr ⟨hempty, hclosed⟩,
    fun hempty hopen => Queue.pop_blocked_iff.mpr ⟨hempty, hopen⟩⟩

/-! ### `NET_STATE`, the start, `RESULT` (R131, R132) -/

namespace State

theorem anyFaulted_iff_mem (s : State) : s.anyFaulted = true ↔ ∃ c, c ∈ s.cores ∧ c.status = .faulted := by
  simp [anyFaulted]

theorem allHalted_iff (s : State) : s.allHalted = true ↔ ∀ c, c ∈ s.cores → c.status = .halted := by
  simp [allHalted]

theorem netState_seeded_iff (s : State) : s.netState = .seeded ↔ s.runEn = false := by
  unfold netState
  grind

theorem netState_failed_iff (s : State) : s.netState = .failed ↔ s.runEn = true ∧ s.anyFaulted = true := by
  unfold netState
  grind

/-- A network whose cores have all halted has none that faulted. -/
theorem anyFaulted_of_allHalted {s : State} (h : s.allHalted = true) : s.anyFaulted = false := by
  rw [Bool.eq_false_iff]
  intro hf
  obtain ⟨c, hc, hfaulted⟩ := s.anyFaulted_iff_mem.mp hf
  cases hfaulted.symm.trans (s.allHalted_iff.mp h c hc)

theorem netState_drained_iff (s : State) :
    s.netState = .drained ↔ s.runEn = true ∧ s.allHalted = true ∧ s.fwdDone = true := by
  have := s.anyFaulted_of_allHalted
  unfold netState
  grind

theorem netState_running_iff (s : State) :
    s.netState = .running ↔ s.runEn = true ∧ s.anyFaulted = false ∧ ¬ (s.allHalted = true ∧ s.fwdDone = true) := by
  unfold netState
  grind

end State

/-- Before the start no core has a step (R75 step 0). -/
theorem coreEnabled_started {s : State} {i : Nat} (h : coreEnabled s i = true) : s.runEn = true := by
  obtain ⟨-, hrun, -⟩ := (coreStepEnabledExactly s i).mp h
  exact hrun

/-- A step of the forwarder is one of a started network whose forwarder has not finished (R128, R129). -/
theorem forwarderLive_of_enabled {s : State} (h : s.enabled .forwarder = true) : forwarderLive s = true := by
  rw [State.forwarderEnabled_eq, Bool.and_eq_true] at h
  exact h.1

/-- Settles O35, a state at a time. -/
theorem netStateAndStart : Obligations.NetStateAndStart := by
  intro s
  simp only [← State.anyFaulted_iff_mem, ← State.allHalted_iff]
  refine ⟨s.netState_seeded_iff, s.netState_failed_iff, s.netState_drained_iff, ?_, fun hr => ⟨?_, fun i => ?_⟩,
    fun hr => ?_, fun hr => ?_⟩
  · rw [s.netState_running_iff, State.anyFaulted, List.any_eq_false]
    simp
  · refine Bool.eq_false_iff.mpr fun hf => ?_
    obtain ⟨-, hrun, -⟩ := (forwarderLive_iff s).mp (forwarderLive_of_enabled hf)
    cases hr.symm.trans hrun
  · exact Bool.eq_false_iff.mpr fun hc => nomatch hr.symm.trans (coreEnabled_started hc)
  · simp [hostDo, hostStart, hr]
  · simp [hostDo, hostStart, hr]

/-- Settles O37: `RESULT` is `TAP` under the two tests, and nothing otherwise. -/
theorem resultIsTheTap : Obligations.ResultIsTheTap := by
  intro s v
  rw [State.result, Option.ite_none_right_eq_some]
  simp [and_assoc]

/-! ### The queues after a reset (R126, R127, R138) -/

/-- A queue behind a core has at reset its phase, and `Q[K]` nothing (R126). -/
theorem Boot.getD_phaseQueues (phases : List Word) (i : Nat) :
    (Boot.phaseQueues phases ++ [Queue.fresh]).getD i Queue.fresh =
      { Queue.fresh with items := phases[i]?.toList } := by
  by_cases hi : i < phases.length
  · rw [List.getD_append _ _ _ _ (by simpa [Boot.phaseQueues] using hi)]
    simp [Boot.phaseQueues, hi]
  · rw [List.getD_append_right _ _ _ _ (by simpa [Boot.phaseQueues] using hi), List.getElem?_eq_none (by omega)]
    cases i - (Boot.phaseQueues phases).length <;> rfl

section network

variable {c : Config} {topo : Topology} {phase : List Word} {stim : Word} (hw : c.wiring = .network topo phase stim)
  (tap : Word) (n : Nat) (env : Env)

include hw

theorem State.queueAt_zero_resetOf :
    (State.resetOf c tap n env).queueAt 0 = Boot.firstQueue topo (phase.take 1) stim := by
  simp [State.queueAt, State.resetOf, Boot.queues, hw]

theorem State.queueAt_succ_resetOf (i : Nat) :
    (State.resetOf c tap n env).queueAt (i + 1) = { Queue.fresh with items := phase[i + 1]?.toList } := by
  have h := Boot.getD_phaseQueues (phase.drop 1) i
  rw [List.getElem?_drop, Nat.add_comm 1 i] at h
  rw [← h]
  simp [State.queueAt, State.resetOf, Boot.queues, hw]

end network

/-- Settles O40: `Q[0]` and the queues behind the cores, read off the list. -/
theorem resetSeedsTheQueues : Obligations.ResetSeedsTheQueues := by
  constructor
  · intro c tap n env topo phase stim hc hw s
    obtain ⟨hk, -, -, -, -, hwiring⟩ := c.valid_iff.mp hc
    have hphase : phase.length = c.k := by simpa [Config.wiringValid, hw] using hwiring
    have hfirst : s.queueAt 0 = _ := State.queueAt_zero_resetOf hw tap n env
    have hrest : ∀ j, 1 ≤ j → s.queueAt j = { Queue.fresh with items := phase[j]?.toList } := by
      rintro (_ | i) hj
      · cases hj
      · exact State.queueAt_succ_resetOf hw tap n env i
    refine ⟨fun p hp => ?_, fun i p hi _ hp => ?_, ?_, ?_, fun j hj _ => ?_, fun j _ => ?_⟩
    · obtain ⟨rest, rfl⟩ : ∃ rest, phase = p :: rest := by
        cases phase with
        | nil => cases hp
        | cons q rest => exact ⟨rest, by simpa using hp⟩
      rw [hfirst]
      rfl
    · rw [hrest i hi, hp]
      rfl
    · rw [hrest c.k hk, List.getElem?_eq_none (Nat.le_of_eq hphase)]
      rfl
    · rw [hfirst]
      exact decide_eq_true_iff
    · rw [hrest j hj]
      rfl
    · cases j with
      | zero => rw [hfirst]; rfl
      | succ j => rw [hrest _ (Nat.le_add_left 1 j)]; rfl
  · intro c tap n env inq closed hw s
    have hqueues : s.queues = [{ items := inq, prodClosed := closed, consGone := false }, Queue.fresh] := by
      simp [s, State.resetOf, Boot.queues, hw]
    simp [State.queueAt, hqueues, Queue.fresh]

/-! ### What the host may do to a queue (R138, R139, U17, log 10) -/

section hostFeed

variable {s : State} {v : Word} (hs : s.cfg.isStandalone = true) (hopen : (s.queueAt 0).prodClosed = false)

include hs hopen

theorem hostFeed_of_pushed {q : Queue} (hq : (s.queueAt 0).push s.cfg.qdepth v = .pushed q) :
    hostFeed v s = .done (s.setQueue 0 q) := by
  simp [hostFeed, hs, hopen, hq]

theorem hostFeed_of_gone (hq : (s.queueAt 0).push s.cfg.qdepth v = .gone) : hostFeed v s = .done s := by
  simp [hostFeed, hs, hopen, hq]

theorem hostFeed_of_blocked (hq : (s.queueAt 0).push s.cfg.qdepth v = .blocked) : hostFeed v s = .waits := by
  simp [hostFeed, hs, hopen, hq]

theorem hostCloseInput_of_open : hostCloseInput s = .done (s.setQueue 0 (s.queueAt 0).closeProd) := by
  simp [hostCloseInput, hs, hopen]

end hostFeed

section hostDrain

variable {s : State} (hs : s.cfg.isStandalone = true) (hlive : (s.queueAt 1).consGone = false)

include hs hlive

theorem hostDrain_of_got {x : Word} {q : Queue} (hq : (s.queueAt 1).pop = .got x q) :
    hostDrain s = .done { s.setQueue 1 q with env := { s.env with hostGot := s.env.hostGot ++ [x] } } := by
  simp [hostDrain, hs, hlive, hq]

theorem hostDrain_of_endOfStream (hq : (s.queueAt 1).pop = .endOfStream) : hostDrain s = .done s := by
  simp [hostDrain, hs, hlive, hq]

theorem hostDrain_of_blocked (hq : (s.queueAt 1).pop = .blocked) : hostDrain s = .waits := by
  simp [hostDrain, hs, hlive, hq]

theorem hostAbandonOutput_of_live : hostAbandonOutput s = .done (s.setQueue 1 (s.queueAt 1).abandon) := by
  simp [hostAbandonOutput, hs, hlive]

end hostDrain

/-- Settles O59, by the action and then the outcome of its queue operation. -/
theorem hostKeepsToItsContract : Obligations.HostKeepsToItsContract := by
  intro s v
  obtain ⟨hpushGone, hpushed, hpushBlocked⟩ := pushOutcomes (s.queueAt 0) v s.cfg.qdepth
  obtain ⟨hgot, hended, hpopBlocked⟩ := popOutcomes (s.queueAt 1)
  refine ⟨fun hnet => ?_, fun hs => ⟨fun hclosed => ?_, fun hopen => ?_, fun hgone => ?_, fun hlive => ?_⟩⟩
  · simp [hostDo, hostFeed, hostCloseInput, hostDrain, hostAbandonOutput, hnet]
  · simp [hostDo, hostFeed, hostCloseInput, hclosed]
  · exact ⟨hostCloseInput_of_open hs hopen,
      fun hgone => hostFeed_of_gone hs hopen (hpushGone hgone),
      fun hlive hroom => hostFeed_of_pushed hs hopen (hpushed hlive hroom),
      fun n hlive hn hfull => hostFeed_of_blocked hs hopen (hpushBlocked n hlive hn hfull)⟩
  · simp [hostDo, hostDrain, hostAbandonOutput, hgone]
  · exact ⟨hostAbandonOutput_of_live hs hlive,
      fun x rest hitems => hostDrain_of_got hs hlive (hgot x rest hitems),
      fun hempty hopen => hostDrain_of_blocked hs hlive (hpopBlocked hempty hopen),
      fun hempty hclosed => hostDrain_of_endOfStream hs hlive (hended hempty hclosed)⟩

/-! ### The forwarder (R128, R129): one equation for each outcome of the `pop` of `Q[K]` -/

theorem forwarderStep_of_got {s : State} {v : Word} {q : Queue} (hq : (s.queueAt s.cfg.k).pop = .got v q) :
    forwarderStep s = if forwarderLive s = true ∧ forwarderMayPass s = true then some (transfer s v q) else none := by
  change (s.queueAt s.lastQueue).pop = _ at hq
  rw [forwarderStep, hq]
  split <;> simp_all

theorem forwarderStep_of_endOfStream {s : State} (hq : (s.queueAt s.cfg.k).pop = .endOfStream) :
    forwarderStep s = if forwarderLive s = true then some (forwarderFinish s) else none := by
  change (s.queueAt s.lastQueue).pop = _ at hq
  rw [forwarderStep, hq]

theorem forwarderStep_of_blocked {s : State} (hq : (s.queueAt s.cfg.k).pop = .blocked) : forwarderStep s = none := by
  change (s.queueAt s.lastQueue).pop = _ at hq
  rw [forwarderStep, hq]
  exact ite_self none

/-- A forwarder that is not live has no step. -/
theorem forwarderStep_of_not_live {s : State} (h : ¬ forwarderLive s = true) : forwarderStep s = none := if_neg h

theorem forwarderMayPass_iff (s : State) :
    forwarderMayPass s = true ↔
      s.cfg.isFeedback = false ∨ (s.queueAt 0).consGone = true ∨ Room s (s.queueAt 0) := by
  simp [forwarderMayPass, hasRoom_iff_room, or_assoc]

/-! Delivery into `Q[0]` (R128). -/

theorem deliver_of_pushed {s : State} {v : Word} {q : Queue} (hf : s.cfg.isFeedback = true)
    (hq : (s.queueAt 0).push s.cfg.qdepth v = .pushed q) : deliver s v = s.setQueue 0 q := by
  rw [deliver, if_pos hf, hq]

theorem deliver_of_dropped {s : State} (v : Word)
    (h : s.cfg.isFeedback = false ∨ (s.queueAt 0).consGone = true) : deliver s v = s := by
  obtain hf | hgone := h
  · rw [deliver, if_neg (by simp [hf])]
  · rw [deliver, Queue.push_gone_iff.mpr hgone]
    exact ite_self s

/-! The queues after a transfer: `Q[K]` lost its head, `Q[0]` is what delivery makes of it. -/

section transfer

variable {s : State} {q : Queue} (h : s.Inv) (v : Word)

include h

theorem queueAt_transfer_last : (transfer s v q).queueAt s.cfg.k = q := by
  have hk : s.cfg.k ≠ 0 := Nat.ne_of_gt h.k_pos
  have hlen : s.cfg.k < s.queues.length := by rw [h.queueCount]; exact Nat.lt_succ_self _
  exact (queueAt_deliver v (.inr hk)).trans (State.queueAt_setQueue_same hlen q)

theorem queueAt_transfer_zero_of_dropped (hd : s.cfg.isFeedback = false ∨ (s.queueAt 0).consGone = true) :
    (transfer s v q).queueAt 0 = s.queueAt 0 := by
  have hk : (0 : Nat) ≠ s.lastQueue := Nat.ne_of_lt h.k_pos
  have hkept : (s.setQueue s.lastQueue q).queueAt 0 = s.queueAt 0 := State.queueAt_setQueue_other hk q
  rw [transfer, deliver_of_dropped]
  · exact hkept
  · exact hd.imp_right fun hgone => (congrArg Queue.consGone hkept).trans hgone

theorem queueAt_transfer_zero_of_pushed {q' : Queue} (hf : s.cfg.isFeedback = true)
    (hq : (s.queueAt 0).push s.cfg.qdepth v = .pushed q') : (transfer s v q).queueAt 0 = q' := by
  have hk : (0 : Nat) ≠ s.lastQueue := Nat.ne_of_lt h.k_pos
  have hlen : 0 < s.queues.length := by rw [h.queueCount]; exact Nat.succ_pos _
  rw [← State.queueAt_setQueue_other hk q] at hq
  rw [transfer, deliver_of_pushed (s := { s.setQueue s.lastQueue q with tap := v, tapValid := true }) hf hq]
  exact State.queueAt_setQueue_same (by simpa using hlen) q'

end transfer

/-- A transfer sets the tap and the queues, and nothing else. -/
theorem transfer_eq (s : State) (v : Word) (q : Queue) :
    transfer s v q = { s with queues := (transfer s v q).queues, tap := v, tapValid := true } := by
  rw [transfer, deliver_eq]
  rfl

/-- Settles O33: the guard is that the forwarder is live and may pass, and the value goes where delivery puts it. -/
theorem forwarderTransfers : Obligations.ForwarderTransfers := by
  intro s v rest h hnet hitems
  have hpop : (s.queueAt s.cfg.k).pop = .got v { s.queueAt s.cfg.k with items := rest } :=
    Queue.pop_got_iff.mpr ⟨hitems, rfl, rfl⟩
  have hguard : (forwarderLive s = true ∧ forwarderMayPass s = true) ↔
      (s.runEn = true ∧ s.fwdDone = false
        ∧ (s.cfg.isFeedback = false ∨ (s.queueAt 0).consGone = true ∨ Room s (s.queueAt 0))) := by
    simp [forwarderLive_iff, forwarderMayPass_iff, hnet, and_assoc]
  rw [← hguard, forwarderStep_of_got hpop]
  refine ⟨fun hg => ⟨_, if_pos hg, ?_⟩, fun hg => if_neg hg⟩
  obtain ⟨-, hpass⟩ := hg
  obtain ⟨hother, -, -, -⟩ := transfer_queuesOnly h.k_pos hpop
  have hpushed : s.cfg.isFeedback = true → (s.queueAt 0).consGone = false →
      (s.queueAt 0).push s.cfg.qdepth v = .pushed { s.queueAt 0 with items := (s.queueAt 0).items ++ [v] } := by
    intro hf hlive
    have hroom : (s.queueAt 0).hasRoom s.cfg.qdepth = true := by simpa [forwarderMayPass, hf, hlive] using hpass
    exact Queue.push_pushed_iff.mpr ⟨hlive, hroom, rfl⟩
  refine ⟨by rw [transfer_eq], by rw [transfer_eq], queueAt_transfer_last h v,
    fun hf hlive => queueAt_transfer_zero_of_pushed h v hf (hpushed hf hlive),
    queueAt_transfer_zero_of_dropped h v, hother, ?_⟩
  rw [transfer_eq]
  exact ⟨rfl, rfl, rfl, rfl, rfl, rfl⟩

/-- Settles O34: `Q[K]` is empty, so its `pop` is the end of the stream exactly if it is closed. -/
theorem forwarderFinishes : Obligations.ForwarderFinishes := by
  intro s h hnet hempty
  have hk : (0 : Nat) ≠ s.cfg.k := Nat.ne_of_lt h.k_pos
  have hqueue := queueAt_forwarderFinish h
  cases hclosed : (s.queueAt s.cfg.k).prodClosed with
  | false =>
    rw [forwarderStep_of_blocked (Queue.pop_blocked_iff.mpr ⟨hempty, hclosed⟩)]
    simp
  | true =>
    have hlive : forwarderLive s = true ↔ (s.runEn = true ∧ s.fwdDone = false ∧ true = true) := by
      simp [forwarderLive_iff, hnet]
    rw [← hlive, forwarderStep_of_endOfStream (Queue.pop_endOfStream_iff.mpr ⟨hempty, hclosed⟩)]
    refine ⟨fun hl => ⟨_, if_pos hl, ?_, ?_, fun hf => ?_, fun hf => ?_, fun j h0 hj => ?_, ?_⟩, fun hl => if_neg hl⟩
    · rw [forwarderFinish_eq]
    · rw [hqueue, if_pos rfl, Queue.abandon]
    · rw [hqueue, if_neg hk, if_pos ⟨rfl, hf⟩, Queue.closeProd]
    · rw [hqueue, if_neg hk, if_neg (by simp [hf])]
    · rw [hqueue, if_neg hj, if_neg (fun hc => h0 hc.1)]
    · have hstop : forwarderStep (forwarderFinish s) = none := forwarderStep_of_not_live (by
        rw [forwarderFinish_eq, forwarderLive_iff]
        simp)
      rw [forwarderFinish_eq] at hstop ⊢
      exact ⟨rfl, rfl, rfl, rfl, rfl, ⟨rfl, rfl⟩, hstop⟩

/-! ### Turns (R134, log 4, log 8) -/

theorem step_of_not_enabled {s : State} (h : s.enabled s.nextAgent = false) :
    step s = if s.anyEnabled = true then .next s.passTurn else .fault .stuck := by
  rw [step, takeTurn, if_neg (by simp [h])]

/-- No agent has a step: what `anyEnabled` computes, said of every agent. -/
theorem anyEnabled_eq_false_iff_forall (s : State) : s.anyEnabled = false ↔ ∀ a, s.enabled a = false := by
  rw [State.anyEnabled_false_iff, State.quiet_iff]
  constructor
  · rintro ⟨⟨hforwarder, hcores⟩, hhost⟩ (i | _ | _)
    · exact hcores i
    · exact hforwarder
    · exact hhost
  · intro h
    exact ⟨⟨h .forwarder, fun i => h (.core i)⟩, h .host⟩

theorem step_stuck_iff (s : State) : step s = .fault .stuck ↔ ∀ a, s.enabled a = false := by
  rw [← anyEnabled_eq_false_iff_forall]
  refine ⟨fun h => Bool.eq_false_iff.mpr fun ha => step_ne_stuck ha h, fun h => ?_⟩
  rw [step_of_not_enabled ((anyEnabled_eq_false_iff_forall s).mp h _), if_neg (by simp [h])]

/-- Neither a core nor the forwarder refuses its step. -/
theorem nextAgent_eq_host_of_refused {s : State} {r : Refusal} (h : step s = .refused r) : s.nextAgent = .host := by
  cases he : s.enabled s.nextAgent with
  | false => exact absurd h (step_ne_refused he r)
  | true =>
    rw [step_of_enabled he] at h
    cases ha : s.nextAgent with
    | core k =>
      obtain ⟨t, ht⟩ := coreStep_answers (s.passTurn.atCore k)
      rw [ha, agentStep, ht] at h
      cases h
    | forwarder =>
      rw [ha, agentStep] at h
      split at h <;> cases h
    | host => rfl

/-- Settles O46: only the turn of an agent that is not enabled passes, and only the host's own action is refused. -/
theorem turnsPassAndStuckExactly : Obligations.TurnsPassAndStuckExactly :=
  fun s => ⟨fun he ha => by rw [step_of_not_enabled he, if_pos ha], step_stuck_iff s,
    fun _ => nextAgent_eq_host_of_refused⟩

/-! ### What a step that is no reset does to each queue (R121 to R124) -/

/-- What one step may do to one queue: nothing, or one operation at one of its ends. -/
inductive Queue.Moves (q : Queue) : Queue → Prop where
  | kept : q.Moves q
  | pushed (v : Word) : q.Moves { q with items := q.items ++ [v] }
  | popped {v : Word} {q' : Queue} (h : q.pop = .got v q') : q.Moves q'
  | closed : q.Moves q.closeProd
  | abandoned : q.Moves q.abandon

theorem Queue.moves_of_push {d : Option Nat} {q q' : Queue} {v : Word} (h : q.push d v = .pushed q') : q.Moves q' := by
  obtain ⟨-, -, rfl⟩ := Queue.push_pushed_iff.mp h
  exact .pushed v

/-- The items after a move: as before, one more at the tail, or one less at the head (R124). -/
theorem Queue.Moves.items {q q' : Queue} (h : q.Moves q') :
    q'.items = q.items ∨ (∃ v, q'.items = q.items ++ [v]) ∨ (∃ v, q.items = v :: q'.items) := by
  cases h with
  | kept | closed | abandoned => exact .inl rfl
  | pushed v => exact .inr (.inl ⟨v, rfl⟩)
  | @popped v q' hq =>
    obtain ⟨hitems, -, -⟩ := Queue.pop_got_iff.mp hq
    exact .inr (.inr ⟨v, hitems⟩)

/-- No move clears a flag (R123). -/
theorem Queue.Moves.flags {q q' : Queue} (h : q.Moves q') :
    (q.prodClosed = true → q'.prodClosed = true) ∧ (q.consGone = true → q'.consGone = true) := by
  cases h with
  | kept | pushed _ => exact ⟨id, id⟩
  | closed => exact ⟨fun _ => rfl, id⟩
  | abandoned => exact ⟨id, fun _ => rfl⟩
  | popped hq =>
    obtain ⟨-, hp, hg⟩ := Queue.pop_got_iff.mp hq
    exact ⟨hp.trans, hg.trans⟩

/-- Every queue of `t` is a move from that of `s`. -/
def QueuesMove (s t : State) : Prop := ∀ j, (s.queueAt j).Moves (t.queueAt j)

theorem QueuesMove.of_queues_eq {s t : State} (h : t.queues = s.queues) : QueuesMove s t := fun j => by
  rw [State.queueAt_congr h j]
  exact .kept

theorem QueuesMove.setQueue {s : State} {j : Nat} {q : Queue} (h : (s.queueAt j).Moves q) :
    QueuesMove s (s.setQueue j q) := by
  intro i
  rw [State.queueAt_setQueue]
  split
  next hi => exact hi.1 ▸ h
  next => exact .kept

theorem QueuesMove.closePorts (s : State) : QueuesMove s s.closePorts := by
  intro j
  rw [State.queueAt_closePorts]
  split
  · exact .abandoned
  · split
    · exact .closed
    · exact .kept

theorem Effect.queuesMove {s t : State} {i : Instr} (h : Effect s i t) : QueuesMove s t := by
  cases h with
  | raises e => exact fun j => State.queueAt_raise s e j ▸ QueuesMove.closePorts s j
  | halts => exact fun j => State.queueAt_halt s j ▸ QueuesMove.closePorts s j
  | takes v q a hq ha => exact QueuesMove.setQueue (.popped hq)
  | sends v q hq => exact QueuesMove.setQueue (Queue.moves_of_push hq)
  | waits | stores | jumps | falls | adjusts => exact QueuesMove.of_queues_eq rfl

theorem transfer_queuesMove {s : State} {v : Word} {q : Queue} (h : s.Inv)
    (hq : (s.queueAt s.lastQueue).pop = .got v q) : QueuesMove s (transfer s v q) := by
  intro j
  have hpopped : QueuesMove s (s.setQueue s.lastQueue q) := QueuesMove.setQueue (.popped hq)
  have hdelivered : QueuesMove { s.setQueue s.lastQueue q with tap := v, tapValid := true } (transfer s v q) := by
    unfold transfer
    obtain hsame | ⟨-, -, -, hpush⟩ := deliver_cases { s.setQueue s.lastQueue q with tap := v, tapValid := true } v
    · exact QueuesMove.of_queues_eq (by rw [hsame])
    · rw [hpush]
      exact QueuesMove.setQueue (.pushed v)
  by_cases hj : j = 0
  · have hkept : (s.setQueue s.lastQueue q).queueAt j = s.queueAt j :=
      State.queueAt_setQueue_other (hj ▸ Nat.ne_of_lt h.k_pos) q
    exact hkept ▸ hdelivered j
  · have hkept : (transfer s v q).queueAt j = (s.setQueue s.lastQueue q).queueAt j := queueAt_deliver v (.inr hj)
    exact hkept ▸ hpopped j

theorem forwarderFinish_queuesMove {s : State} (h : s.Inv) : QueuesMove s (forwarderFinish s) := by
  intro j
  rw [queueAt_forwarderFinish h]
  split
  · exact .abandoned
  · split
    · exact .closed
    · exact .kept

theorem forwarderStep_queuesMove {s t : State} (h : s.Inv) (ht : forwarderStep s = some t) : QueuesMove s t := by
  obtain ⟨-, ⟨v, q, hq, -, rfl⟩ | ⟨-, rfl⟩⟩ := forwarderStep_some ht
  · exact transfer_queuesMove h hq
  · exact forwarderFinish_queuesMove h

theorem hostDo_queuesMove {a : HostAct} {s t : State} (ha : ∀ c tap n, a ≠ .reset c tap n)
    (ht : hostDo a s = .done t) : QueuesMove s t := by
  obtain ⟨c, tap, n, hr, -, -⟩ | ⟨-, -, rfl⟩ | ⟨-, hio⟩ := hostDo_done ht
  · exact absurd hr (ha c tap n)
  · exact QueuesMove.of_queues_eq rfl
  · obtain rfl | ⟨v, q, -, -, hq, rfl⟩ | ⟨-, -, rfl⟩ | ⟨v, q, -, hq, rfl⟩ | ⟨-, -, rfl⟩ := hio
    · exact QueuesMove.of_queues_eq rfl
    · exact QueuesMove.setQueue (Queue.moves_of_push hq)
    · exact QueuesMove.setQueue .closed
    · exact QueuesMove.setQueue (.popped hq)
    · exact QueuesMove.setQueue .abandoned

/-- A step that is no reset moves each queue, by the agent whose turn it is. -/
theorem step_queuesMove {s t : State} (h : s.Inv) (hn : NotReset s) (ht : step s = .next t) : QueuesMove s t := by
  have hpass : QueuesMove s s.passTurn := QueuesMove.of_queues_eq (State.passTurn_queues s)
  cases ha : s.nextAgent with
  | core k =>
    obtain rfl | ⟨-, i, he⟩ := step_core ha ht
    · exact hpass
    · simpa [QueuesMove] using he.queuesMove
  | forwarder =>
    obtain rfl | hf := step_forwarder ha ht
    · exact hpass
    · simpa [QueuesMove] using forwarderStep_queuesMove h.passTurn hf
  | host =>
    obtain rfl | ⟨a, hr, hd⟩ := step_host hn ha ht
    · exact hpass
    · simpa [QueuesMove] using hostDo_queuesMove hr hd

/-- Settles O56: a step moves each queue, and a move is one operation at one end. -/
theorem queuesAreFirstInFirstOut : Obligations.QueuesAreFirstInFirstOut :=
  fun _ _ j h hn ht => (step_queuesMove h hn ht j).items

/-- Settles O57: a step moves each queue, and no move clears a flag. -/
theorem queueFlagsAreNeverCleared : Obligations.QueueFlagsAreNeverCleared :=
  fun _ _ j h hn ht => (step_queuesMove h hn ht j).flags

/-! ### The arbiter's bits are set for good (R131, R133, R137) -/

/-- `RUN_EN` is cleared by no step but a reset. -/
theorem step_runEn {s t : State} (hn : NotReset s) (ht : step s = .next t) (hr : s.runEn = true) : t.runEn = true := by
  cases ha : s.nextAgent with
  | core k =>
    obtain ⟨-, -, -, -, -, -, -, hrun, -⟩ := step_coreOwns ha ht
    exact hrun.trans hr
  | forwarder =>
    obtain ⟨-, hrun, -, -⟩ := step_forwarderKeeps ha ht
    exact hrun.trans hr
  | host =>
    obtain rfl | ⟨a, hreset, hd⟩ := step_host hn ha ht
    · simpa using hr
    · obtain ⟨c, tap, n, hc, -, -⟩ | ⟨-, -, rfl⟩ | ⟨-, hio⟩ := hostDo_done hd
      · exact absurd hc (hreset c tap n)
      · rfl
      · obtain rfl | ⟨v, q, -, -, -, rfl⟩ | ⟨-, -, rfl⟩ | ⟨v, q, -, -, rfl⟩ | ⟨-, -, rfl⟩ := hio <;> simpa using hr

/-- A forwarder that has finished takes no step, and no other agent's step clears `FWD_DONE` but a reset. -/
theorem step_fwdDone {s t : State} (hn : NotReset s) (ht : step s = .next t) (hd : s.fwdDone = true) :
    t.fwdDone = true := by
  cases ha : s.nextAgent with
  | core k =>
    obtain ⟨-, -, -, -, -, -, hdone, -, -⟩ := step_coreOwns ha ht
    exact hdone.trans hd
  | forwarder =>
    obtain rfl | hf := step_forwarder ha ht
    · simpa using hd
    · obtain ⟨hl, -⟩ := forwarderStep_some hf
      obtain ⟨-, -, hdone⟩ := (forwarderLive_iff _).mp hl
      cases hdone.symm.trans ((State.passTurn_fwdDone s).trans hd)
  | host =>
    obtain ⟨-, -, -, -, -, hdone, -⟩ := step_hostOwns hn ha ht
    exact hdone.trans hd

/-- Under the invariant the cores in the list are those below `K`. -/
theorem State.Inv.forall_mem_cores {s : State} (h : s.Inv) (P : CoreState → Prop) :
    (∀ c, c ∈ s.cores → P c) ↔ ∀ i, i < s.cfg.k → P (s.coreAt i) := by
  rw [← h.coreCount, List.forall_mem_iff_forall_getElem]
  refine forall_congr' fun i => forall_congr' fun hi => ?_
  rw [State.coreAt, List.getD_eq_getElem _ _ hi]

theorem State.Inv.anyFaulted_iff {s : State} (h : s.Inv) :
    s.anyFaulted = true ↔ ∃ i, i < s.cfg.k ∧ (s.coreAt i).status = .faulted := by
  rw [State.anyFaulted_iff, h.coreCount]

theorem State.Inv.allHalted_iff {s : State} (h : s.Inv) :
    s.allHalted = true ↔ ∀ i, i < s.cfg.k → (s.coreAt i).status = .halted := by
  rw [State.allHalted_iff, h.forall_mem_cores (·.status = .halted)]

/-- Settles O36: a terminated core stays as it is, and `RUN_EN` and `FWD_DONE` stay set. -/
theorem failedAndDrainedAreAbsorbing : Obligations.FailedAndDrainedAreAbsorbing := by
  intro s t h hn ht
  have hinv : t.Inv := everyStepKeepsTheInvariant s t h ht
  have hcfg : t.cfg = s.cfg := onlyResetChangesTheConfiguration.1 s t hn ht
  have hkept := fun i => terminatedCoresNeverChange s t i h hn ht
  rw [State.netState_failed_iff, State.netState_failed_iff, State.netState_drained_iff, State.netState_drained_iff,
    h.anyFaulted_iff, hinv.anyFaulted_iff, h.allHalted_iff, hinv.allHalted_iff, hcfg]
  constructor
  · rintro ⟨hrun, i, hi, hf⟩
    exact ⟨step_runEn hn ht hrun, i, hi, by rw [hkept i hi (by simp [hf]), hf]⟩
  · rintro ⟨hrun, hhalted, hdone⟩
    exact ⟨step_runEn hn ht hrun, fun i hi => by rw [hkept i hi (by simp [hhalted i hi]), hhalted i hi],
      step_fwdDone hn ht hdone⟩

/-! ### The failure latch (R133) -/

/-- Of what an instruction of a running core can do, only an error makes the core `FAULTED` or touches the latch. -/
theorem Effect.raises_or_failKept {s t : State} {i : Instr} (h : Effect s i t) (hc : s.cur < s.cores.length)
    (hr : s.core.status = .run) : (∃ e, t = s.raise e) ∨ (t.core.status ≠ .faulted ∧ FailKept s t) := by
  cases h with
  | raises e => exact .inl ⟨e, rfl⟩
  | halts => exact .inr ⟨by simp [State.core_halt hc], rfl, rfl⟩
  | waits | stores | takes | sends | jumps | falls | adjusts => exact .inr ⟨by simp [hr], rfl, rfl⟩

theorem State.failKept_raise {s : State} (h : s.firstFailValid = true) (e : CoreError) : FailKept s (s.raise e) :=
  ⟨by simp [h], by simp [raise_firstFailId, h]⟩

/-- A core's turn: it latches itself by an error, or leaves the latch and does not become `FAULTED`. -/
theorem step_core_latch {s t : State} {k : Nat} (h : s.Inv) (ha : s.nextAgent = .core k) (ht : step s = .next t) :
    (∃ e, t = (s.passTurn.atCore k).raise e) ∨ (FailKept s t ∧ ((t.coreAt k).status = .faulted →
      (s.coreAt k).status = .faulted)) := by
  obtain rfl | ⟨he, i, heff⟩ := step_core ha ht
  · exact .inr (by simp [FailKept])
  · have hs := stepping_of_coreEnabled h he
    obtain ⟨-, -, -, -, -, hcur, -⟩ := heff.keeps_arbiter
    have hcore : t.core = t.coreAt k := congrArg t.coreAt hcur
    obtain hraise | ⟨hstatus, hfail⟩ := heff.raises_or_failKept ((h.passTurn.atCore k).curLtCores hs) hs.running
    · exact .inl hraise
    · rw [hcore] at hstatus
      exact .inr ⟨by simpa [FailKept] using hfail, fun hf => absurd hf hstatus⟩

/-- The latch keeps what it holds (R133). -/
theorem step_failKept {s t : State} (h : s.Inv) (hn : NotReset s) (ht : step s = .next t)
    (hv : s.firstFailValid = true) : FailKept s t := by
  cases ha : s.nextAgent with
  | core k =>
    obtain ⟨e, rfl⟩ | ⟨hfail, -⟩ := step_core_latch h ha ht
    · simpa [FailKept] using State.failKept_raise (s := s.passTurn.atCore k) (by simpa using hv) e
    · exact hfail
  | forwarder =>
    obtain ⟨-, -, hfail, -⟩ := step_forwarderKeeps ha ht
    exact hfail
  | host =>
    obtain ⟨-, -, -, -, -, -, hfail, -⟩ := step_hostOwns hn ha ht
    exact hfail

/-- Settles O38: only its own error makes a core `FAULTED`, and under the invariant a set latch means a faulted core. -/
theorem firstFailureIsLatched : Obligations.FirstFailureIsLatched := by
  intro s t h hn ht
  refine ⟨step_failKept h hn ht, fun hv k hk hbefore hafter => ?_, fun _ hnone => ?_⟩
  · have ha : s.nextAgent = .core k := by
      by_contra ha
      exact hbefore (step_coreAt_other hn ht ha ▸ hafter)
    obtain ⟨e, rfl⟩ | ⟨-, hfault⟩ := step_core_latch h ha ht
    · simp [State.raise_firstFailId, hv]
    · exact absurd (hfault hafter) hbefore
  · have hinv : t.Inv := everyStepKeepsTheInvariant s t h ht
    rw [hinv.failValid, Bool.eq_false_iff, ne_eq, hinv.anyFaulted_iff, onlyResetChangesTheConfiguration.1 s t hn ht]
    rintro ⟨i, hi, hf⟩
    exact hnone i hi hf

/-! ### Deadlock (R137, log 9, log 13) -/

/-- What a deadlock is, its parts named. -/
theorem State.deadlocked_iff (s : State) :
    s.deadlocked = true ↔ s.cfg.isStandalone = false ∧ s.runEn = true ∧ s.quiet = true ∧ s.netState ≠ .drained
      ∧ s.failedEnd = false := by
  simp [deadlocked, and_assoc]

/-- A started network leaves the host nothing to do but a reset: its other actions are refused (R139). -/
theorem hostDo_not_done {a : HostAct} {s : State} (hnet : s.cfg.isStandalone = false) (hr : s.runEn = true)
    (ha : ∀ c tap n, a ≠ .reset c tap n) (t : State) : hostDo a s ≠ .done t := by
  intro ht
  obtain ⟨c, tap, n, hreset, -, -⟩ | ⟨-, hstart, -⟩ | ⟨hs, -⟩ := hostDo_done ht
  · exact ha c tap n hreset
  · cases hr.symm.trans hstart
  · cases hnet.symm.trans hs

/-- In a started network with no step for a core or the forwarder, all that is left is turns that pass, and a reset. -/
theorem step_eq_passTurn_of_quiet {s t : State} (hnet : s.cfg.isStandalone = false) (hr : s.runEn = true)
    (hq : s.quiet = true) (hn : NotReset s) (ht : step s = .next t) : t = s.passTurn := by
  obtain ⟨hforwarder, hcores⟩ := s.quiet_iff.mp hq
  cases ha : s.nextAgent with
  | core k =>
    refine (step_core ha ht).resolve_right fun hstep => ?_
    cases (hcores k).symm.trans hstep.1
  | forwarder =>
    refine (step_forwarder ha ht).resolve_right fun hf => ?_
    rw [← State.forwarderEnabled_passTurn, State.enabled, hf] at hforwarder
    cases hforwarder
  | host =>
    refine (step_host hn ha ht).resolve_right fun ⟨a, hreset, hd⟩ => ?_
    exact hostDo_not_done (by simpa using hnet) (by simpa using hr) hreset t hd

/-- Settles O47: a deadlock is quiet, so nothing but turns that pass and a reset can follow it. -/
theorem deadlockExactly : Obligations.DeadlockExactly := by
  refine ⟨fun s => ?_, fun s hd hacts => ?_, fun s t hd hn ht => ?_⟩
  · rw [s.deadlocked_iff, s.quiet_iff, ← s.failedEnd_iff, Bool.not_eq_true, and_assoc]
  · obtain ⟨-, -, hq, -, -⟩ := s.deadlocked_iff.mp hd
    have hhost : s.enabled .host = false := by simp [State.enabled, hostStep, hacts, HostResult.acts]
    rw [step_stuck_iff, ← anyEnabled_eq_false_iff_forall, State.anyEnabled_false_iff]
    exact ⟨hq, hhost⟩
  · obtain ⟨hnet, hr, hq, -, -⟩ := s.deadlocked_iff.mp hd
    rw [step_eq_passTurn_of_quiet hnet hr hq hn ht, State.deadlocked_passTurn]
    exact hd

/-! ### What a deadlock waits for (R121, R122, R128 to R130, R137)

In a quiet network every running core waits at its own queues, so a full live queue in front of a core has a full live
queue behind it, and so on round the ring. A terminated core breaks that chain. -/

/-- `Q[j]` is full and its consumer is there: a push into it blocks (R121). -/
def Backed (s : State) (j : Nat) : Prop := (s.queueAt j).consGone = false ∧ (s.queueAt j).hasRoom s.cfg.qdepth = false

/-- A full queue is not empty: `QDEPTH ≥ 2` (R6). -/
theorem Backed.items_ne_nil {s : State} {j : Nat} (h : s.Inv) (hb : Backed s j) : (s.queueAt j).items ≠ [] := by
  intro hempty
  obtain ⟨-, -, -, hdepth, -, -⟩ := s.cfg.valid_iff.mp h.cfgValid
  obtain ⟨-, hroom⟩ := hb
  cases hd : s.cfg.qdepth with
  | none => simp [Queue.hasRoom, hd] at hroom
  | some d =>
    have := hdepth d hd
    simp [Queue.hasRoom, hd, hempty] at hroom
    omega

/-- A started network in which no core and no forwarder has a step. -/
structure Quiet (s : State) : Prop where
  inv : s.Inv
  network : s.cfg.isStandalone = false
  started : s.runEn = true
  noForwarder : s.enabled .forwarder = false
  noCore : ∀ i, s.enabled (.core i) = false

namespace Quiet

variable {s : State} {i j : Nat}

/-- A running core waits: at IN for an empty open `INQ`, or at OUT for a full live `OUTQ` (R95, R96). -/
theorem waits_of_running (h : Quiet s) (hi : i < s.cfg.k) (hr : (s.coreAt i).status = .run) :
    ((s.queueAt i).items = [] ∧ (s.queueAt i).prodClosed = false) ∨ Backed s (i + 1) := by
  by_contra hgo
  rw [Backed, not_or, not_and_or, not_and_or, Bool.not_eq_false, Bool.not_eq_false, Bool.not_eq_false,
    hasRoom_iff_room] at hgo
  obtain ⟨hinput, houtput⟩ := hgo
  have henabled : s.enabled (.core i) = true := (coreStepEnabledExactly s i).mpr
    ⟨h.inv.coreCount ▸ hi, h.started, hr, fun _ _ => ⟨fun _ _ _ _ => hinput, fun _ _ _ _ => houtput⟩⟩
  cases (h.noCore i).symm.trans henabled

/-- A forwarder that has not finished waits: for an empty open `Q[K]`, or for a full live `Q[0]` (R128, R129). -/
theorem waits_of_not_done (h : Quiet s) (hd : s.fwdDone = false) :
    ((s.queueAt s.cfg.k).items = [] ∧ (s.queueAt s.cfg.k).prodClosed = false) ∨ Backed s 0 := by
  have hlive : forwarderLive s = true := (forwarderLive_iff s).mpr ⟨h.network, h.started, hd⟩
  have henabled := h.noForwarder
  rw [State.forwarderEnabled_eq, hlive, Bool.true_and] at henabled
  cases hpop : (s.queueAt s.lastQueue).pop with
  | got v q =>
    simp only [hpop, forwarderMayPass, Bool.or_eq_false_iff] at henabled
    obtain ⟨⟨-, hgone⟩, hroom⟩ := henabled
    exact .inr ⟨hgone, hroom⟩
  | endOfStream => simp [hpop] at henabled
  | blocked => exact .inl (Queue.pop_blocked_iff.mp hpop)

/-! The chain of full queues. -/

/-- A queue whose consumer is there has a running core behind it (R130). -/
theorem running_of_backed (h : Quiet s) (hj : j < s.cfg.k) (hb : Backed s j) : (s.coreAt j).status = .run := by
  simpa using (h.inv.inGone j hj).symm.trans hb.1

theorem backed_succ (h : Quiet s) (hj : j < s.cfg.k) (hb : Backed s j) : Backed s (j + 1) :=
  (h.waits_of_running hj (h.running_of_backed hj hb)).resolve_left fun hempty => hb.items_ne_nil h.inv hempty.1

theorem backed_of_le (h : Quiet s) (hb : Backed s i) (hij : i ≤ j) (hj : j ≤ s.cfg.k) : Backed s j := by
  induction j, hij using Nat.le_induction with
  | base => exact hb
  | succ j _ ih => exact h.backed_succ hj (ih (Nat.le_of_succ_le hj))

/-- Over the forwarder the chain closes to a ring. -/
theorem backed_zero (h : Quiet s) (hb : Backed s s.cfg.k) : Backed s 0 := by
  have hd : s.fwdDone = false := (h.inv.lastGone h.network).symm.trans hb.1
  exact (h.waits_of_not_done hd).resolve_left fun hempty => hb.items_ne_nil h.inv hempty.1

theorem all_running_of_backed (h : Quiet s) (hb : Backed s j) (hj : j ≤ s.cfg.k) (hi : i < s.cfg.k) :
    (s.coreAt i).status = .run := by
  have hfirst : Backed s 0 := h.backed_zero (h.backed_of_le hb hj (Nat.le_refl _))
  exact h.running_of_backed hi (h.backed_of_le hfirst (Nat.zero_le i) (Nat.le_of_lt hi))

/-! The chain of closed queues, where no queue is full. -/

section noneBacked

variable (h : Quiet s) (hnone : ∀ j, j ≤ s.cfg.k → ¬ Backed s j)

include h hnone

/-- A core whose input has ended would step, so it has terminated. -/
theorem terminated_of_closed (hi : i < s.cfg.k) (hclosed : (s.queueAt i).prodClosed = true) :
    (s.coreAt i).status ≠ .run := by
  intro hr
  obtain ⟨-, hopen⟩ := (h.waits_of_running hi hr).resolve_right (hnone (i + 1) hi)
  cases hclosed.symm.trans hopen

theorem terminated_of_le (hterm : (s.coreAt i).status ≠ .run) (hij : i ≤ j) (hj : j < s.cfg.k) :
    (s.coreAt j).status ≠ .run := by
  induction j, hij using Nat.le_induction with
  | base => exact hterm
  | succ j _ ih =>
    have hbefore := ih (Nat.lt_of_succ_lt hj)
    refine h.terminated_of_closed hnone hj ((h.inv.outClosed j (Nat.lt_of_succ_lt hj)).trans ?_)
    exact decide_eq_true hbefore

/-- Behind a last core that has terminated the forwarder has finished. -/
theorem done_of_last_terminated (hterm : (s.coreAt (s.cfg.k - 1)).status ≠ .run) : s.fwdDone = true := by
  have hk := h.inv.k_pos
  have hclosed : (s.queueAt s.cfg.k).prodClosed = true := by
    have hlast := h.inv.outClosed (s.cfg.k - 1) (by omega)
    rw [Nat.sub_add_cancel hk] at hlast
    exact hlast.trans (decide_eq_true hterm)
  by_contra hd
  obtain ⟨-, hopen⟩ := (h.waits_of_not_done (by simpa using hd)).resolve_right (hnone 0 (Nat.zero_le _))
  cases hclosed.symm.trans hopen

theorem all_terminated (hi : i < s.cfg.k) (hterm : (s.coreAt i).status ≠ .run) :
    s.fwdDone = true ∧ ∀ j, j < s.cfg.k → (s.coreAt j).status ≠ .run := by
  have hk := h.inv.k_pos
  have hdone : s.fwdDone = true :=
    h.done_of_last_terminated hnone (h.terminated_of_le hnone hterm (by omega) (by omega))
  have hfirst : (s.queueAt 0).prodClosed = true := by
    cases hf : s.cfg.isFeedback with
    | true => exact (h.inv.firstClosedFeedback hf).trans hdone
    | false => exact h.inv.firstClosedLinear h.network hf
  have hzero : (s.coreAt 0).status ≠ .run := h.terminated_of_closed hnone hk hfirst
  exact ⟨hdone, fun j => h.terminated_of_le hnone hzero (Nat.zero_le j)⟩

end noneBacked

/-- A quiet network stands with every core running, or has come to its end. -/
theorem all_running_or_ended (h : Quiet s) :
    (∀ i, i < s.cfg.k → (s.coreAt i).status = .run)
      ∨ (s.fwdDone = true ∧ ∀ i, i < s.cfg.k → (s.coreAt i).status ≠ .run) := by
  by_cases hb : ∃ j, j ≤ s.cfg.k ∧ Backed s j
  · obtain ⟨j, hj, hb⟩ := hb
    exact .inl fun i => h.all_running_of_backed hb hj
  · have hnone : ∀ j, j ≤ s.cfg.k → ¬ Backed s j := fun j hj hj' => hb ⟨j, hj, hj'⟩
    refine or_iff_not_imp_left.mpr fun hrun => ?_
    push Not at hrun
    obtain ⟨i, hi, hterm⟩ := hrun
    exact h.all_terminated hnone hi hterm

end Quiet

/-- A network whose cores and forwarder have all finished is drained or a failed one at its end (R131, R137). -/
theorem drained_or_failedEnd {s : State} (h : s.Inv) (hr : s.runEn = true) (hdone : s.fwdDone = true)
    (hterm : ∀ i, i < s.cfg.k → (s.coreAt i).status ≠ .run) : s.netState = .drained ∨ s.failedEnd = true := by
  cases hf : s.anyFaulted with
  | true =>
    refine .inr (s.failedEnd_iff.mpr ⟨s.netState_failed_iff.mpr ⟨hr, hf⟩, ?_, hdone⟩)
    exact (h.forall_mem_cores (·.status ≠ .run)).mpr hterm
  | false =>
    refine .inl (s.netState_drained_iff.mpr ⟨hr, h.allHalted_iff.mpr fun i hi => ?_, hdone⟩)
    have hnot : (s.coreAt i).status ≠ .faulted := fun hfault => by
      cases hf.symm.trans (h.anyFaulted_iff.mpr ⟨i, hi, hfault⟩)
    cases hst : (s.coreAt i).status with
    | run => exact absurd hst (hterm i hi)
    | halted => rfl
    | faulted => exact absurd hst hnot

/-- Settles O48: at its end a quiet network is drained or a failed end, so a deadlocked one has every core running. -/
theorem deadlockedNetworksHaveEveryCoreRunning : Obligations.DeadlockedNetworksHaveEveryCoreRunning := by
  intro s h hd
  obtain ⟨hnet, hr, hq, hnotDrained, hnotEnd⟩ := s.deadlocked_iff.mp hd
  obtain ⟨hforwarder, hcores⟩ := s.quiet_iff.mp hq
  have hquiet : Quiet s := ⟨h, hnet, hr, hforwarder, hcores⟩
  have hrun : ∀ i, i < s.cfg.k → (s.coreAt i).status = .run := by
    refine hquiet.all_running_or_ended.resolve_right fun ⟨hdone, hterm⟩ => ?_
    exact (drained_or_failedEnd h hr hdone hterm).elim hnotDrained (by simp [hnotEnd])
  have hk := h.k_pos
  have hdone : s.fwdDone = false :=
    Bool.eq_false_iff.mpr fun hdone => (h.doneAfterLast hdone).1 (hrun _ (by omega))
  have hfault : s.anyFaulted = false := by
    rw [Bool.eq_false_iff, ne_eq, h.anyFaulted_iff]
    rintro ⟨i, hi, hf⟩
    cases (hrun i hi).symm.trans hf
  exact ⟨hrun, hdone, s.netState_running_iff.mpr ⟨hr, hfault, by simp [hdone]⟩⟩

/-! ### A core's step as an action on its core and its two queues (R25, R134, R136)

The step of an enabled core is one of five actions. Which one, is settled by the core itself and by what it meets in its
queues (`Ready`); so it is the same action in any other state with that core where the queues still answer alike. -/

/-- What an error needs of the core's queues: nothing, `INQ` at its end (R95), or `OUTQ` abandoned (R96). -/
inductive RaiseNeed where
  | nothing
  | inputEnded
  | outputGone

/-- What the step of an enabled core does. -/
inductive CoreAct where
  /-- The core goes on and touches no queue. -/
  | goes (c : CoreState)
  /-- The core goes on with the head `v` of `INQ`. -/
  | takes (c : CoreState) (v : Word)
  /-- The core goes on and `v` is appended to `OUTQ`. -/
  | sends (c : CoreState) (v : Word)
  /-- HLT (R111). -/
  | halts
  /-- Error entry (R166). -/
  | raises (e : CoreError) (need : RaiseNeed)

/-- `s'` has the current core of `s` and its parameters, and the core is in place there. -/
structure SameCore (s s' : State) : Prop where
  core : s'.core = s.core
  cfg : s'.cfg = s.cfg
  inPlace : InPlace s'

namespace SameCore

variable {s s' : State}

theorem source (h : SameCore s s') (n : Nat) (p : Param) : s'.source n p = s.source n p := by
  rw [State.source, State.source, h.core]

theorem target (h : SameCore s s') (n : Nat) (p : Param) : s'.target n p = s.target n p := by
  rw [State.target, State.target, h.core, h.cfg]

end SameCore

namespace CoreAct

/-- The queues `inq` and `outq` allow the action, `qdepth` being `QDEPTH`. -/
def Ready (qdepth : Option Nat) (inq outq : Queue) : CoreAct → Prop
  | goes _ => True
  | takes _ v => inq.items.head? = some v
  | sends _ _ => outq.consGone = false ∧ outq.hasRoom qdepth = true
  | halts => True
  | raises _ .nothing => True
  | raises _ .inputEnded => inq.items = [] ∧ inq.prodClosed = true
  | raises _ .outputGone => outq.consGone = true

abbrev ReadyIn (x : CoreAct) (s : State) : Prop := x.Ready s.cfg.qdepth s.inq s.outq

/-- The current core of `s` does the action. -/
def apply (s : State) : CoreAct → State
  | goes c => s.setCore c
  | takes c _ => (s.setInq { s.inq with items := s.inq.items.tail }).setCore c
  | sends c v => (s.setOutq { s.outq with items := s.outq.items ++ [v] }).setCore c
  | halts => s.halt
  | raises e _ => s.raise e

/-! What the action makes of the core, of `INQ` and of `OUTQ`. -/

def onCore (c : CoreState) : CoreAct → CoreState
  | goes c' => c'
  | takes c' _ => c'
  | sends c' _ => c'
  | halts => { c with status := .halted }
  | raises e _ => { c with status := .faulted, fault := e.record c.pc }

def onInq (q : Queue) : CoreAct → Queue
  | goes _ => q
  | takes _ _ => { q with items := q.items.tail }
  | sends _ _ => q
  | halts => q.abandon
  | raises _ _ => q.abandon

def onOutq (q : Queue) : CoreAct → Queue
  | goes _ => q
  | takes _ _ => q
  | sends _ v => { q with items := q.items ++ [v] }
  | halts => q.closeProd
  | raises _ _ => q.closeProd

/-- The action is an error. -/
def faults : CoreAct → Bool
  | goes _ => false
  | takes _ _ => false
  | sends _ _ => false
  | halts => false
  | raises _ _ => true

theorem status_of_faults {x : CoreAct} (h : x.faults = true) (c : CoreState) : (x.onCore c).status = .faulted := by
  cases x with
  | raises e need => rfl
  | goes | takes | sends | halts => cases h

section apply

variable (x : CoreAct) (s : State)

@[simp] theorem apply_cfg : (x.apply s).cfg = s.cfg := by cases x <;> simp [apply]
@[simp] theorem apply_tap : (x.apply s).tap = s.tap := by cases x <;> simp [apply]
@[simp] theorem apply_tapValid : (x.apply s).tapValid = s.tapValid := by cases x <;> simp [apply]
@[simp] theorem apply_fwdDone : (x.apply s).fwdDone = s.fwdDone := by cases x <;> simp [apply]
@[simp] theorem apply_runEn : (x.apply s).runEn = s.runEn := by cases x <;> simp [apply]
@[simp] theorem apply_cur : (x.apply s).cur = s.cur := by cases x <;> simp [apply]
@[simp] theorem apply_env : (x.apply s).env = s.env := by cases x <;> simp [apply]
@[simp] theorem apply_coresLength : (x.apply s).cores.length = s.cores.length := by cases x <;> simp [apply]
@[simp] theorem apply_queuesLength : (x.apply s).queues.length = s.queues.length := by cases x <;> simp [apply]

@[simp] theorem apply_firstFailValid : (x.apply s).firstFailValid = (x.faults || s.firstFailValid) := by
  cases x <;> simp [apply, faults]

theorem apply_firstFailId :
    (x.apply s).firstFailId = if x.faults = true ∧ s.firstFailValid = false then s.cur else s.firstFailId := by
  cases x with
  | raises e need => cases hv : s.firstFailValid <;> simp [apply, faults, State.raise_firstFailId, hv]
  | goes | takes | sends | halts => rfl

variable {s}

theorem coreAt_apply (h : InPlace s) (n : Nat) :
    (x.apply s).coreAt n = if n = s.cur then x.onCore s.core else s.coreAt n := by
  by_cases hn : n = s.cur
  · subst hn
    rw [if_pos rfl]
    cases x with
    | halts => exact State.core_halt h.1
    | raises e need =>
      have hcore := State.core_raise h.1 e
      rwa [State.core, State.raise_cur] at hcore
    | goes | takes | sends => exact State.core_setCore (by simpa using h.1) _
  · rw [if_neg hn]
    cases x with
    | halts => exact State.coreAt_halt_other hn
    | raises e need => exact State.coreAt_raise_other hn e
    | goes | takes | sends => exact State.coreAt_setCore_other hn _

theorem queueAt_apply (h : InPlace s) (n : Nat) :
    (x.apply s).queueAt n =
      if n = s.cur then x.onInq s.inq else if n = s.cur + 1 then x.onOutq s.outq else s.queueAt n := by
  obtain ⟨-, hout⟩ := h
  have hin : s.cur < s.queues.length := Nat.lt_of_succ_lt hout
  have hports : s.closePorts.queueAt n =
      if n = s.cur then s.inq.abandon else if n = s.cur + 1 then s.outq.closeProd else s.queueAt n := by
    rw [State.queueAt_closePorts]
    grind [State.inq, State.outq]
  cases x with
  | halts => exact (State.queueAt_halt s n).trans hports
  | raises e need => exact (State.queueAt_raise s e n).trans hports
  | goes c => simp only [apply, onInq, onOutq, State.queueAt_setCore]; grind [State.inq, State.outq]
  | takes c v =>
    simp only [apply, onInq, onOutq, State.queueAt_setCore, State.setInq, State.queueAt_setQueue]
    grind [State.inq, State.outq]
  | sends c v =>
    simp only [apply, onInq, onOutq, State.queueAt_setCore, State.setOutq, State.queueAt_setQueue]
    grind [State.inq, State.outq]

end apply

end CoreAct

/-! Which action an instruction is. -/

namespace State

theorem setCore_setCore (s : State) (c c' : CoreState) : (s.setCore c).setCore c' = s.setCore c' := by
  simp [setCore]

theorem store_advance_eq {s : State} (h : s.cur < s.cores.length) (p : Nat) (v : Word) (n : Nat) :
    (s.store p v).advance n =
      s.setCore { s.core with pc := s.core.pc + BitVec.ofNat 64 n, tape := s.core.tape.write p v } := by
  rw [advance, jump, core_store h, store, setCore_setCore]

theorem setRb_advance_eq {s : State} (h : s.cur < s.cores.length) (v : Word) (n : Nat) :
    (s.setRb v).advance n = s.setCore { s.core with pc := s.core.pc + BitVec.ofNat 64 n, rb := v } := by
  rw [advance, jump, core_setRb h, setRb, setCore_setCore]

end State

/-- A `pop` that finds an item takes it (R122). -/
theorem Queue.pop_of_head? {q : Queue} {v : Word} (h : q.items.head? = some v) :
    q.pop = .got v { q with items := q.items.tail } :=
  Queue.pop_got_iff.mpr ⟨List.eq_cons_of_mem_head? h, rfl, rfl⟩

/-- A queue that has room has room after a `pop` too. -/
theorem Queue.hasRoom_tail {q : Queue} {d : Option Nat} (h : q.hasRoom d = true) :
    Queue.hasRoom d { q with items := q.items.tail } = true := by
  cases d with
  | none => rfl
  | some n =>
    simp only [Queue.hasRoom, decide_eq_true_eq, List.length_tail] at h ⊢
    omega

/-- In `s` the queues allow `x`, and wherever they do, instruction `i` of this core does not wait and does `x`. -/
def RunsAs (i : Instr) (s : State) (x : CoreAct) : Prop :=
  x.ReadyIn s ∧ ∀ s', SameCore s s' → x.ReadyIn s' → waits i s' = false ∧ exec i s' = .next (x.apply s')

section runsAs

variable {i : Instr} {s : State}

theorem execRRW_runsAs {f : Word → Word → Word} {a b d : Param} (hw : ∀ s, waits i s = false)
    (he : ∀ s, exec i s = execRRW f a b d s) : ∃ x, RunsAs i s x := by
  simp only [RunsAs, hw, he, true_and]
  cases hx : s.source 1 a with
  | error e =>
    exact ⟨.raises e .nothing, trivial, fun s' hs _ => execRRW_of_source_error ((hs.source 1 a).trans hx)⟩
  | ok x =>
    cases hy : s.source 2 b with
    | error e =>
      exact ⟨.raises e .nothing, trivial, fun s' hs _ =>
        execRRW_of_source_ok_error ((hs.source 1 a).trans hx) ((hs.source 2 b).trans hy)⟩
    | ok y =>
      cases hp : s.target 3 d with
      | error e =>
        exact ⟨.raises e .nothing, trivial, fun s' hs _ =>
          execRRW_of_target_error ((hs.source 1 a).trans hx) ((hs.source 2 b).trans hy) ((hs.target 3 d).trans hp)⟩
      | ok p =>
        refine ⟨.goes { s.core with pc := s.core.pc + BitVec.ofNat 64 4, tape := s.core.tape.write p (f x y) },
          trivial, fun s' hs _ => ?_⟩
        rw [execRRW_of_ok ((hs.source 1 a).trans hx) ((hs.source 2 b).trans hy) ((hs.target 3 d).trans hp),
          State.store_advance_eq hs.inPlace.1, hs.core, CoreAct.apply]

theorem execJumpIf_runsAs {takes : Word → Bool} {a b : Param} (hw : ∀ s, waits i s = false)
    (he : ∀ s, exec i s = execJumpIf takes a b s) : ∃ x, RunsAs i s x := by
  simp only [RunsAs, hw, he, true_and]
  cases hx : s.source 1 a with
  | error e =>
    exact ⟨.raises e .nothing, trivial, fun s' hs _ => execJumpIf_of_source_error ((hs.source 1 a).trans hx)⟩
  | ok x =>
    cases hy : s.source 2 b with
    | error e =>
      exact ⟨.raises e .nothing, trivial, fun s' hs _ =>
        execJumpIf_of_source_ok_error ((hs.source 1 a).trans hx) ((hs.source 2 b).trans hy)⟩
    | ok y =>
      by_cases ht : takes x = true
      · by_cases hneg : y.toInt < 0
        · exact ⟨.raises (.negativeAddress 2 y) .nothing, trivial, fun s' hs _ =>
            execJumpIf_of_negative_target ((hs.source 1 a).trans hx) ((hs.source 2 b).trans hy) ht hneg⟩
        · refine ⟨.goes { s.core with pc := y }, trivial, fun s' hs _ => ?_⟩
          rw [execJumpIf_of_taken ((hs.source 1 a).trans hx) ((hs.source 2 b).trans hy) ht (by omega), State.jump,
            hs.core, CoreAct.apply]
      · refine ⟨.goes { s.core with pc := s.core.pc + BitVec.ofNat 64 3 }, trivial, fun s' hs _ => ?_⟩
        rw [execJumpIf_of_not_taken ((hs.source 1 a).trans hx) ((hs.source 2 b).trans hy) ht, State.advance,
          State.jump, hs.core, CoreAct.apply]

theorem execArb_runsAs (a : Param) : ∃ x, RunsAs (.arb a) s x := by
  cases hx : s.source 1 a with
  | error e =>
    exact ⟨.raises e .nothing, trivial, fun s' hs _ =>
      ⟨rfl, execArb_of_source_error ((hs.source 1 a).trans hx)⟩⟩
  | ok x =>
    refine ⟨.goes { s.core with pc := s.core.pc + BitVec.ofNat 64 2, rb := aluAdd s.core.rb x }, trivial,
      fun s' hs _ => ⟨rfl, ?_⟩⟩
    change execArb a s' = _
    rw [execArb_of_ok ((hs.source 1 a).trans hx), State.setRb_advance_eq hs.inPlace.1, hs.core, CoreAct.apply]

theorem execInp_runsAs (d : Param) (hgo : waits (.inp d) s = false) : ∃ x, RunsAs (.inp d) s x := by
  simp only [RunsAs, waits_inp_eq_false_iff] at hgo ⊢
  cases hp : s.target 1 d with
  | error e =>
    refine ⟨.raises e .nothing, trivial, fun s' hs _ => ⟨fun p hp' => ?_, ?_⟩⟩
    · cases ((hs.target 1 d).trans hp).symm.trans hp'
    · exact execInp_of_target_error ((hs.target 1 d).trans hp)
  | ok p =>
    cases hv : s.inq.items.head? with
    | none =>
      have hempty : s.inq.items = [] := List.head?_eq_none_iff.mp hv
      have hclosed := (hgo p hp).resolve_left (by simp [hempty])
      refine ⟨.raises .inputEndOfStream .inputEnded, ⟨hempty, hclosed⟩, fun s' hs hr => ⟨fun _ _ => .inr hr.2, ?_⟩⟩
      exact execInp_of_endOfStream ((hs.target 1 d).trans hp) (Queue.pop_endOfStream_iff.mpr hr)
    | some v =>
      refine ⟨.takes { s.core with pc := s.core.pc + BitVec.ofNat 64 2, tape := s.core.tape.write p v } v, hv,
        fun s' hs hr => ⟨fun _ _ => .inl fun hempty => ?_, ?_⟩⟩
      · have hr : s'.inq.items.head? = some v := hr
        simp [hempty] at hr
      · change execInp d s' = _
        rw [execInp_of_got ((hs.target 1 d).trans hp) (Queue.pop_of_head? hr),
          State.store_advance_eq (by simpa using hs.inPlace.1), State.core_setInq, hs.core, CoreAct.apply]

theorem execOut_runsAs (a : Param) (hgo : waits (.out a) s = false) : ∃ x, RunsAs (.out a) s x := by
  simp only [RunsAs, waits_out_eq_false_iff, ← hasRoom_iff_room] at hgo ⊢
  cases hx : s.source 1 a with
  | error e =>
    refine ⟨.raises e .nothing, trivial, fun s' hs _ => ⟨fun x hx' => ?_, ?_⟩⟩
    · cases ((hs.source 1 a).trans hx).symm.trans hx'
    · exact execOut_of_source_error ((hs.source 1 a).trans hx)
  | ok x =>
    cases hg : s.outq.consGone with
    | true =>
      refine ⟨.raises (.outputConsumerGone x) .outputGone, hg, fun s' hs hr => ⟨fun _ _ => .inl hr, ?_⟩⟩
      exact execOut_of_gone ((hs.source 1 a).trans hx) (Queue.push_gone_iff.mpr hr)
    | false =>
      have hroom := (hgo x hx).resolve_left (by simp [hg])
      refine ⟨.sends { s.core with pc := s.core.pc + BitVec.ofNat 64 2 } x, ⟨hg, hroom⟩,
        fun s' hs hr => ⟨fun _ _ => .inr hr.2, ?_⟩⟩
      change execOut a s' = _
      rw [execOut_of_pushed ((hs.source 1 a).trans hx) (Queue.push_pushed_iff.mpr ⟨hr.1, hr.2, rfl⟩), State.advance,
        State.jump, State.core_setOutq, hs.core, CoreAct.apply]

/-- An instruction that does not wait is an action. -/
theorem exec_runsAs (hgo : waits i s = false) : ∃ x, RunsAs i s x := by
  cases i with
  | add a b d | mul a b d | lt a b d | eq a b d => exact execRRW_runsAs (fun _ => rfl) fun _ => rfl
  | jnz a b | jz a b => exact execJumpIf_runsAs (fun _ => rfl) fun _ => rfl
  | inp d => exact execInp_runsAs d hgo
  | out a => exact execOut_runsAs a hgo
  | arb a => exact execArb_runsAs a
  | hlt => exact ⟨.halts, trivial, fun s' _ _ => ⟨rfl, rfl⟩⟩

end runsAs

/-- The step of a core that does not wait is an action, and the same action wherever the core's queues allow it. -/
theorem coreStep_act {s : State} (hgo : coreWaits s = false) :
    ∃ x : CoreAct, x.ReadyIn s ∧
      ∀ s', SameCore s s' → x.ReadyIn s' → coreWaits s' = false ∧ coreStep s' = .next (x.apply s') := by
  cases hf : fetchDecode s.core with
  | error e =>
    refine ⟨.raises e .nothing, trivial, fun s' hs _ => ?_⟩
    have hf' : fetchDecode s'.core = .error e := by rw [hs.core, hf]
    exact ⟨by rw [coreWaits, hf'], by rw [coreStep, hf']; rfl⟩
  | ok i =>
    obtain ⟨x, hready, hruns⟩ := exec_runsAs ((coreWaits_eq_false_iff s).mp hgo i hf)
    refine ⟨x, hready, fun s' hs hr => ?_⟩
    have hf' : fetchDecode s'.core = .ok i := by rw [hs.core, hf]
    obtain ⟨hw, he⟩ := hruns s' hs hr
    exact ⟨by rw [coreWaits, hf']; exact hw, by rw [coreStep, hf']; exact he⟩

/-! ### Two cores' actions commute (R134, R136) -/

namespace CoreAct

variable {x y : CoreAct} {d : Option Nat} {p q o : Queue}

/-- What the producer leaves in a queue that it had not closed, its consumer takes like what was there before. -/
theorem Ready.onOutq (x : CoreAct) (h : y.Ready d q o) (hopen : q.prodClosed = false) : y.Ready d (x.onOutq q) o := by
  cases y with
  | goes | sends | halts => exact h
  | takes c v =>
    cases x with
    | sends c' w => exact List.mem_head?_append_of_mem_head? h
    | goes | takes | halts | raises => exact h
  | raises e need =>
    cases need with
    | nothing | outputGone => exact h
    | inputEnded => cases hopen.symm.trans h.2

/-- The action terminates the core. -/
def Stops (x : CoreAct) : Prop := ∀ c, (x.onCore c).status ≠ .run

/-- A live consumer leaves the producer its room, but where it terminates against a `push` (R136 b). -/
theorem Ready.onInq (h : x.Ready d p q) (hlive : q.consGone = false)
    (hrace : y.Stops → (x.onOutq q).items = q.items) : x.Ready d p (y.onInq q) := by
  cases x with
  | goes | takes | halts => exact h
  | raises e need =>
    cases need with
    | nothing | inputEnded => exact h
    | outputGone => cases hlive.symm.trans h
  | sends c v =>
    have hnostop : ¬ y.Stops := fun hs => by simpa [CoreAct.onOutq] using hrace hs
    cases y with
    | goes | sends => exact h
    | takes c' w => exact ⟨h.1, Queue.hasRoom_tail h.2⟩
    | halts => exact absurd (fun _ => nofun) hnostop
    | raises e need => exact absurd (fun _ => nofun) hnostop

/-- The two ends of a queue do not meet: a head that is taken was there before the tail was appended (R124). -/
theorem onInq_onOutq (x : CoreAct) (h : y.Ready d q o) : y.onInq (x.onOutq q) = x.onOutq (y.onInq q) := by
  cases y with
  | goes | sends => rfl
  | halts | raises => cases x <;> rfl
  | takes c v =>
    cases x with
    | goes | takes | halts | raises => rfl
    | sends c' w =>
      have hne : q.items ≠ [] := fun hempty => by simp [Ready, hempty] at h
      simp only [CoreAct.onInq, CoreAct.onOutq, List.tail_append_of_ne_nil hne]

end CoreAct

/-- States that agree on every field, every core and every queue are one state. -/
theorem State.eq_of_kept {s t : State} (hrest : RestKept s t) (hfail : FailKept s t) (hcore : t.core = s.core)
    (hqueue : QueuesKept s t) : t = s := by
  obtain ⟨hcfg, htap, hvalid, hdone, hrun, hcur, henv, hcoresLen, hqueuesLen, hother⟩ := hrest
  obtain ⟨hfailValid, hfailId⟩ := hfail
  have hcores : t.cores = s.cores := List.ext_getElem hcoresLen fun n h1 h2 => by
    have hn : t.coreAt n = s.coreAt n := by
      by_cases hn : n = s.cur
      · rwa [core, core, hcur, ← hn] at hcore
      · exact hother n hn
    simpa [coreAt, h1, h2] using hn
  have hqueues : t.queues = s.queues := List.ext_getElem hqueuesLen fun n h1 h2 => by
    simpa [queueAt, h1, h2] using hqueue n
  cases s
  cases t
  simp_all

section twoCores

variable {s : State} {i j : Nat} {x y : CoreAct}

theorem inPlace_apply (x : CoreAct) (i : Nat) (hj : InPlace (s.atCore j)) :
    InPlace ((x.apply (s.atCore i)).atCore j) := by
  simpa [InPlace] using hj

theorem coreAt_apply_atCore (hi : InPlace (s.atCore i)) (n : Nat) :
    (x.apply (s.atCore i)).coreAt n = if n = i then x.onCore (s.coreAt i) else s.coreAt n :=
  x.coreAt_apply hi n

theorem queueAt_apply_atCore (hi : InPlace (s.atCore i)) (n : Nat) :
    (x.apply (s.atCore i)).queueAt n =
      if n = i then x.onInq (s.queueAt i) else if n = i + 1 then x.onOutq (s.queueAt (i + 1)) else s.queueAt n :=
  x.queueAt_apply hi n

/-- The action of one core leaves another core what it is. -/
theorem sameCore_apply (hi : InPlace (s.atCore i)) (hj : InPlace (s.atCore j)) (hne : j ≠ i) :
    SameCore (s.atCore j) ((x.apply (s.atCore i)).atCore j) where
  core := (coreAt_apply_atCore hi j).trans (if_neg hne)
  cfg := by simp
  inPlace := inPlace_apply x i hj

/-- The later core's action stays possible: of its queues only `INQ` may have changed, by its producer. -/
theorem ready_after_producer (hij : i < j) (hi : InPlace (s.atCore i)) (hy : y.ReadyIn (s.atCore j))
    (hopen : j = i + 1 → (s.queueAt j).prodClosed = false) : y.ReadyIn ((x.apply (s.atCore i)).atCore j) := by
  simp only [CoreAct.ReadyIn, State.atCore_cfg, State.inq_atCore, State.outq_atCore, CoreAct.apply_cfg,
    queueAt_apply_atCore hi] at hy ⊢
  rw [if_neg (c := j = i) (by omega), if_neg (c := j + 1 = i) (by omega), if_neg (c := j + 1 = i + 1) (by omega)]
  split
  next hnext => subst hnext; exact hy.onOutq x (hopen rfl)
  next => exact hy

/-- The earlier core's action stays possible: of its queues only `OUTQ` may have changed, by its consumer. -/
theorem ready_after_consumer (hij : i < j) (hj : InPlace (s.atCore j)) (hx : x.ReadyIn (s.atCore i))
    (hlive : (s.queueAt j).consGone = false)
    (hrace : j = i + 1 → y.Stops → (x.onOutq (s.queueAt j)).items = (s.queueAt j).items) :
    x.ReadyIn ((y.apply (s.atCore j)).atCore i) := by
  simp only [CoreAct.ReadyIn, State.atCore_cfg, State.inq_atCore, State.outq_atCore, CoreAct.apply_cfg,
    queueAt_apply_atCore hj] at hx ⊢
  rw [if_neg (c := i = j) (by omega), if_neg (c := i = j + 1) (by omega), if_neg (c := i + 1 = j + 1) (by omega)]
  split
  next hnext => subst hnext; exact hx.onInq hlive (hrace rfl)
  next => exact hx

/-- Taken in either order, the two actions give one state, but for which core is current (R134). -/
theorem apply_comm (hij : i < j) (hi : InPlace (s.atCore i)) (hj : InPlace (s.atCore j)) (hy : y.ReadyIn (s.atCore j))
    (hfirst : x.faults = false ∨ y.faults = false ∨ s.firstFailValid = true) :
    y.apply ((x.apply (s.atCore i)).atCore j) = { x.apply ((y.apply (s.atCore j)).atCore i) with cur := j } := by
  have hi' := inPlace_apply y j hi
  have hj' := inPlace_apply x i hj
  have hcores : ∀ n, (y.apply ((x.apply (s.atCore i)).atCore j)).coreAt n
      = (x.apply ((y.apply (s.atCore j)).atCore i)).coreAt n := fun n => by
    simp only [coreAt_apply_atCore hi', coreAt_apply_atCore hj', coreAt_apply_atCore hi, coreAt_apply_atCore hj]
    grind
  have hqueues : ∀ n, (y.apply ((x.apply (s.atCore i)).atCore j)).queueAt n
      = (x.apply ((y.apply (s.atCore j)).atCore i)).queueAt n := fun n => by
    have hshared : y.onInq (x.onOutq (s.queueAt j)) = x.onOutq (y.onInq (s.queueAt j)) := CoreAct.onInq_onOutq x hy
    simp only [queueAt_apply_atCore hi', queueAt_apply_atCore hj', queueAt_apply_atCore hi, queueAt_apply_atCore hj]
    grind
  refine State.eq_of_kept ?_ ⟨?_, ?_⟩ ?_ hqueues
  · exact ⟨by simp, by simp, by simp, by simp, by simp, by simp, by simp, by simp, by simp, fun n _ => hcores n⟩
  · simp [Bool.or_left_comm]
  · simp only [CoreAct.apply_firstFailId, CoreAct.apply_firstFailValid, State.atCore_firstFailValid,
      State.atCore_firstFailId, State.atCore_cur]
    grind
  · rw [State.core, CoreAct.apply_cur]
    exact hcores j

end twoCores

theorem coreEnabled_iff (s : State) (i : Nat) :
    coreEnabled s i = true ↔
      i < s.cores.length ∧ s.runEn = true ∧ (s.coreAt i).status = .run ∧ coreWaits (s.atCore i) = false := by
  simp [coreEnabled, and_assoc]

theorem State.Inv.inPlace {s : State} {i : Nat} (h : s.Inv) (hi : coreEnabled s i = true) : InPlace (s.atCore i) := by
  obtain ⟨hlt, -⟩ := (coreEnabled_iff s i).mp hi
  refine ⟨hlt, ?_⟩
  change i + 1 < s.queues.length
  rw [h.queueCount, ← h.coreCount]
  omega

/-- Settles O51: each step is an action that stays possible after the other's, and the actions commute. -/
theorem stepsOfTwoCoresCommute : Obligations.StepsOfTwoCoresCommute := by
  intro s a b i j h hij hi hj ha hb hrace hfirst
  have hini := h.inPlace hi
  have hinj := h.inPlace hj
  obtain ⟨hilt, hrun, hirun, hiwaits⟩ := (coreEnabled_iff s i).mp hi
  obtain ⟨hjlt, -, hjrun, hjwaits⟩ := (coreEnabled_iff s j).mp hj
  obtain ⟨x, hx, hxsteps⟩ := coreStep_act hiwaits
  obtain ⟨y, hy, hysteps⟩ := coreStep_act hjwaits
  cases ha.symm.trans (hxsteps _ ⟨rfl, rfl, hini⟩ hx).2
  cases hb.symm.trans (hysteps _ ⟨rfl, rfl, hinj⟩ hy).2
  rw [h.coreCount] at hilt hjlt
  have hopen : j = i + 1 → (s.queueAt j).prodClosed = false := by
    rintro rfl
    rw [h.outClosed i hilt, hirun]
    rfl
  have hlive : (s.queueAt j).consGone = false := by
    rw [h.inGone j hjlt, hjrun]
    rfl
  have hiAfter : (x.apply (s.atCore i)).coreAt i = x.onCore (s.coreAt i) := by
    rw [coreAt_apply_atCore hini, if_pos rfl]
  have hjAfter : (y.apply (s.atCore j)).coreAt j = y.onCore (s.coreAt j) := by
    rw [coreAt_apply_atCore hinj, if_pos rfl]
  have hpush : j = i + 1 → y.Stops → (x.onOutq (s.queueAt j)).items = (s.queueAt j).items := by
    rintro rfl hstops
    have hitems := hrace rfl (hjAfter ▸ hstops _)
    rwa [queueAt_apply_atCore hini, if_neg (Nat.succ_ne_self i), if_pos rfl] at hitems
  have hlatch : x.faults = false ∨ y.faults = false ∨ s.firstFailValid = true := by
    refine hfirst.imp (fun hnot => ?_) (Or.imp_left fun hnot => ?_)
    · exact Bool.eq_false_iff.mpr fun hf => hnot (hiAfter ▸ x.status_of_faults hf _)
    · exact Bool.eq_false_iff.mpr fun hf => hnot (hjAfter ▸ y.status_of_faults hf _)
  obtain ⟨hjwaits', hjstep⟩ := hysteps _ (sameCore_apply (x := x) hini hinj (Nat.ne_of_gt hij))
    (ready_after_producer hij hini hy hopen)
  obtain ⟨hiwaits', histep⟩ := hxsteps _ (sameCore_apply (x := y) hinj hini (Nat.ne_of_lt hij))
    (ready_after_consumer hij hinj hx hlive hpush)
  refine ⟨?_, ?_, _, _, hjstep, histep, apply_comm hij hini hinj hy hlatch⟩
  · refine (coreEnabled_iff _ j).mpr ⟨by simpa [h.coreCount] using hjlt, by simpa using hrun, ?_, hjwaits'⟩
    rw [coreAt_apply_atCore hini, if_neg (Nat.ne_of_gt hij), hjrun]
  · refine (coreEnabled_iff _ i).mpr ⟨by simpa [h.coreCount] using hilt, by simpa using hrun, ?_, hiwaits'⟩
    rw [coreAt_apply_atCore hinj, if_neg (Nat.ne_of_lt hij), hirun]

end Sys2Proof.Machine

/-! # Proofs: errors (60_exceptions.md) -/

namespace Sys2Proof.Machine

/-! ### What error entry does to the core and to each queue (R165, R166) -/

namespace State

/-- The core that raises is the one whose step it was. -/
theorem core_raise_eq_coreAt (s : State) (e : CoreError) : (s.raise e).core = (s.raise e).coreAt s.cur :=
  congrArg (s.raise e).coreAt (raise_cur s e)

@[simp] theorem pc_raise (s : State) (e : CoreError) : (s.raise e).core.pc = s.core.pc := by
  rw [raise, core_latchFail]
  exact core_setCore_congr (·.pc) rfl

/-- Error entry and HLT are the same to the queues: both terminate the core (R130). -/
theorem queueAt_raise_eq_halt (s : State) (e : CoreError) (j : Nat) : (s.raise e).queueAt j = s.halt.queueAt j := by
  rw [queueAt_raise, queueAt_halt]

theorem outq_raise {s : State} (h : InPlace s) (e : CoreError) : (s.raise e).outq = s.outq.closeProd := by
  rw [← outq_halt h, outq, raise_cur, queueAt_raise_eq_halt]
  rfl

theorem inq_raise {s : State} (h : InPlace s) (e : CoreError) : (s.raise e).inq = s.inq.abandon := by
  rw [← inq_halt h, inq, raise_cur, queueAt_raise_eq_halt]
  rfl

@[simp] theorem items_raise (s : State) (e : CoreError) (j : Nat) :
    ((s.raise e).queueAt j).items = (s.queueAt j).items := by
  rw [queueAt_raise, items_closePorts]

/-- An empty latch takes the core that raises (R133). -/
theorem latched_raise {s : State} (h : s.firstFailValid = false) (e : CoreError) :
    (s.raise e).firstFailValid = true ∧ (s.raise e).firstFailId = s.cur :=
  ⟨raise_firstFailValid s e, by simp [raise_firstFailId, h]⟩

/-- The core that raised has no further step (R166). -/
theorem not_enabled_raise {s : State} (h : s.cur < s.cores.length) (e : CoreError) :
    (s.raise e).enabled (.core s.cur) = false :=
  not_enabled_of_terminated (by rw [← core_raise_eq_coreAt, core_raise h]; nofun)

end State

/-- Only an error makes a running core `FAULTED`: a step that does so is error entry and nothing else (R165). -/
theorem step_raises_of_faulted {s t : State} {k : Nat} (h : s.Inv) (ha : s.nextAgent = .core k)
    (hrun : (s.coreAt k).status = .run) (ht : step s = .next t) (hfaulted : (t.coreAt k).status = .faulted) :
    ∃ e, t = (s.passTurn.atCore k).raise e :=
  (step_core_latch h ha ht).resolve_right fun ⟨_, hbefore⟩ => nomatch hrun.symm.trans (hbefore hfaulted)

/-! ### The statements -/

/-- Settles O28: raising is one of the effects an instruction can have, so it keeps what every effect keeps; of the core
it replaces `STATUS` and the record, of the queues the two flags. -/
theorem errorEntryWritesExactly : Obligations.ErrorEntryWritesExactly := by
  intro s e hs
  have hcore := State.core_raise hs.1 e
  have heffect : Effect s .hlt (s.raise e) := .raises e
  exact ⟨by rw [hcore, CoreError.record], by rw [hcore], by rw [hcore], by rw [hcore], by rw [hcore],
    State.outq_raise hs e, State.inq_raise hs e, fun _ => heffect.queueAt_other,
    fun hempty => State.latched_raise hempty e, fun hset => State.failKept_raise hset e, heffect.restKept,
    State.not_enabled_raise hs.1 e⟩

/-- Settles O29: the step is error entry, which keeps `PC`, `RB`, the tape, the other cores and all items. -/
theorem errorsArePrecise : Obligations.ErrorsArePrecise := by
  intro s t k h ha hrun ht hfaulted
  obtain ⟨e, rfl⟩ := step_raises_of_faulted h ha hrun ht hfaulted
  have hcore := State.core_raise_eq_coreAt (s.passTurn.atCore k) e
  rw [State.atCore_cur] at hcore
  rw [← hcore]
  exact ⟨by simp, by simp, by simp, fun j hj => (State.coreAt_raise_other hj e).trans (by simp), fun j => by simp⟩

/-- Settles O24: `exec` answers a next state with one of the effects. -/
theorem everyInstructionAnswersNext : Obligations.EveryInstructionAnswersNext := by
  intro i s
  obtain ⟨t, ht, -⟩ := exec_effect i s
  exact ⟨t, ht⟩

/-- Settles O27: the rows of the table are the model's own, and no error has the classes 0 and 1. -/
theorem faultRecordCodes : Obligations.FaultRecordCodes := by
  refine ⟨fun _ _ => rfl, fun _ _ => rfl, fun _ _ _ => rfl, fun _ _ _ => rfl, fun _ _ _ => rfl, fun _ => rfl,
    fun _ _ => rfl, fun _ _ => rfl, fun _ _ _ => rfl, fun e => ?_⟩
  obtain ⟨hnone, hhost, -⟩ := e.cause_legal
  exact ⟨hnone, hhost⟩

end Sys2Proof.Machine

/-! # Proofs: reset, and the end of a run (70_reset_and_hazards.md) -/

namespace Sys2Proof.Machine

/-! ### A core with an empty image (R159, R182) -/

/-- Settles O41: the booted core has `LEN = 0`, so at `PC = 0` there is no word to decode. -/
theorem emptyImageRunsAway : Obligations.EmptyImageRunsAway := by
  intro c tap n env i himage s
  have hboot : s.core = CoreState.boot [] := State.coreAt_resetOf_of_image himage tap n env
  have hcur : s.cur < s.cores.length := by
    obtain ⟨hi, -⟩ := List.getElem?_eq_some_iff.mp himage
    exact hi.trans_eq (List.length_map _).symm
  have hstep : coreStep s = .next (s.raise (.runaway s.core.pc)) :=
    coreStep_of_decode_error (r := .noWord) (by rw [hboot]; rfl)
  rw [hboot] at hstep
  refine ⟨hstep, ?_⟩
  rw [State.core_raise hcur, hboot]
  rfl

/-! ### A run with a step bound (R189) -/

/-- What an outcome of a run from `s` with the bound `n` says of the steps taken and the state it stopped in. -/
def RunOutcome.Reached (n : Nat) (s : State) : RunOutcome → Prop
  | .ended e t => t.endOf = some e ∧ ∃ m, m ≤ n ∧ StepsTo m s t
  | .outOfFuel t => t.endOf = none ∧ StepsTo n s t
  | .refused r t => step t = .refused r ∧ ∃ m, m < n ∧ StepsTo m s t

/-- A run from the next state, seen from the state before it. -/
theorem RunOutcome.Reached.step_before {n : Nat} {s u : State} {o : RunOutcome} (hs : step s = .next u)
    (h : o.Reached n u) : o.Reached (n + 1) s := by
  cases o with
  | ended e t =>
    obtain ⟨hend, m, hm, hsteps⟩ := h
    exact ⟨hend, m + 1, Nat.succ_le_succ hm, u, hs, hsteps⟩
  | outOfFuel t =>
    obtain ⟨hend, hsteps⟩ := h
    exact ⟨hend, u, hs, hsteps⟩
  | refused r t =>
    obtain ⟨hrefused, m, hm, hsteps⟩ := h
    exact ⟨hrefused, m + 1, Nat.succ_lt_succ hm, u, hs, hsteps⟩

theorem run_reached (n : Nat) (s : State) : (run n s).Reached n s := by
  induction n using Nat.strong_induction_on generalizing s with
  | _ n ih =>
    cases hend : s.endOf with
    | some e => exact run_ended hend n ▸ ⟨hend, 0, Nat.zero_le n, rfl⟩
    | none =>
      obtain ⟨rfl, hrun⟩ | ⟨m, u, rfl, hs, hrun⟩ | ⟨m, r, rfl, hs, hrun⟩ := run_cases hend n
      · exact hrun ▸ ⟨hend, rfl⟩
      · exact hrun ▸ (ih m (Nat.lt_succ_self m) u).step_before hs
      · exact hrun ▸ ⟨hs, 0, Nat.succ_pos m, rfl⟩

theorem reached_of_run_eq {n : Nat} {s : State} {o : RunOutcome} (h : run n s = o) : o.Reached n s :=
  h ▸ run_reached n s

/-- A run that has not used up its bound answers the same with a larger one. -/
theorem run_eq_of_le {m n : Nat} {s : State} (hmn : m ≤ n) (hfuel : ∀ t, run m s ≠ .outOfFuel t) :
    run n s = run m s := by
  induction m using Nat.strong_induction_on generalizing n s with
  | _ m ih =>
    cases hend : s.endOf with
    | some e => rw [run_ended hend, run_ended hend]
    | none =>
      obtain ⟨-, hrun⟩ | ⟨m, u, rfl, hs, hrun⟩ | ⟨m, r, rfl, hs, hrun⟩ := run_cases hend m
      · exact absurd hrun (hfuel s)
      · obtain ⟨n, rfl⟩ := Nat.exists_eq_add_of_lt hmn
        rw [hrun] at hfuel
        rw [hrun, run_succ_next hend hs, ih m (Nat.lt_succ_self m) (Nat.le_add_right m n) hfuel]
      · obtain ⟨n, rfl⟩ := Nat.exists_eq_add_of_lt hmn
        rw [hrun, run_succ_refused hend hs]

/-- Settles O50: the first three parts are what `Reached` says of each outcome. -/
theorem boundedRunIsARun : Obligations.BoundedRunIsARun :=
  ⟨fun _ _ _ _ => reached_of_run_eq, fun _ _ _ => reached_of_run_eq, fun _ _ _ _ => reached_of_run_eq,
    fun _ _ _ => run_eq_of_le⟩

/-! ### The ends of a run (R137, R189) -/

namespace State

theorem goodFinal_iff (s : State) : s.goodFinal = true ↔
    (s.cfg.isStandalone = true ∧ (s.coreAt 0).status = .halted)
      ∨ (s.cfg.isStandalone = false ∧ s.netState = .drained) := by
  cases hs : s.cfg.isStandalone <;> simp [goodFinal, hs]

theorem faultedEnd_iff (s : State) : s.faultedEnd = true ↔
    (s.cfg.isStandalone = true ∧ (s.coreAt 0).status = .faulted)
      ∨ (s.cfg.isStandalone = false ∧ s.failedEnd = true) := by
  cases hs : s.cfg.isStandalone <;> simp [faultedEnd, hs]

theorem runOver_iff (s : State) : s.runOver = true ↔
    (s.cfg.isStandalone = true ∧ (s.coreAt 0).status ≠ .run)
      ∨ (s.cfg.isStandalone = false ∧ (s.netState = .drained ∨ (s.netState = .failed ∧ s.quiet = true))) := by
  cases hs : s.cfg.isStandalone <;> simp [runOver, hs]

/-! Which answer `endOf` gives. -/

theorem endOf_halted_iff (s : State) : s.endOf = some .halted ↔ s.goodFinal = true := by
  unfold endOf
  grind

theorem endOf_halted_or_faulted_iff (s : State) :
    (s.endOf = some .halted ∨ s.endOf = some .faulted) ↔ (s.goodFinal = true ∨ s.faultedEnd = true) := by
  unfold endOf
  grind

/-- A deadlock is neither a good end nor a fault's, so the two tests before it fail. -/
theorem endOf_deadlocked_iff (s : State) : s.endOf = some .deadlocked ↔ s.deadlocked = true := by
  have hgood : s.deadlocked = true → s.goodFinal = false := fun hd => by
    obtain ⟨hnet, -, -, hnotDrained, -⟩ := s.deadlocked_iff.mp hd
    simp [goodFinal, hnet, hnotDrained]
  have hfaulted : s.deadlocked = true → s.faultedEnd = false := fun hd => by
    obtain ⟨hnet, -, -, -, hnotEnd⟩ := s.deadlocked_iff.mp hd
    simp [faultedEnd, hnet, hnotEnd]
  unfold endOf
  grind

/-- At the end of a failed network nothing has a step: every core has terminated and the forwarder has finished. -/
theorem quiet_of_failedEnd {s : State} (h : s.failedEnd = true) : s.quiet = true := by
  obtain ⟨-, hterm, hdone⟩ := s.failedEnd_iff.mp h
  refine s.quiet_iff.mpr ⟨Bool.eq_false_iff.mpr fun hf => ?_, fun i => Bool.eq_false_iff.mpr fun hc => ?_⟩
  · obtain ⟨-, -, hnotDone⟩ := (forwarderLive_iff s).mp (forwarderLive_of_enabled hf)
    cases hdone.symm.trans hnotDone
  · obtain ⟨hi, -, hrun, -⟩ := (coreStepEnabledExactly s i).mp hc
    rw [coreAt, List.getD_eq_getElem _ _ hi] at hrun
    exact hterm _ (List.getElem_mem hi) hrun

end State

namespace State.Inv

variable {s : State}

/-- A good end has no faulted core: a standalone core is the only one, a drained network has halted as a whole. -/
theorem not_faulted_of_goodFinal (h : s.Inv) (hg : s.goodFinal = true) {i : Nat} (hi : i < s.cfg.k) :
    (s.coreAt i).status ≠ .faulted := by
  have hhalted : (s.coreAt i).status = .halted := by
    obtain ⟨hs, hhalted⟩ | ⟨-, hdrained⟩ := s.goodFinal_iff.mp hg
    · have hk : s.cfg.k = 1 := Config.k_of_standalone h.cfgValid hs
      obtain rfl : i = 0 := by omega
      exact hhalted
    · obtain ⟨-, hall, -⟩ := s.netState_drained_iff.mp hdrained
      exact h.allHalted_iff.mp hall i hi
  simp [hhalted]

/-- A failed network has come to its end exactly where nothing has a step: anything else would be a deadlock with a
faulted core, and a deadlocked network has every core running. -/
theorem failedEnd_iff_quiet (h : s.Inv) (hnet : s.cfg.isStandalone = false) :
    s.failedEnd = true ↔ s.netState = .failed ∧ s.quiet = true := by
  refine ⟨fun hend => ⟨(s.failedEnd_iff.mp hend).1, quiet_of_failedEnd hend⟩, fun ⟨hfailed, hq⟩ => ?_⟩
  by_contra hend
  obtain ⟨hr, -⟩ := s.netState_failed_iff.mp hfailed
  have hdead : s.deadlocked = true :=
    s.deadlocked_iff.mpr ⟨hnet, hr, hq, by simp [hfailed], Bool.eq_false_iff.mpr hend⟩
  obtain ⟨-, -, hrunning⟩ := deadlockedNetworksHaveEveryCoreRunning s h hdead
  cases hfailed.symm.trans hrunning

/-- A run is over at a good end and at a fault's, and nowhere else. -/
theorem runOver_iff_ended (h : s.Inv) : s.runOver = true ↔ s.goodFinal = true ∨ s.faultedEnd = true := by
  rw [s.runOver_iff, s.goodFinal_iff, s.faultedEnd_iff]
  cases hs : s.cfg.isStandalone with
  | true => cases (s.coreAt 0).status <;> simp
  | false => simp [h.failedEnd_iff_quiet hs]

end State.Inv

/-- Settles O49: the ends are told apart by `endOf`, and under the invariant a failed network without a step is at its
end. -/
theorem runEndsExactly : Obligations.RunEndsExactly := by
  intro s h
  refine ⟨s.goodFinal_iff, fun hg i hi => h.not_faulted_of_goodFinal hg hi, ?_, ?_, s.endOf_halted_iff,
    s.endOf_deadlocked_iff⟩
  · rw [s.runOver_iff, s.quiet_iff]
  · rw [h.runOver_iff_ended, s.endOf_halted_or_faulted_iff]

end Sys2Proof.Machine
